-- ==== Sys2Proof/Word.lean ====
section
/-! DEFINITION. The word types of the OTP engine (00_scope.md R13: host bus and registers are 32 bits wide, buffers hold
bytes, times and counters are 64 bits wide). Everything the spec adds, divides or compares is a natural number (R14). -/

namespace Sys2Proof

/-- One byte of a buffer, a digest or a text (00_scope.md R16). -/
abbrev Byte := BitVec 8

/-- One 32-bit register or bus word (00_scope.md R13). -/
abbrev Word := BitVec 32

/-- A 64-bit quantity: a time sample (00_scope.md R11, R13). -/
abbrev DWord := BitVec 64

end Sys2Proof
end

