-- ==== Sys2Proof/Config.lean ====
section
/-! DEFINITION. The parameters of 00_scope.md section 4 and 92_eei_decisions.md "Open parameters", and the free values: each
value the spec leaves open is an opaque constant without a body, so that no proof can depend on what it is. -/

namespace Sys2Proof

/-- One request on the HMAC port: the 32-bit key handle and the 8-byte message (60_exceptions.md R221). -/
structure HmacRequest where
  key : Word
  msg : List Byte
  deriving DecidableEq, Repr

/-- The collaborator's answer (60_exceptions.md R221): a digest, or a failure with a 31-bit status. -/
inductive HmacResponse where
  | ok (digest : List Byte)
  | fail (status : BitVec 31)
  deriving DecidableEq, Repr, Inhabited

/-- What is fixed for one machine. No step changes it. `bufBytes` is BUF_BYTES (R9); `base` is BASE (20_memory.md R62);
`hmacKnown` lists the values of the parameter `Hmac` (R10) that a run's environment states; where it states none the value is
`Config.freeHmac`. -/
structure Config where
  bufBytes : Nat
  base : Nat
  hmacKnown : List (HmacRequest × HmacResponse)
  deriving DecidableEq, Repr

/-- The default parameters: BUF_BYTES 1024 (R9). DESIGN CHOICE (notes/assumptions/2.md, 17.md): BASE 0, no value of `Hmac`
stated, the default capacity. -/
def Config.default : Config := { bufBytes := 1024, base := 0, hmacKnown := [] }

/-- The collaborator's function `Hmac` (00_scope.md R10), uninterpreted. -/
opaque Config.freeHmac : Word → List Byte → HmacResponse

/-- The external time input `now_ms` (00_scope.md R11): the value of the draw with this number, under no law. -/
opaque Config.freeNowMs : Nat → DWord

/-- The contents of the buffers after the power-on with this number (10_state.md R52, R53), by offset in the window. -/
opaque Config.freePowerOnByte : Nat → Nat → Byte

/-- What a host read of a result returns while the block is busy (10_state.md R55), by draw. -/
opaque Config.freeBusyRead : Nat → Word

/-- What a result register holds after ABORT (60_exceptions.md R233), by register offset and draw. -/
opaque Config.freeEndedReg : Nat → Nat → Word

/-- What an OBUF byte holds after a running command was ended by ABORT or SRST (R233, 70_reset_and_hazards.md R252), by draw
and index. -/
opaque Config.freeEndedByte : Nat → Nat → Byte

end Sys2Proof
end

