-- ==== Sys2Proof/Syntax.lean ====
section
/-! DEFINITION. The commands of spec/opcode_table.json and the host's bus transactions (30_encoding.md R92, R94, R97). -/

namespace Sys2Proof

/-- The nine commands of 30_encoding.md R94. A command word has no operand field (R92), so no constructor has an argument. -/
inductive Instr where
  | nop
  | b32enc
  | b32dec
  | tstep
  | bdelay
  | trunc
  | hotp
  | totp
  | verify
  deriving DecidableEq, Repr

/-- What the engine runs: a command, or a word that decodes as Illegal (30_encoding.md R95), kept for ERRINFO (R114). -/
inductive Op where
  | command (i : Instr)
  | illegal (w : Word)
  deriving DecidableEq, Repr

/-- The width of a host access: 1, 2 or 4 bytes (20_memory.md R63, R64). -/
inductive Width where
  | byte
  | half
  | word
  deriving DecidableEq, Repr

/-- One host bus transaction (30_encoding.md R97): a read or a write of a width at an address, a write with its data. -/
inductive Access where
  | read (addr : Nat) (w : Width)
  | write (addr : Nat) (w : Width) (data : Word)
  deriving DecidableEq, Repr

/-- The three regions of the host window (20_memory.md R61). -/
inductive Region where
  | regs
  | ibuf
  | obuf
  deriving DecidableEq, Repr

/-- The registers of 10_state.md R58, in the order of their offsets. -/
inductive Reg where
  | id | ctrl | status | cmd | errinfo | ilen | olen | digits | interval | fwd | bwd | keyh
  | ctrLo | ctrHi | tovrLo | tovrHi | rtimeLo | rtimeHi | rctrLo | rctrHi | rtrunc | rmod | rdlyLo | rdlyHi
  deriving DecidableEq, Repr

end Sys2Proof
end

