-- ==== Sys2Proof/WellFormed.lean ====
section
/-! DEFINITION. Well-formedness of the terms a machine is built from. -/

namespace Sys2Proof

/-- A command word has no register, immediate or mode field (30_encoding.md R92), so every command is well formed. -/
def Instr.wellFormed : Instr → Bool
  | .nop | .b32enc | .b32dec | .tstep | .bdelay | .trunc | .hotp | .totp | .verify => true

/-- The message on the HMAC port is 8 bytes long (20_memory.md R68, 60_exceptions.md R221). -/
def HmacRequest.wellFormed (q : HmacRequest) : Bool := q.msg.length == 8

/-- BUF_BYTES is a multiple of 4 from 128 to 4096 (00_scope.md R9). -/
def Config.bufBytesLegal (n : Nat) : Bool := n % 4 == 0 && Nat.ble 128 n && Nat.ble n 4096

/-- BASE is aligned to 0x1000 (20_memory.md R62). -/
def Config.baseLegal (b : Nat) : Bool := b % 0x1000 == 0

/-- The parameters are among those the spec allows. -/
def Config.wellFormed (c : Config) : Bool := Config.bufBytesLegal c.bufBytes && Config.baseLegal c.base

end Sys2Proof
end

