-- ==== Sys2Proof/Decode.lean ====
section
/-! DEFINITION. The command word C32 (30_encoding.md): the decoder, total on every 32-bit word, and the encoder. -/

namespace Sys2Proof

/-- Why a word is Illegal (30_encoding.md R95, R96). -/
inductive DecodeError where
  /-- RSVD, bits 31:8, is not 0. -/
  | reservedField
  /-- RSVD is 0 and OPCODE, bits 7:0, is 0x09 to 0xFF. -/
  | reservedOpcode
  deriving DecidableEq, Repr

/-- OPCODE, bits 7:0 (R91). -/
def opcodeField (w : Word) : BitVec 8 := w.extractLsb' 0 8

/-- RSVD, bits 31:8 (R91). -/
def rsvdField (w : Word) : BitVec 24 := w.extractLsb' 8 24

/-- The opcode map of R94; none for 0x09 to 0xFF. -/
def ofOpcode : Nat → Option Instr
  | 0x00 => some .nop
  | 0x01 => some .b32enc
  | 0x02 => some .b32dec
  | 0x03 => some .tstep
  | 0x04 => some .bdelay
  | 0x05 => some .trunc
  | 0x06 => some .hotp
  | 0x07 => some .totp
  | 0x08 => some .verify
  | _ => none

/-- `Decode(w)` of R95. -/
def decode (w : Word) : Except DecodeError Instr :=
  if rsvdField w = 0 then
    match ofOpcode (opcodeField w).toNat with
    | some i => .ok i
    | none => .error .reservedOpcode
  else .error .reservedField

/-- The operation a written word starts (40_command_lifecycle.md R112, R114): its command, or the Illegal word itself. -/
def decodeOp (w : Word) : Op :=
  match decode w with
  | .ok i => .command i
  | .error _ => .illegal w

/-- The decoder on a row of the opcode table. The block's instruction is one 32-bit word written to CMD with no byte order of
its own (20_memory.md R63, R66); bits at and above `nbits` are 0. -/
def decodeTableWord (nbits w : Nat) : Option Instr :=
  if nbits ≤ 32 ∧ w < 2 ^ nbits then
    match decode (BitVec.ofNat 32 w) with
    | .ok i => some i
    | .error _ => none
  else none

/-- OPCODE of each command (R94). -/
def opcode : Instr → BitVec 8
  | .nop => 0x00
  | .b32enc => 0x01
  | .b32dec => 0x02
  | .tstep => 0x03
  | .bdelay => 0x04
  | .trunc => 0x05
  | .hotp => 0x06
  | .totp => 0x07
  | .verify => 0x08

/-- The word of a command: RSVD 0, then OPCODE (R91). -/
def encode (i : Instr) : Word := (0 : BitVec 24) ++ opcode i

end Sys2Proof
end

