-- ==== Sys2Proof/Machine/State.lean ====
section
/-! DEFINITION. The state of the OTP engine (10_state.md) as plain data, why a run can stop, and the state after power-on. -/

namespace Sys2Proof.Machine

/-- A 64-bit quantity held as two registers: LO bits 31:0, HI bits 63:32 (20_memory.md R67). -/
structure Pair where
  lo : Word
  hi : Word
  deriving DecidableEq, Repr

/-- The error of the last command, STATUS.ERRCODE (60_exceptions.md R211). The reserved codes 2 and 8 to 255 are never
written, so they have no constructor. -/
inductive ErrCode where
  | none
  | invalidCharacter
  | providerFailure
  | counterUnderflow
  | invalidOperand
  | illegalCommand
  | aborted
  deriving DecidableEq, Repr

/-- The engine's phase (10_state.md R56). -/
inductive Phase where
  | idle
  | running (op : Op)
  | waiting (op : Op)
  deriving DecidableEq, Repr

/-- One step of one agent (10_state.md R21): the host makes one bus access; the engine takes its next step; the collaborator
answers the request with this number (counted from 0, in the order of the HMAC port); the block is powered on. -/
inductive Event where
  | host (a : Access)
  | engine
  | answer (k : Nat)
  | powerOn
  deriving DecidableEq, Repr

/-- A buffer: the bytes written since power-on, as (index, byte) with the indices strictly rising. -/
abbrev Memory := List Host.Cell

/-- Why the machine stops with a fault. -/
inductive Fault where
  /-- Raised by a host access at an address outside the window of 0x3000 bytes, which is not part of the block
  (20_memory.md R62). Safe: nothing is claimed of what the platform does there. -/
  | outsideWindow
  deriving DecidableEq, Repr

/-- Why the machine refuses to go on. -/
inductive Refusal where
  /-- Raised by an arm of exec that has no meaning yet. Safe. No arm of this model does. -/
  | notModelled (mnemonic : String)
  /-- Raised by a host access of a width or alignment that its region does not admit (20_memory.md R63 to R65: "not
  admitted: the model gives it no meaning and treats it as a fault of the host program (refused)"). Safe. -/
  | unadmittedAccess
  deriving DecidableEq, Repr

/-- The state. STATUS.BUSY, IRQ, ID and CMD have no field: BUSY is `phase ≠ idle` (R56), IRQ is DONE and IRQEN (R230), ID is a
constant (R23) and CMD has no storage (R35). -/
structure State where
  /-- The parameters of this machine; no step changes them. -/
  cfg : Config
  /-- CTRL.IRQEN (R27). -/
  irqen : Bool
  /-- CTRL.CLKSEL (R28). -/
  clksel : Bool
  /-- STATUS.DONE (R31). -/
  done : Bool
  /-- STATUS.OVR (R32). -/
  ovr : Bool
  /-- STATUS.MATCH (R33). -/
  matched : Bool
  /-- STATUS.ERRCODE (R34). -/
  errcode : ErrCode
  /-- ERRINFO (R36). -/
  errinfo : Word
  /-- ILEN (R37). -/
  ilen : Word
  /-- OLEN (R38). -/
  olen : Word
  /-- DIGITS (R39). -/
  digits : Word
  /-- INTERVAL (R40). -/
  interval : Word
  /-- FWD (R41). -/
  fwd : Word
  /-- BWD (R42). -/
  bwd : Word
  /-- KEYH (R43). -/
  keyh : Word
  /-- CTR_LO and CTR_HI (R44). -/
  ctr : Pair
  /-- TOVR_LO and TOVR_HI (R45). -/
  tovr : Pair
  /-- RTIME_LO and RTIME_HI (R46). -/
  rtime : Pair
  /-- RCTR_LO and RCTR_HI (R47). -/
  rctr : Pair
  /-- RTRUNC, 31 bits; bit 31 reads 0 (R48). -/
  rtrunc : BitVec 31
  /-- RMOD (R49). -/
  rmod : Word
  /-- RDLY_LO and RDLY_HI (R50). -/
  rdly : Pair
  /-- IBUF (R52). -/
  ibuf : Memory
  /-- OBUF (R53). -/
  obuf : Memory
  /-- The engine's phase (R56). -/
  phase : Phase
  /-- The outstanding request on the HMAC port (R56, R221). -/
  pending : Option HmacRequest
  /-- The answer the engine continues with: `r` of R221, from its arrival to the engine's next step. -/
  resp : Option HmacResponse
  /-- CLKSEL latched at the command's start (R56, R112). -/
  clk : Bool
  /-- The time sample of the running command (R56, R151). -/
  t : DWord
  /-- VERIFY: the first counter of the window (R56, R196). -/
  start : Nat
  /-- VERIFY: the number of counters of the window (R56, R197). -/
  n : Nat
  /-- VERIFY: the window index (R56, R57). -/
  i : Nat
  /-- VERIFY: the accumulator (R56, R199). -/
  hit : Bool
  /-- The model's own: which agent moves next, and with what; the first entry moves first. -/
  schedule : List Event
  /-- The model's own: the value the last host read returned. -/
  rdata : Word
  /-- The model's own: the requests the HMAC port has seen, newest first. -/
  portLog : List HmacRequest
  /-- The model's own: how many free values have been drawn. -/
  draws : Nat
  /-- The model's own: how many times the block was powered on before. -/
  epoch : Nat
  deriving DecidableEq, Repr

/-- Right after power-on (70_reset_and_hazards.md R251, R253; 10_state.md R58). The buffers list nothing: every byte is
unspecified. `clk`, `t`, `start`, `n`, `i` and `hit` have no value (R253): DESIGN CHOICE, 0 (notes/assumptions/3.md). The
model's own fields: DESIGN CHOICE, empty or 0 (notes/assumptions/4.md). -/
def State.reset : State where
  cfg := Config.default
  irqen := false
  clksel := false
  done := false
  ovr := false
  matched := false
  errcode := .none
  errinfo := 0
  ilen := 0
  olen := 0
  digits := 6
  interval := 30
  fwd := 1
  bwd := 1
  keyh := 0
  ctr := ⟨0, 0⟩
  tovr := ⟨0, 0⟩
  rtime := ⟨0, 0⟩
  rctr := ⟨0, 0⟩
  rtrunc := 0
  rmod := 0
  rdly := ⟨0, 0⟩
  ibuf := []
  obuf := []
  phase := .idle
  pending := none
  resp := none
  clk := false
  t := 0
  start := 0
  n := 0
  i := 0
  hit := false
  schedule := []
  rdata := 0
  portLog := []
  draws := 0
  epoch := 0

end Sys2Proof.Machine
end

