-- ==== Sys2Proof/Machine/Flags.lean ====
section
/-! DEFINITION. The status and control words and their flags (10_state.md R24 to R34, 60_exceptions.md R211, R230). -/

namespace Sys2Proof.Machine

/-- BUSY = 1 exactly when the phase is not Idle (R30, R56). -/
def State.busy (s : State) : Bool :=
  match s.phase with
  | .idle => false
  | .running _ | .waiting _ => true

/-- The interrupt output, a level: DONE and IRQEN (R230). -/
def State.irq (s : State) : Bool := s.done && s.irqen

/-- The code of an error (R211). -/
def ErrCode.code : ErrCode → BitVec 8
  | .none => 0
  | .invalidCharacter => 1
  | .providerFailure => 3
  | .counterUnderflow => 4
  | .invalidOperand => 5
  | .illegalCommand => 6
  | .aborted => 7

/-- One bit of a word at its place. -/
def bitAt (b : Bool) (k : Nat) : Word := (BitVec.ofBool b).setWidth 32 <<< k

/-- What a read of CTRL returns (R24): `IRQEN << 2 | CLKSEL << 3`. -/
def State.ctrlWord (s : State) : Word := bitAt s.irqen 2 ||| bitAt s.clksel 3

/-- What a read of STATUS returns (R29): BUSY 0, DONE 1, OVR 2, MATCH 3, ERRCODE 15:8, the other bits 0. -/
def State.statusWord (s : State) : Word :=
  bitAt s.busy 0 ||| bitAt s.done 1 ||| bitAt s.ovr 2 ||| bitAt s.matched 3 ||| (s.errcode.code.setWidth 32 <<< 8)

/-- A host write to STATUS (R29, R31, R32): DONE and OVR are each cleared where the written bit is 1; nothing else changes.
Clearing DONE is the host's side of the return from an error (60_exceptions.md R218). -/
def writeStatus (v : Word) (s : State) : State :=
  { s with done := s.done && !v.getLsbD 1, ovr := s.ovr && !v.getLsbD 2 }

/-- A host write was discarded because the block is busy: OVR is set (R32, R54, 40_command_lifecycle.md R113). -/
def setOvr (s : State) : State := { s with ovr := true }

end Sys2Proof.Machine
end

