-- ==== Sys2Proof/Machine/Operands.lean ====
section
/-! DEFINITION. The operand forms (30_encoding.md R92, R93): whole registers, register pairs, the bytes of a buffer; the byte
strings of 00_scope.md R16 and R18; the operand checks of 40_command_lifecycle.md R115. -/

namespace Sys2Proof.Machine

/-! ### Register pairs -/

/-- `x[NAME_HI] << 32 | x[NAME_LO]` (00_scope.md R17). -/
def Pair.val (p : Pair) : Nat := p.hi.toNat <<< 32 ||| p.lo.toNat

/-- Writing v: `v[31:0]` to LO and `v[63:32]` to HI (00_scope.md R17). -/
def Pair.ofNat (v : Nat) : Pair := { lo := BitVec.ofNat 32 v, hi := BitVec.ofNat 32 (v >>> 32) }

/-! ### Buffers as lists of written bytes -/

/-- The byte written at an index, if any was. -/
def Memory.read : Memory → Nat → Option Byte
  | [], _ => none
  | (b, v) :: m, a => if a = b then some v else Memory.read m a

/-- Write one byte; the indices stay strictly rising. -/
def Memory.write : Memory → Nat → Byte → Memory
  | [], a, v => [(a, v)]
  | (b, w) :: m, a, v =>
    if a < b then (a, v) :: (b, w) :: m
    else if a = b then (a, v) :: m
    else (b, w) :: Memory.write m a v

/-- Write a byte string, its first byte at index `a`. -/
def Memory.writeList : Memory → Nat → List Byte → Memory
  | m, _, [] => m
  | m, a, v :: vs => Memory.writeList (Memory.write m a v) (a + 1) vs

/-- The indices are strictly rising, at least `lo` and below `cap`. -/
def Memory.wfFrom (cap : Nat) : Nat → Memory → Bool
  | _, [] => true
  | lo, (a, _) :: m => Nat.ble lo a && Nat.blt a cap && Memory.wfFrom cap (a + 1) m

/-- The canonical form of a buffer of `cap` bytes. An index that is not listed reads as no value of the list's, so no entry can
equal it. -/
def Memory.wf (cap : Nat) (m : Memory) : Bool := Memory.wfFrom cap 0 m

/-- What a byte of the window that nothing has written since power-on reads as: the unspecified power-on contents (R52, R53),
a free value that stays the same until the next power-on. DESIGN CHOICE (notes/assumptions/6.md). -/
def State.unwritten (s : State) (offset : Nat) : Byte := Config.freePowerOnByte s.epoch offset

/-- `IBUF[k]` (R52). -/
def State.ibufByte (s : State) (k : Nat) : Byte := (s.ibuf.read k).getD (s.unwritten (0x1000 + k))

/-- `OBUF[k]` (R53). -/
def State.obufByte (s : State) (k : Nat) : Byte := (s.obuf.read k).getD (s.unwritten (0x2000 + k))

/-- `IBUF[0..x[ILEN])`, the byte-string operand (R93). -/
def State.input (s : State) : List Byte := (List.range s.ilen.toNat).map s.ibufByte

/-- `OBUF[k] <- out[k]` for k = 0 to len(out)-1. -/
def writeObuf (out : List Byte) (s : State) : State := { s with obuf := s.obuf.writeList 0 out }

/-! ### Byte strings -/

/-- `BE8(c)` (00_scope.md R16): 8 bytes, most significant first. -/
def be8 (c : Nat) : List Byte :=
  (List.range 8).map fun k => BitVec.ofNat 8 ((c >>> (8 * (7 - k))) &&& 0xFF)

/-- `BEU32(s)` of a 4-byte string (00_scope.md R16). -/
def beu32 (s : List Byte) : Nat :=
  (s.getD 0 0).toNat * 2 ^ 24 + (s.getD 1 0).toNat * 2 ^ 16 + (s.getD 2 0).toNat * 2 ^ 8 + (s.getD 3 0).toNat

/-- `DecStr(v, w)` (00_scope.md R18): w ASCII decimal digits, most significant first. -/
def decStr (v w : Nat) : List Byte :=
  (List.range w).map fun k => BitVec.ofNat 8 (0x30 + (v / 10 ^ (w - 1 - k)) % 10)

/-! ### Time operands -/

/-- `interval_ms` (42_counter.md R152). -/
def State.intervalMs (s : State) : Nat := s.interval.toNat * 1000

/-! ### Operand checks -/

/-- The lengths of a digest the block admits (43_hotp.md R167, 40_command_lifecycle.md R115). -/
def digestLength (n : Nat) : Bool := n == 20 || n == 32 || n == 64

/-- `x[ILEN] <= BUF_BYTES`. -/
def ilenFits (s : State) : Bool := Nat.ble s.ilen.toNat s.cfg.bufBytes

/-- `1 <= x[DIGITS] <= 10`. -/
def digitsLegal (s : State) : Bool := Nat.ble 1 s.digits.toNat && Nat.ble s.digits.toNat 10

/-- `x[INTERVAL] ≠ 0`. -/
def intervalLegal (s : State) : Bool := s.interval.toNat != 0

/-- The checks of a command in order, each with the register offset it reports (R115). -/
def operandChecks (i : Instr) (s : State) : List (Bool × Word) :=
  match i with
  | .nop => []
  | .b32enc => [(ilenFits s, 0x014), (Nat.ble ((8 * s.ilen.toNat + 4) / 5) s.cfg.bufBytes, 0x014)]
  | .b32dec => [(ilenFits s, 0x014)]
  | .tstep => [(intervalLegal s, 0x020)]
  | .bdelay => [(intervalLegal s, 0x020)]
  | .trunc => [(digestLength s.ilen.toNat, 0x014), (digitsLegal s, 0x01C)]
  | .hotp => [(digitsLegal s, 0x01C)]
  | .totp => [(digitsLegal s, 0x01C), (intervalLegal s, 0x020)]
  | .verify => [(ilenFits s, 0x014), (digitsLegal s, 0x01C), (intervalLegal s, 0x020)]

/-- The offset of the first check that fails. -/
def firstFailed : List (Bool × Word) → Option Word
  | [] => none
  | (ok, off) :: cs => if ok then firstFailed cs else some off

end Sys2Proof.Machine
end

