-- ==== Sys2Proof/Machine/Ops.lean ====
section
/-! DEFINITION. The shared operations: a command's start, its successful and its error completion (40_command_lifecycle.md), the
time sample, the HMAC port, abort and the two resets (60_exceptions.md, 70_reset_and_hazards.md). -/

namespace Sys2Proof.Machine

/-! ### Start and completion -/

/-- The accepted CMD write (40_command_lifecycle.md R112). BUSY becomes 1 with the phase; OVR is not changed. -/
def accept (w : Word) (s : State) : State :=
  { s with
    phase := .running (decodeOp w), clk := s.clksel, done := false, matched := false, errcode := .none, errinfo := 0 }

/-- `done`, the successful completion (R116). BUSY becomes 0 with the phase. -/
def complete (s : State) : State := { s with phase := .idle, done := true, errcode := .none }

/-- `raise E(info)`, the error completion (R117): the block's one way of taking an error. There is no vector, no saved state and
no mode (60_exceptions.md R217); the host returns from it by `writeStatus` or by the next command (R218). -/
def raise (e : ErrCode) (info : Word) (s : State) : State :=
  { s with
    errcode := e, errinfo := info, olen := 0, matched := false, phase := .idle, done := true, pending := none }

/-- A command whose operand checks come first (R115): the first failed check raises InvalidOperand, else the body runs. -/
def withChecks (i : Instr) (body : State → State) (s : State) : State :=
  match firstFailed (operandChecks i s) with
  | some off => raise .invalidOperand off s
  | none => body s

/-! ### Time -/

/-- `SampleTime()` (42_counter.md R151): the injected time or a draw from the time input, by the latched CLKSEL.
The draw's number: DESIGN CHOICE (notes/assumptions/12.md). -/
def sampleValue (s : State) : DWord :=
  if s.clk then BitVec.ofNat 64 s.tovr.val else Config.freeNowMs s.draws

/-- Take the command's one time sample, `x[RTIME] <- t`. -/
def takeSample (s : State) : State :=
  { s with
    t := sampleValue s, rtime := Pair.ofNat (sampleValue s).toNat, draws := if s.clk then s.draws else s.draws + 1 }

/-! ### The HMAC port -/

/-- The parameter `Hmac` (00_scope.md R10): the environment's value where it states one, else the free function.
DESIGN CHOICE (notes/assumptions/10.md). -/
def hmacOf (c : Config) (q : HmacRequest) : HmacResponse :=
  match c.hmacKnown.find? (fun e => e.1 == q) with
  | some e => e.2
  | none => Config.freeHmac q.key q.msg

/-- Issue a request (60_exceptions.md R221): the key handle unchanged and `BE8(c)` (43_hotp.md R166). -/
def request (i : Instr) (c : Nat) (s : State) : State :=
  { s with
    pending := some ⟨s.keyh, be8 c⟩, phase := .waiting (.command i), portLog := ⟨s.keyh, be8 c⟩ :: s.portLog }

/-- The collaborator answers the request with number k (R221). The answer to a request that is not the outstanding one is
discarded (R234). DEDUCED (notes/assumptions/13.md), DESIGN CHOICE (notes/assumptions/14.md). -/
def deliver (k : Nat) (s : State) : State :=
  match s.pending, s.phase with
  | some q, .waiting op =>
    if k + 1 = s.portLog.length then
      { s with pending := none, phase := .running op, resp := some (hmacOf s.cfg q) }
    else s
  | _, _ => s

/-- `CheckDigest(r)` (43_hotp.md R167): the admitted digest, or the ERRINFO of ProviderFailure. -/
def checkDigest : HmacResponse → Except Word (List Byte)
  | .fail st => .error (st.setWidth 32)
  | .ok d =>
    if digestLength d.length then .ok d
    else .error (BitVec.ofNat 32 (0x80000000 ||| min d.length 0x7FFFFFFF))

/-- Continue with the answer r: ProviderFailure, or the rest of the command with the admitted digest. -/
def withAnswer (r : HmacResponse) (rest : List Byte → State → State) (s : State) : State :=
  match checkDigest r with
  | .error info => raise .providerFailure info { s with resp := none }
  | .ok d => rest d { s with resp := none }

/-- A command with one suspension: its first part where no answer has come, else its continuation with the answer. -/
def suspended (first : State → State) (rest : List Byte → State → State) (s : State) : State :=
  match s.resp with
  | none => first s
  | some r => withAnswer r rest s

/-! ### Ending a command from outside -/

/-- How many bytes of OBUF the command's rule could write, from index 0 (30_encoding.md R92). A code has at most 10 bytes (R115),
a base32 output at most BUF_BYTES. DEDUCED (notes/assumptions/8.md). -/
def couldWrite (op : Op) (s : State) : Nat :=
  match op with
  | .command .b32enc => min ((8 * s.ilen.toNat + 4) / 5) s.cfg.bufBytes
  | .command .b32dec => min (5 * s.ilen.toNat / 8) s.cfg.bufBytes
  | .command .tstep => 8
  | .command .trunc | .command .hotp | .command .totp => min s.digits.toNat 10
  | .command .nop | .command .bdelay | .command .verify | .illegal _ => 0

/-- The OBUF bytes the ended command could write hold any value (60_exceptions.md R233, 70_reset_and_hazards.md R252). -/
def looseObuf (op : Op) (s : State) : State :=
  writeObuf ((List.range (couldWrite op s)).map (Config.freeEndedByte s.draws)) s

/-- A result register the ended command could write holds any value (R233); another keeps its value. -/
def loosePair (could : Bool) (offset draw : Nat) (p : Pair) : Pair :=
  if could then ⟨Config.freeEndedReg offset draw, Config.freeEndedReg (offset + 4) draw⟩ else p

/-- The commands that write RTIME, RCTR, RDLY, and RTRUNC with RMOD (30_encoding.md R92). -/
def writesRtime : Op → Bool
  | .command .tstep | .command .bdelay | .command .totp | .command .verify => true
  | .command .nop | .command .b32enc | .command .b32dec | .command .trunc | .command .hotp | .illegal _ => false

/-- See `writesRtime`. -/
def writesRctr : Op → Bool
  | .command .tstep | .command .hotp | .command .totp | .command .verify => true
  | .command .nop | .command .b32enc | .command .b32dec | .command .bdelay | .command .trunc | .illegal _ => false

/-- See `writesRtime`. -/
def writesRdly : Op → Bool
  | .command .bdelay | .command .totp => true
  | .command .nop | .command .b32enc | .command .b32dec | .command .tstep | .command .trunc | .command .hotp
  | .command .verify | .illegal _ => false

/-- See `writesRtime`. -/
def writesCode : Op → Bool
  | .command .trunc | .command .hotp | .command .totp => true
  | .command .nop | .command .b32enc | .command .b32dec | .command .tstep | .command .bdelay | .command .verify
  | .illegal _ => false

/-- The result registers the ended command could write hold any value (R233). RTRUNC keeps its 31 bits (R48): DEDUCED
(notes/assumptions/9.md). -/
def looseRegs (op : Op) (s : State) : State :=
  { s with
    rtime := loosePair (writesRtime op) 0x040 s.draws s.rtime
    rctr := loosePair (writesRctr op) 0x048 s.draws s.rctr
    rtrunc := if writesCode op then (Config.freeEndedReg 0x050 s.draws).setWidth 31 else s.rtrunc
    rmod := if writesCode op then Config.freeEndedReg 0x054 s.draws else s.rmod
    rdly := loosePair (writesRdly op) 0x058 s.draws s.rdly }

/-- The command in the engine, if there is one. -/
def State.current (s : State) : Option Op :=
  match s.phase with
  | .idle => none
  | .running op | .waiting op => some op

/-- The end of the running command by ABORT (60_exceptions.md R233). -/
def endAborted (op : Op) (s : State) : State :=
  { looseRegs op (looseObuf op s) with
    pending := none, resp := none, olen := 0, matched := false, errcode := .aborted, errinfo := 0,
    done := true, phase := .idle, draws := s.draws + 1 }

/-- CTRL.ABORT = 1 (10_state.md R26): it ends the running command; while not busy it does nothing. -/
def abort (s : State) : State :=
  match s.current with
  | none => s
  | some op => endAborted op s

/-- Every register at its reset value, the engine Idle with no request (70_reset_and_hazards.md R251, R253). The buffers, the
parameters and the model's own fields stay. -/
def resetRegs (s : State) : State :=
  { State.reset with
    cfg := s.cfg, ibuf := s.ibuf, obuf := s.obuf, schedule := s.schedule, rdata := s.rdata, portLog := s.portLog,
    draws := s.draws, epoch := s.epoch }

/-- CTRL.SRST = 1 (70_reset_and_hazards.md R252): IBUF stays, OBUF stays but for the bytes a running command could write. -/
def softReset (s : State) : State :=
  match s.current with
  | none => resetRegs s
  | some op => resetRegs { looseObuf op s with draws := s.draws + 1 }

/-- Power-on (R251): every register at its reset value, every buffer byte unspecified anew. DESIGN CHOICE
(notes/assumptions/18.md): a step of its own, which discards late answers. -/
def powerOn (s : State) : State := { resetRegs s with ibuf := [], obuf := [], epoch := s.epoch + 1 }

/-- The word w as an accepted command of an engine that runs nothing else: what a loader of one command does. -/
def placeCommand (w : Word) (s : State) : State := accept w { s with pending := none, resp := none }

end Sys2Proof.Machine
end

