-- ==== Sys2Proof/Machine/Bus.lean ====
section
/-! DEFINITION. The host's bus accesses (20_memory.md): the address map, the admitted widths, the registers and the buffers. -/

namespace Sys2Proof.Machine

/-! ### The address map -/

/-- The number of bytes of an access. -/
def bytesOf : Width → Nat
  | .byte => 1
  | .half => 2
  | .word => 4

/-- The address of an access. -/
def addrOf : Access → Nat
  | .read a _ => a
  | .write a _ _ => a

/-- The width of an access. -/
def widthOf : Access → Width
  | .read _ w => w
  | .write _ w _ => w

/-- The region of an address and the offset in it (R61); none outside the window of 0x3000 bytes (R62). -/
def locate (c : Config) (addr : Nat) : Option (Region × Nat) :=
  if addr < c.base then none
  else if addr - c.base < 0x1000 then some (.regs, addr - c.base)
  else if addr - c.base < 0x2000 then some (.ibuf, addr - c.base - 0x1000)
  else if addr - c.base < 0x3000 then some (.obuf, addr - c.base - 0x2000)
  else none

/-- The admitted accesses: aligned words in the register window (R63), naturally aligned bytes, halves and words in the buffer
windows (R64, R65). -/
def admitted (r : Region) (off : Nat) (w : Width) : Bool :=
  match r with
  | .regs => w == .word && off % 4 == 0
  | .ibuf | .obuf => off % bytesOf w == 0

/-- The register at an offset of the register window; none at a reserved offset (10_state.md R51, R58). -/
def regAt : Nat → Option Reg
  | 0x000 => some .id
  | 0x004 => some .ctrl
  | 0x008 => some .status
  | 0x00C => some .cmd
  | 0x010 => some .errinfo
  | 0x014 => some .ilen
  | 0x018 => some .olen
  | 0x01C => some .digits
  | 0x020 => some .interval
  | 0x024 => some .fwd
  | 0x028 => some .bwd
  | 0x02C => some .keyh
  | 0x030 => some .ctrLo
  | 0x034 => some .ctrHi
  | 0x038 => some .tovrLo
  | 0x03C => some .tovrHi
  | 0x040 => some .rtimeLo
  | 0x044 => some .rtimeHi
  | 0x048 => some .rctrLo
  | 0x04C => some .rctrHi
  | 0x050 => some .rtrunc
  | 0x054 => some .rmod
  | 0x058 => some .rdlyLo
  | 0x05C => some .rdlyHi
  | _ => none

/-! ### Byte order -/

/-- The bus value of a byte string, little-endian (R66). -/
def leValue : List Byte → Nat
  | [] => 0
  | b :: bs => b.toNat + 256 * leValue bs

/-- The first n bytes of a bus word, little-endian (R66). -/
def leBytes (n : Nat) (v : Word) : List Byte :=
  (List.range n).map fun j => (v >>> (8 * j)).setWidth 8

/-! ### Registers -/

/-- The stored value of a register, and what CMD and ID read as (R23, R35). -/
def regValue (r : Reg) (s : State) : Word :=
  match r with
  | .id => 0x544F5450
  | .ctrl => s.ctrlWord
  | .status => s.statusWord
  | .cmd => 0
  | .errinfo => s.errinfo
  | .ilen => s.ilen
  | .olen => s.olen
  | .digits => s.digits
  | .interval => s.interval
  | .fwd => s.fwd
  | .bwd => s.bwd
  | .keyh => s.keyh
  | .ctrLo => s.ctr.lo
  | .ctrHi => s.ctr.hi
  | .tovrLo => s.tovr.lo
  | .tovrHi => s.tovr.hi
  | .rtimeLo => s.rtime.lo
  | .rtimeHi => s.rtime.hi
  | .rctrLo => s.rctr.lo
  | .rctrHi => s.rctr.hi
  | .rtrunc => s.rtrunc.setWidth 32
  | .rmod => s.rmod
  | .rdlyLo => s.rdly.lo
  | .rdlyHi => s.rdly.hi

/-- The registers whose read while busy is unspecified: OLEN, the results and ERRINFO (10_state.md R55). -/
def volatileReg : Reg → Bool
  | .errinfo | .olen | .rtimeLo | .rtimeHi | .rctrLo | .rctrHi | .rtrunc | .rmod | .rdlyLo | .rdlyHi => true
  | .id | .ctrl | .status | .cmd | .ilen | .digits | .interval | .fwd | .bwd | .keyh | .ctrLo | .ctrHi
  | .tovrLo | .tovrHi => false

/-- A host read returns this value. A narrow read leaves the higher bits 0: DESIGN CHOICE (notes/assumptions/16.md). -/
def reply (v : Word) (s : State) : State := { s with rdata := v }

/-- A host read returns any value of n bytes (10_state.md R55); the next such read draws anew. -/
def replyAny (n : Nat) (s : State) : State :=
  { s with rdata := BitVec.ofNat 32 ((Config.freeBusyRead s.draws).toNat % 2 ^ (8 * n)), draws := s.draws + 1 }

/-- A host read of a register (10_state.md R55, R58). -/
def readReg (r : Reg) (s : State) : State :=
  if s.busy && volatileReg r then replyAny 4 s else reply (regValue r s) s

/-- A write to an operand register that is not discarded; the other registers are not written here. -/
def setOperand (r : Reg) (v : Word) (s : State) : State :=
  match r with
  | .ilen => { s with ilen := v }
  | .digits => { s with digits := v }
  | .interval => { s with interval := v }
  | .fwd => { s with fwd := v }
  | .bwd => { s with bwd := v }
  | .keyh => { s with keyh := v }
  | .ctrLo => { s with ctr := { s.ctr with lo := v } }
  | .ctrHi => { s with ctr := { s.ctr with hi := v } }
  | .tovrLo => { s with tovr := { s.tovr with lo := v } }
  | .tovrHi => { s with tovr := { s.tovr with hi := v } }
  | .id | .ctrl | .status | .cmd | .errinfo | .olen | .rtimeLo | .rtimeHi | .rctrLo | .rctrHi | .rtrunc | .rmod
  | .rdlyLo | .rdlyHi => s

/-- A host write to CTRL (10_state.md R24 to R28): SRST alone, or else ABORT, IRQEN and CLKSEL. Never discarded. -/
def writeCtrl (v : Word) (s : State) : State :=
  if v.getLsbD 0 then softReset s
  else
    let s' := if v.getLsbD 1 then abort s else s
    { s' with irqen := v.getLsbD 2, clksel := v.getLsbD 3 }

/-- A host write to CMD: accepted when not busy (40_command_lifecycle.md R112), else discarded (R113). -/
def writeCmd (w : Word) (s : State) : State := if s.busy then setOvr s else accept w s

/-- A host write to a register. Operand registers are frozen while busy (10_state.md R54); read-only ones ignore it (R55). -/
def writeReg (r : Reg) (v : Word) (s : State) : State :=
  match r with
  | .ctrl => writeCtrl v s
  | .status => writeStatus v s
  | .cmd => writeCmd v s
  | .ilen | .digits | .interval | .fwd | .bwd | .keyh | .ctrLo | .ctrHi | .tovrLo | .tovrHi =>
    if s.busy then setOvr s else setOperand r v s
  | .id | .errinfo | .olen | .rtimeLo | .rtimeHi | .rctrLo | .rctrHi | .rtrunc | .rmod | .rdlyLo | .rdlyHi => s

/-! ### Buffers -/

/-- A byte of the IBUF window: 0 at and beyond BUF_BYTES (R64). -/
def ibufWindowByte (s : State) (k : Nat) : Byte := if k < s.cfg.bufBytes then s.ibufByte k else 0

/-- A byte of the OBUF window: 0 at and beyond BUF_BYTES (R65). -/
def obufWindowByte (s : State) (k : Nat) : Byte := if k < s.cfg.bufBytes then s.obufByte k else 0

/-- A host read of n bytes of the IBUF window (R64, R66). -/
def readIbuf (off n : Nat) (s : State) : State :=
  reply (BitVec.ofNat 32 (leValue ((List.range n).map fun j => ibufWindowByte s (off + j)))) s

/-- A host read of n bytes of the OBUF window (R65, R66): any value while busy, 0 beyond BUF_BYTES, DEDUCED
(notes/assumptions/7.md) while busy. -/
def readObuf (off n : Nat) (s : State) : State :=
  if s.busy && Nat.blt off s.cfg.bufBytes then replyAny n s
  else reply (BitVec.ofNat 32 (leValue ((List.range n).map fun j => obufWindowByte s (off + j)))) s

/-- A host write of n bytes to the IBUF window (R64, R66): discarded with OVR while busy (10_state.md R54); bytes at and beyond
BUF_BYTES ignore it, DEDUCED (notes/assumptions/7.md) while busy and without OVR. -/
def writeIbuf (off n : Nat) (v : Word) (s : State) : State :=
  if Nat.ble s.cfg.bufBytes off then s
  else if s.busy then setOvr s
  else { s with ibuf := s.ibuf.writeList off (leBytes n v) }

/-! ### One access -/

/-- A host read of n bytes at an admitted place. -/
def performRead (r : Region) (off n : Nat) (s : State) : State :=
  match r with
  | .regs =>
    match regAt off with
    | some r => readReg r s
    | none => reply 0 s
  | .ibuf => readIbuf off n s
  | .obuf => readObuf off n s

/-- A host write of n bytes at an admitted place. Reserved offsets and the OBUF window ignore it (10_state.md R51, R55). -/
def performWrite (r : Region) (off n : Nat) (v : Word) (s : State) : State :=
  match r with
  | .regs =>
    match regAt off with
    | some r => writeReg r v s
    | none => s
  | .ibuf => writeIbuf off n v s
  | .obuf => s

/-- One admitted host access, atomic (R70). -/
def perform (a : Access) (r : Region) (off : Nat) (s : State) : State :=
  match a with
  | .read _ w => performRead r off (bytesOf w) s
  | .write _ w v => performWrite r off (bytesOf w) v s

/-- One host access: a fault outside the window (R62), a refusal where it is not admitted (R63 to R65).
DESIGN CHOICE (notes/assumptions/15.md). -/
def hostAccess (a : Access) (s : State) : Host.Outcome State Fault Refusal :=
  match locate s.cfg (addrOf a) with
  | none => .fault .outsideWindow
  | some (r, off) => if admitted r off (widthOf a) then .next (perform a r off s) else .refused .unadmittedAccess

end Sys2Proof.Machine
end

