-- ==== Sys2Proof/Machine/Base32.lean ====
section
/-! DEFINITION. The base32 codec: B32ENC and B32DEC (41_base32.md). -/

namespace Sys2Proof.Machine

/-- `ALPH[v]` (R131): "A" to "Z", then "2" to "7". -/
def alph (v : Nat) : Byte := BitVec.ofNat 8 (if v ≤ 25 then 0x41 + v else 0x32 + (v - 26))

/-- `Val(c)` (R132). -/
def val (c : Byte) : Option Nat :=
  if 0x41 ≤ c.toNat ∧ c.toNat ≤ 0x5A then some (c.toNat - 0x41)
  else if 0x32 ≤ c.toNat ∧ c.toNat ≤ 0x37 then some (c.toNat - 0x32 + 26)
  else none

/-- The inner loop of R133: while at least 5 unread bits are left, the next symbol. It answers the symbols and the number of
bits left; `fuel` bounds the turns. -/
def drain : Nat → Nat → Nat → List Byte × Nat
  | 0, _, nb => ([], nb)
  | fuel + 1, acc, nb =>
    if 5 ≤ nb then
      (alph ((acc >>> (nb - 5)) &&& 0x1F) :: (drain fuel acc (nb - 5)).1, (drain fuel acc (nb - 5)).2)
    else ([], nb)

/-- The outer loop of R133, with `nb` unread bits in `acc`, and the final partial group. -/
def encodeFrom : Nat → Nat → List Byte → List Byte
  | acc, nb, [] => if 0 < nb then [alph ((acc <<< (5 - nb)) &&& 0x1F)] else []
  | acc, nb, b :: bs =>
    let acc' := (acc <<< 8) ||| b.toNat
    let r := drain (nb + 8) acc' (nb + 8)
    r.1 ++ encodeFrom (acc' &&& ((1 <<< r.2) - 1)) r.2 bs

/-- `encode(bytes)` (R133). -/
def base32Encode (bs : List Byte) : List Byte := encodeFrom 0 0 bs

/-- The first byte without a value, with its index counted from k (R136). -/
def firstInvalid : Nat → List Byte → Option (Nat × Byte)
  | _, [] => none
  | k, c :: cs =>
    match val c with
    | none => some (k, c)
    | some _ => firstInvalid (k + 1) cs

/-- The decoding loop of R136, with `nb` unread bits in `acc`; the bits left at the end are dropped. -/
def decodeFrom : Nat → Nat → List Byte → List Byte
  | _, _, [] => []
  | acc, nb, c :: cs =>
    let acc' := (acc <<< 5) ||| (val c).getD 0
    if 8 ≤ nb + 5 then
      BitVec.ofNat 8 ((acc' >>> (nb + 5 - 8)) &&& 0xFF) ::
        decodeFrom (acc' &&& ((1 <<< (nb + 5 - 8)) - 1)) (nb + 5 - 8) cs
    else decodeFrom (acc' &&& ((1 <<< (nb + 5)) - 1)) (nb + 5) cs

/-- `decode(text)` of a text whose characters all have a value (R136). -/
def base32Decode (cs : List Byte) : List Byte := decodeFrom 0 0 cs

/-- Leave a byte string in OBUF with OLEN its length, and end. -/
def finishWith (out : List Byte) (s : State) : State :=
  complete { writeObuf out s with olen := BitVec.ofNat 32 out.length }

/-- The body of B32ENC (R133). -/
def b32encBody (s : State) : State := finishWith (base32Encode s.input) s

/-- The body of B32DEC (R136): the whole text is checked before any output. -/
def b32decBody (s : State) : State :=
  match firstInvalid 0 s.input with
  | some (k, c) => raise .invalidCharacter (BitVec.ofNat 32 ((k <<< 8) ||| c.toNat)) s
  | none => finishWith (base32Decode s.input) s

/-- B32ENC (R133). -/
def execB32enc (s : State) : Host.Outcome State Fault Refusal := .next (withChecks .b32enc b32encBody s)

/-- B32DEC (R136). -/
def execB32dec (s : State) : Host.Outcome State Fault Refusal := .next (withChecks .b32dec b32decBody s)

end Sys2Proof.Machine
end

