-- ==== Sys2Proof/Machine/Lifecycle.lean ====
section
/-! DEFINITION. NOP (40_command_lifecycle.md). -/

namespace Sys2Proof.Machine

/-- NOP (R118): the successful completion and nothing else. -/
def execNop (s : State) : Host.Outcome State Fault Refusal := .next (complete s)

end Sys2Proof.Machine
end

