-- ==== Sys2Proof/Machine/Counter.lean ====
section
/-! DEFINITION. The time-step counter derivator: TSTEP and BDELAY (42_counter.md). -/

namespace Sys2Proof.Machine

/-- `t div interval_ms` of the command's sample (R153). -/
def State.timeStep (s : State) : Nat := s.t.toNat / s.intervalMs

/-- `interval_ms - (t mod interval_ms)` of the command's sample (R156). -/
def State.boundaryDelay (s : State) : Nat := s.intervalMs - s.t.toNat % s.intervalMs

/-- TSTEP after its time sample (R153). -/
def tstepRest (s : State) : State :=
  complete { writeObuf (be8 s.timeStep) s with rctr := Pair.ofNat s.timeStep, olen := 8 }

/-- BDELAY after its time sample (R156). -/
def bdelayRest (s : State) : State := complete { s with rdly := Pair.ofNat s.boundaryDelay }

/-- TSTEP (R153). -/
def execTstep (s : State) : Host.Outcome State Fault Refusal :=
  .next (withChecks .tstep (fun s => tstepRest (takeSample s)) s)

/-- BDELAY (R156). -/
def execBdelay (s : State) : Host.Outcome State Fault Refusal :=
  .next (withChecks .bdelay (fun s => bdelayRest (takeSample s)) s)

end Sys2Proof.Machine
end

