-- ==== Sys2Proof/Machine/Hotp.lean ====
section
/-! DEFINITION. Dynamic truncation and decimal formatting: TRUNC and HOTP (43_hotp.md). -/

namespace Sys2Proof.Machine

/-- `DynTrunc(d)` (R168): the offset is the low nibble of the LAST byte; the four bytes there, big-endian, without the top
bit. -/
def dynTrunc (d : List Byte) : Nat :=
  let off := (d.getLastD 0).toNat &&& 0x0F
  beu32 ((d.drop off).take 4) &&& 0x7FFFFFFF

/-- The code text of a truncated value with w digits: `DecStr(n mod 10^w, w)` (R169, R171). -/
def codeText (n w : Nat) : List Byte := decStr (n % 10 ^ w) w

/-- `EmitCode(n)` (R169). -/
def emitCode (n : Nat) (s : State) : State :=
  { writeObuf (codeText n s.digits.toNat) s with
    rtrunc := BitVec.ofNat 31 n, rmod := BitVec.ofNat 32 (n % 10 ^ s.digits.toNat), olen := s.digits }

/-- The body of TRUNC (R170). -/
def truncBody (s : State) : State := complete (emitCode (dynTrunc s.input) s)

/-- TRUNC (R170). -/
def execTrunc (s : State) : Host.Outcome State Fault Refusal := .next (withChecks .trunc truncBody s)

/-- HOTP up to its request (R172). -/
def hotpFirst (s : State) : State := request .hotp s.ctr.val { s with rctr := s.ctr }

/-- HOTP with the admitted digest (R172). -/
def hotpRest (d : List Byte) (s : State) : State := complete (emitCode (dynTrunc d) s)

/-- HOTP (R172). -/
def execHotp (s : State) : Host.Outcome State Fault Refusal :=
  .next (suspended (withChecks .hotp hotpFirst) hotpRest s)

end Sys2Proof.Machine
end

