-- ==== Sys2Proof/Machine/Totp.lean ====
section
/-! DEFINITION. The time-based code: TOTP (44_totp.md). -/

namespace Sys2Proof.Machine

/-- TOTP after its time sample, up to its request (R186). -/
def totpFirst (s : State) : State := request .totp s.timeStep { s with rctr := Pair.ofNat s.timeStep }

/-- TOTP with the admitted digest (R186): the code, then the boundary delay of the same sample. -/
def totpRest (d : List Byte) (s : State) : State :=
  complete { emitCode (dynTrunc d) s with rdly := Pair.ofNat s.boundaryDelay }

/-- TOTP (R186). -/
def execTotp (s : State) : Host.Outcome State Fault Refusal :=
  .next (suspended (withChecks .totp (fun s => totpFirst (takeSample s))) totpRest s)

end Sys2Proof.Machine
end

