-- ==== Sys2Proof/Machine/Verify.lean ====
section
/-! DEFINITION. The sliding-window verification sequencer: VERIFY (45_verify.md). -/

namespace Sys2Proof.Machine

/-- VERIFY after its time sample, with the base counter in RCTR (R196): CounterUnderflow (R198), or the window and the request
of its first counter. -/
def verifyWindow (s : State) : State :=
  if s.timeStep < s.bwd.toNat then raise .counterUnderflow 0 s
  else
    request .verify (s.timeStep - s.bwd.toNat)
      { s with start := s.timeStep - s.bwd.toNat, n := s.fwd.toNat + s.bwd.toNat + 1, i := 0, hit := false }

/-- VERIFY up to its first request (R196). -/
def verifyFirst (s : State) : State :=
  let s := takeSample s
  verifyWindow { s with rctr := Pair.ofNat s.timeStep }

/-- VERIFY after the comparison of one code (R196, R199): the next counter's request, or the end with MATCH (R200). -/
def verifyNext (s : State) : State :=
  if s.i + 1 < s.n then request .verify (s.start + (s.i + 1)) { s with i := s.i + 1 }
  else complete { s with matched := s.hit }

/-- VERIFY with the admitted digest of counter `start + i` (R196, R201). -/
def verifyRest (d : List Byte) (s : State) : State :=
  verifyNext { s with hit := s.hit || codeText (dynTrunc d) s.digits.toNat == s.input }

/-- VERIFY (R196). -/
def execVerify (s : State) : Host.Outcome State Fault Refusal :=
  .next (suspended (withChecks .verify verifyFirst) verifyRest s)

end Sys2Proof.Machine
end

