-- ==== Sys2Proof/Machine/Dispatch.lean ====
section
/-! DEFINITION. One arm per command. -/

namespace Sys2Proof.Machine

/-- One engine step of a command: from its start, or from the answer of its request, to its end or its next request. -/
def exec (i : Instr) (s : State) : Host.Outcome State Fault Refusal :=
  match i with
  | .nop => Sys2Proof.Machine.execNop s
  | .b32enc => Sys2Proof.Machine.execB32enc s
  | .b32dec => Sys2Proof.Machine.execB32dec s
  | .tstep => Sys2Proof.Machine.execTstep s
  | .bdelay => Sys2Proof.Machine.execBdelay s
  | .trunc => Sys2Proof.Machine.execTrunc s
  | .hotp => Sys2Proof.Machine.execHotp s
  | .totp => Sys2Proof.Machine.execTotp s
  | .verify => Sys2Proof.Machine.execVerify s

end Sys2Proof.Machine
end

