-- ==== Sys2Proof/Machine/Engine.lean ====
section
/-! DEFINITION. One move of one agent: the host, the engine, the collaborator, power-on (10_state.md R21). -/

namespace Sys2Proof.Machine

/-- The engine's step: it does nothing while Idle or Waiting; Running, it ends an Illegal word (40_command_lifecycle.md R114) or
runs its command. -/
def engineTurn (s : State) : Host.Outcome State Fault Refusal :=
  match s.phase with
  | .idle => .next s
  | .waiting _ => .next s
  | .running (.illegal w) => .next (raise .illegalCommand w s)
  | .running (.command i) => exec i s

/-- One agent's move. -/
def turn (e : Event) (s : State) : Host.Outcome State Fault Refusal :=
  match e with
  | .host a => hostAccess a s
  | .engine => engineTurn s
  | .answer k => .next (deliver k s)
  | .powerOn => .next (powerOn s)

end Sys2Proof.Machine
end

