-- ==== Sys2Proof/Machine/Step.lean ====
section
/-! DEFINITION. One step: the next agent of the schedule moves (10_state.md R21, 20_memory.md R73). -/

namespace Sys2Proof.Machine

/-- The first agent of the schedule moves; where none is scheduled, the engine does (70_reset_and_hazards.md R254).
DESIGN CHOICE (notes/assumptions/1.md): the schedule is data, and an engine step runs up to the end or the next request. -/
def step (s : State) : Host.Outcome State Fault Refusal :=
  match s.schedule with
  | [] => engineTurn s
  | e :: rest => turn e { s with schedule := rest }

/-- s with the command word w accepted and the engine to move next (DESIGN CHOICE, notes/assumptions/5.md). Bits of w at and above `nbits`
are 0. -/
def State.withFetchWord (s : State) (nbits w : Nat) : State :=
  { placeCommand (BitVec.ofNat 32 (w % 2 ^ nbits)) s with schedule := .engine :: s.schedule }

end Sys2Proof.Machine
end

