-- ==== Sys2Proof/Safety.lean ====
section
/-! DEFINITION. The terms in which claims about the machine are made: what a run keeps, what a command leaves, the closed forms
of the spec's rules, and the invariant `Inv`. Nothing here is part of a step. -/

namespace Sys2Proof.Machine

/-! ### What is kept -/

/-- Every operand register keeps its value (10_state.md R37 to R45). -/
def SameOperands (s t : State) : Prop :=
  t.ilen = s.ilen ∧ t.digits = s.digits ∧ t.interval = s.interval ∧ t.fwd = s.fwd ∧ t.bwd = s.bwd ∧
  t.keyh = s.keyh ∧ t.ctr = s.ctr ∧ t.tovr = s.tovr

/-- CTRL and STATUS.OVR keep their bits. -/
def SameControl (s t : State) : Prop := t.irqen = s.irqen ∧ t.clksel = s.clksel ∧ t.ovr = s.ovr

/-- Every byte of IBUF reads as before. -/
def SameIbuf (s t : State) : Prop := ∀ k, t.ibufByte k = s.ibufByte k

/-- Every byte of OBUF at and beyond index `len` reads as before. -/
def SameObufFrom (len : Nat) (s t : State) : Prop := ∀ k, len ≤ k → t.obufByte k = s.obufByte k

/-- What no command touches: the parameters, the schedule, the last read value, the power-on count, the latched clock. -/
def SameRest (s t : State) : Prop :=
  t.cfg = s.cfg ∧ t.schedule = s.schedule ∧ t.rdata = s.rdata ∧ t.epoch = s.epoch ∧ t.clk = s.clk

/-! ### How a command ends -/

/-- The end by `done` (40_command_lifecycle.md R116), MATCH and ERRINFO apart. -/
def EndedOk (t : State) : Prop := t.phase = .idle ∧ t.done = true ∧ t.errcode = .none

/-- The end by `raise E(info)` (R117), seen from outside. -/
def EndedError (e : ErrCode) (info : Word) (t : State) : Prop :=
  t.phase = .idle ∧ t.pending = none ∧ t.done = true ∧ t.errcode = e ∧ t.errinfo = info ∧ t.olen = 0 ∧
  t.matched = false

/-- The commands that issue requests on the HMAC port (R119). -/
def asks : Op → Bool
  | .command .hotp | .command .totp | .command .verify => true
  | .command .nop | .command .b32enc | .command .b32dec | .command .tstep | .command .bdelay | .command .trunc
  | .illegal _ => false

/-- The engine is about to take the first step of a command. -/
def AtStart (i : Instr) (s : State) : Prop := s.phase = .running (.command i) ∧ s.resp = none ∧ s.pending = none

/-! ### The spec's closed forms -/

/-- The command's time sample (42_counter.md R151), as a number. -/
def State.sample (s : State) : Nat := if s.clk then s.tovr.val else (Config.freeNowMs s.draws).toNat

/-- `floor(unix_time_ms / (interval_s * 1000))` of the command's time sample (R153). -/
def State.sampleStep (s : State) : Nat := s.sample / (s.interval.toNat * 1000)

/-- Stream bit p of a byte string extended with zeros: bit 7 - (p mod 8) of byte p div 8 (41_base32.md R131). -/
def streamBit (bs : List Byte) (p : Nat) : Bool := (bs.getD (p / 8) 0).getLsbD (7 - p % 8)

/-- Bit p of the 5-bit values of a text, most significant bit of each first (R137). -/
def textBit (cs : List Byte) (p : Nat) : Bool := ((val (cs.getD (p / 5) 0)).getD 0).testBit (4 - p % 5)

/-- The value of the bits p to p + len - 1, most significant first. -/
def bitsValue (bit : Nat → Bool) (p : Nat) : Nat → Nat
  | 0 => 0
  | len + 1 => 2 * bitsValue bit p len + (bit (p + len)).toNat

/-- The dynamic truncation of R168 in numbers: four bytes from the low nibble of the last byte on, modulo 2^31. -/
def truncated (d : List Byte) : Nat :=
  let off := (d.getD (d.length - 1) 0).toNat % 16
  ((d.getD off 0).toNat * 2 ^ 24 + (d.getD (off + 1) 0).toNat * 2 ^ 16 + (d.getD (off + 2) 0).toNat * 2 ^ 8 +
    (d.getD (off + 3) 0).toNat) % 2 ^ 31

/-- Character k of the w-digit decimal text of v (00_scope.md R18). -/
def digitByte (v w k : Nat) : Byte := BitVec.ofNat 8 (0x30 + v / 10 ^ (w - 1 - k) % 10)

/-- The code of a digest with w digits, as a byte string (43_hotp.md R169). -/
def codeOf (d : List Byte) (w : Nat) : List Byte := (List.range w).map (digitByte (truncated d % 10 ^ w) w)

/-- Byte k of `BE8(c)` (00_scope.md R16). -/
def be8Byte (c k : Nat) : Byte := BitVec.ofNat 8 (c / 2 ^ (8 * (7 - k)))

/-- The request for counter c (43_hotp.md R166). -/
def requestFor (s : State) (c : Nat) : HmacRequest := ⟨s.keyh, (List.range 8).map (be8Byte c)⟩

/-- What a command that produces a code leaves of digest d (R169): RTRUNC, RMOD, OBUF and OLEN. -/
def LeavesCode (d : List Byte) (s t : State) : Prop :=
  t.rtrunc.toNat = truncated d ∧ t.rmod.toNat = truncated d % 10 ^ s.digits.toNat ∧ t.olen = s.digits ∧
  ∀ k, k < s.digits.toNat → t.obufByte k = digitByte (truncated d % 10 ^ s.digits.toNat) s.digits.toNat k

/-! ### The invariant -/

/-- The counter of the request a command has outstanding, or whose answer it continues with. -/
def flightCounter (i : Instr) (s : State) : Nat :=
  match i with
  | .hotp => s.ctr.val
  | .totp => s.timeStep
  | .verify => s.start + s.i
  | .nop | .b32enc | .b32dec | .tstep | .bdelay | .trunc => 0

/-- A command is between its first request and its end. -/
def InFlight (i : Instr) (s : State) : Prop :=
  s.phase = .waiting (.command i) ∨ (s.phase = .running (.command i) ∧ s.resp ≠ none)

/-- The states the spec's rules lead to. -/
structure Inv (s : State) : Prop where
  /-- The parameters are legal (00_scope.md R9, 20_memory.md R62). -/
  cfg : s.cfg.wellFormed = true
  /-- IBUF is in canonical form and within BUF_BYTES. -/
  ibuf : Memory.wf s.cfg.bufBytes s.ibuf = true
  /-- OBUF is in canonical form and within BUF_BYTES. -/
  obuf : Memory.wf s.cfg.bufBytes s.obuf = true
  /-- Idle, there is no request and no answer (10_state.md R56). -/
  idle : s.phase = .idle → s.pending = none ∧ s.resp = none
  /-- Running, no request is outstanding; only a command that asks has an answer. -/
  running : ∀ op, s.phase = .running op → s.pending = none ∧ (s.resp ≠ none → asks op = true)
  /-- Waiting, exactly the last request is outstanding (60_exceptions.md R221, R222). -/
  waiting : ∀ op, s.phase = .waiting op →
    ∃ i, op = .command i ∧ asks op = true ∧ s.resp = none ∧ s.pending = some (requestFor s (flightCounter i s)) ∧
      s.portLog.head? = s.pending
  /-- While busy, DONE, MATCH, ERRCODE and ERRINFO are 0 (40_command_lifecycle.md R112). -/
  clean : s.busy = true → s.done = false ∧ s.matched = false ∧ s.errcode = .none ∧ s.errinfo = 0
  /-- ERRINFO is 0 when ERRCODE is 0 (10_state.md R36). -/
  noError : s.errcode = .none → s.errinfo = 0
  /-- After an error or abort MATCH and OLEN are 0 (R33, R38). -/
  afterError : s.errcode ≠ .none → s.matched = false ∧ s.olen = 0
  /-- An Illegal word in the engine does not decode. -/
  illegal : ∀ w, s.phase = .running (.illegal w) → ∃ e, decode w = .error e
  /-- The operands of a command in flight passed their checks (R115), and stay so. -/
  checked : ∀ i, InFlight i s → firstFailed (operandChecks i s) = none
  /-- The time step of a command in flight is in RCTR (44_totp.md R186, 45_verify.md R196). -/
  counted : InFlight .totp s ∨ InFlight .verify s → s.rtime.val = s.t.toNat ∧ s.rctr.val = s.timeStep
  /-- The window of a VERIFY in flight (R197, 10_state.md R56). -/
  window : InFlight .verify s →
    s.bwd.toNat ≤ s.timeStep ∧ s.start + s.bwd.toNat = s.timeStep ∧ s.n = s.fwd.toNat + s.bwd.toNat + 1 ∧ s.i < s.n

end Sys2Proof.Machine
end

