-- ==== Sys2Proof/Certificates/Slice0/Obligations.lean ====
section
/-! DEFINITION. The statements for the provers. A next state of `step` or `exec` is written out from the spec's rules. Where a
statement speaks of a free value (a time draw, a read while busy, a byte never written), it holds for every value of it. The
schedule, in which the agents move, is the model's own (notes/assumptions/1.md). -/

open Sys2Proof Sys2Proof.Machine

/-! ### Encoding -/

/-- 30_encoding.md R94 and section 3: words written out bit by bit, and words that are Illegal. -/
def Obligations.WrittenWordsDecode : Prop :=
  decode 0b00000000000000000000000000000000#32 = .ok .nop ∧
  decode 0b00000000000000000000000000000001#32 = .ok .b32enc ∧
  decode 0b00000000000000000000000000000010#32 = .ok .b32dec ∧
  decode 0b00000000000000000000000000000011#32 = .ok .tstep ∧
  decode 0b00000000000000000000000000000100#32 = .ok .bdelay ∧
  decode 0b00000000000000000000000000000101#32 = .ok .trunc ∧
  decode 0b00000000000000000000000000000110#32 = .ok .hotp ∧
  decode 0b00000000000000000000000000000111#32 = .ok .totp ∧
  decode 0b00000000000000000000000000001000#32 = .ok .verify ∧
  decode 0b00000000000000000000000000001001#32 = .error .reservedOpcode ∧
  decode 0b00000000000000000000000011111111#32 = .error .reservedOpcode ∧
  decode 0b00000000000000000000000100000000#32 = .error .reservedField

/-- Every command is well formed, decoding its word gives it back, and of all 2^32 words it has exactly that one
(30_encoding.md section 2). -/
def Obligations.EveryCommandHasExactlyOneWord : Prop :=
  ∀ i : Instr, i.wellFormed = true ∧ decode (encode i) = .ok i ∧ ∀ w : Word, decode w = .ok i → w = encode i

/-- 30_encoding.md R95: which words are Illegal, which command the others are, and how an Illegal word ends. -/
def Obligations.DecodingIsTotal : Prop :=
  ∀ w : Word,
    (w.toNat / 2 ^ 8 ≠ 0 ∨ 9 ≤ w.toNat % 2 ^ 8 →
      decodeOp w = .illegal w ∧
      ∀ s : State, s.busy = false →
        ∃ t, engineTurn (accept w s) = .next t ∧ EndedError .illegalCommand w t) ∧
    (w.toNat / 2 ^ 8 = 0 ∧ w.toNat % 2 ^ 8 < 9 →
      ∃ i, decodeOp w = .command i ∧ (opcode i).toNat = w.toNat % 2 ^ 8)

/-! ### The step and a command's start -/

/-- The engine's step of a running command is exec of that command; a placed command word is run by the very
next step. The schedule and the placing are the model's choice (notes/assumptions/1.md, 5.md). -/
def Obligations.StepRunsTheDecodedCommand : Prop :=
  ∀ (s : State) (i : Instr),
    (s.phase = .running (.command i) →
      (s.schedule = [] → step s = exec i s) ∧
      (∀ rest, s.schedule = .engine :: rest → step s = exec i { s with schedule := rest })) ∧
    (∀ w : Word, decode w = .ok i →
      step (s.withFetchWord 32 w.toNat) =
        exec i { s with
          phase := .running (.command i), pending := none, resp := none, clk := s.clksel, done := false,
          matched := false, errcode := .none, errinfo := 0 })

/-- 40_command_lifecycle.md section 1: a CMD write when not busy is accepted in one step; OVR and every other part of the state
stay, BUSY rises and IRQ falls. -/
def Obligations.CmdWriteWhenIdleStartsTheCommand : Prop :=
  ∀ (s : State) (w : Word) (rest : List Event), s.busy = false →
    s.schedule = .host (.write (s.cfg.base + 0x00C) .word w) :: rest →
    ∃ t, step s = .next t ∧ t.busy = true ∧ t.irq = false ∧
      t = { s with
        schedule := rest, phase := .running (decodeOp w), clk := s.clksel, done := false, matched := false,
        errcode := .none, errinfo := 0 }

/-- 40_command_lifecycle.md R113. -/
def Obligations.CmdWriteWhileBusyIsDiscarded : Prop :=
  ∀ (s : State) (w : Word) (rest : List Event), s.busy = true →
    s.schedule = .host (.write (s.cfg.base + 0x00C) .word w) :: rest →
    step s = .next { s with schedule := rest, ovr := true }

/-- 40_command_lifecycle.md R114: the whole word in ERRINFO; no operand matters, no sample is drawn, no request is issued. -/
def Obligations.IllegalWordEndsAtOnce : Prop :=
  ∀ (s : State) (w : Word),
    ((∃ e, decode w = .error e) → decodeOp w = .illegal w) ∧
    (s.phase = .running (.illegal w) → ∀ rest, s.schedule = [] ∧ rest = [] ∨ s.schedule = .engine :: rest →
      step s = .next { s with
        schedule := rest, errcode := .illegalCommand, errinfo := w, olen := 0, matched := false, phase := .idle,
        done := true, pending := none })

/-- A command's engine step ends it or leaves it waiting on one new request; only HOTP, TOTP and VERIFY ever wait
(40_command_lifecycle.md section 3, 60_exceptions.md section 5). That one step goes that far is the model's choice
(notes/assumptions/1.md): the spec says only that finitely many steps do. -/
def Obligations.EveryEngineStepEndsOrAsksOnce : Prop :=
  ∀ (i : Instr) (s : State), ∃ t, exec i s = .next t ∧
    ((t.phase = .idle ∧ t.done = true ∧ t.portLog = s.portLog) ∨
     (asks (.command i) = true ∧ t.phase = .waiting (.command i) ∧ t.done = s.done ∧
      ∃ q, t.pending = some q ∧ t.portLog = q :: s.portLog ∧ q.wellFormed = true ∧ q.key = s.keyh))

/-! ### Operand checks and errors -/

/-- The table of 40_command_lifecycle.md R115: the register offset of the first check that fails. -/
def checkReported (i : Instr) (s : State) : Option Word :=
  let ilen := s.ilen.toNat
  let ilenBad := s.cfg.bufBytes < ilen
  let digitsBad := s.digits.toNat = 0 ∨ 10 < s.digits.toNat
  match i with
  | .nop => none
  | .b32enc => if ilenBad ∨ s.cfg.bufBytes < (8 * ilen + 5 - 1) / 5 then some 0x014 else none
  | .b32dec => if ilenBad then some 0x014 else none
  | .tstep | .bdelay => if s.interval = 0 then some 0x020 else none
  | .trunc => if ilen ≠ 20 ∧ ilen ≠ 32 ∧ ilen ≠ 64 then some 0x014 else if digitsBad then some 0x01C else none
  | .hotp => if digitsBad then some 0x01C else none
  | .totp => if digitsBad then some 0x01C else if s.interval = 0 then some 0x020 else none
  | .verify =>
    if ilenBad then some 0x014 else if digitsBad then some 0x01C else if s.interval = 0 then some 0x020 else none

/-- 40_command_lifecycle.md R115: at a command's first engine step the first failed check ends it with InvalidOperand and nothing
else happens; where no check fails the command does not end so. -/
def Obligations.OperandChecksComeFirstInOrder : Prop :=
  (∀ (i : Instr) (s : State), s.resp = none →
    (∀ off, checkReported i s = some off →
      exec i s = .next { s with
        errcode := .invalidOperand, errinfo := off, olen := 0, matched := false, phase := .idle, done := true,
        pending := none }) ∧
    (checkReported i s = none → s.errcode = .none → ∀ t, exec i s = .next t → t.errcode ≠ .invalidOperand)) ∧
  (∀ L : Nat, (5 * L + 8 - 1) / 8 ≤ L)

/-- The error completion (40_command_lifecycle.md section 3): no OBUF byte, code or delay is written, OLEN and MATCH are 0. -/
def Obligations.FailedCommandLeavesNoResult : Prop :=
  ∀ (i : Instr) (s t : State), s.errcode = .none → exec i s = .next t → t.errcode ≠ .none →
    EndedError t.errcode t.errinfo t ∧ t.obuf = s.obuf ∧ t.rtrunc = s.rtrunc ∧ t.rmod = s.rmod ∧ t.rdly = s.rdly ∧
    (t.rtime = s.rtime ∨ (i = .verify ∧ s.resp = none ∧ t.rtime.val = s.sample)) ∧
    (t.rctr = s.rctr ∨ (i = .verify ∧ s.resp = none ∧ t.rctr.val = s.sampleStep))

/-- 43_hotp.md R167: `CheckDigest`, in each of the three commands that ask. -/
def Obligations.BadAnswersEndInProviderFailure : Prop :=
  ∀ (i : Instr) (s : State) (r : HmacResponse), asks (.command i) = true → s.resp = some r → s.errcode = .none →
    ∃ t, exec i s = .next t ∧
      match r with
      | .fail st => EndedError .providerFailure (BitVec.ofNat 32 st.toNat) t
      | .ok d =>
        if d.length = 20 ∨ d.length = 32 ∨ d.length = 64 then checkDigest r = .ok d ∧ t.errcode = .none
        else EndedError .providerFailure (BitVec.ofNat 32 (0x80000000 + min d.length 0x7FFFFFFF)) t

/-! ### Results of the commands -/

/-- 40_command_lifecycle.md section 4: NOP completes and changes nothing else. -/
def Obligations.NopOnlyCompletes : Prop :=
  ∀ s : State, exec .nop s = .next { s with phase := .idle, done := true, errcode := .none }

/-- 41_base32.md R134, in every state in which the operand checks pass. -/
def Obligations.B32encLeavesTheEncoding : Prop :=
  ∀ s : State, s.ilen.toNat ≤ s.cfg.bufBytes → (8 * s.ilen.toNat + 4) / 5 ≤ s.cfg.bufBytes →
    s.cfg.wellFormed = true →
    ∃ t, exec .b32enc s = .next t ∧ EndedOk t ∧ t.olen.toNat = (8 * s.ilen.toNat + 4) / 5 ∧
      ∀ j, j < t.olen.toNat → t.obufByte j = alph (bitsValue (streamBit s.input) (5 * j) 5)

/-- 41_base32.md R137, where every character has a value. -/
def Obligations.B32decLeavesTheDecoding : Prop :=
  ∀ s : State, s.ilen.toNat ≤ s.cfg.bufBytes → s.cfg.wellFormed = true →
    (∀ c, c ∈ s.input → val c ≠ none) →
    ∃ t, exec .b32dec s = .next t ∧ EndedOk t ∧ t.olen.toNat = 5 * s.ilen.toNat / 8 ∧
      ∀ k, k < t.olen.toNat →
        t.obufByte k = BitVec.ofNat 8 (bitsValue (textBit s.input) (8 * k) 8)

/-- B32DEC of a text with an invalid character reports the first one and its index, and writes no output
(41_base32.md section 2). -/
def Obligations.B32decReportsTheFirstInvalidCharacter : Prop :=
  ∀ (s : State) (k : Nat) (c : Byte), s.ilen.toNat ≤ s.cfg.bufBytes → s.cfg.wellFormed = true →
    k < s.ilen.toNat → c = s.ibufByte k → val c = none → (∀ j, j < k → val (s.ibufByte j) ≠ none) →
    ∃ t, exec .b32dec s = .next t ∧ EndedError .invalidCharacter t.errinfo t ∧
      t.errinfo.toNat = k * 2 ^ 8 + c.toNat ∧ t.obuf = s.obuf

/-- 41_base32.md R140: the host copies the text that B32ENC left in OBUF to IBUF, sets ILEN to OLEN and runs B32DEC. -/
def Obligations.DecodeOfEncodeGivesTheBytesBack : Prop :=
  ∀ s t u : State, s.ilen.toNat ≤ s.cfg.bufBytes → (8 * s.ilen.toNat + 4) / 5 ≤ s.cfg.bufBytes →
    s.cfg.wellFormed = true → exec .b32enc s = .next t → u.cfg = s.cfg → u.ilen = t.olen →
    (∀ k, k < t.olen.toNat → u.ibufByte k = t.obufByte k) →
    ∃ v, exec .b32dec u = .next v ∧ EndedOk v ∧ v.olen = s.ilen ∧
      ∀ k, k < s.ilen.toNat → v.obufByte k = s.ibufByte k

/-- TSTEP (42_counter.md section 2): the sample, its step and the step's 8 big-endian bytes; the step is at most
(2^64 - 1) div 1000, so it fits. The bound 2^54 that R154 gives beside this one is not true of it (notes/assumptions/11.md). -/
def Obligations.TstepLeavesTheTimeStep : Prop :=
  ∀ s : State, s.interval ≠ 0 →
    ∃ t, exec .tstep s = .next t ∧ EndedOk t ∧ t.rtime.val = s.sample ∧ t.rctr.val = s.sampleStep ∧
      s.sampleStep ≤ (2 ^ 64 - 1) / 1000 ∧ t.olen = 8 ∧ ∀ k, k < 8 → t.obufByte k = be8Byte s.sampleStep k

/-- 42_counter.md R151: TSTEP, BDELAY, TOTP and VERIFY take exactly one sample, at the step that passes their operand checks, from
TOVR or the time input by the latched clock; no other engine step takes one. A draw of the time input is a free value
(notes/assumptions/12.md). -/
def Obligations.EachTimeCommandTakesOneSample : Prop :=
  ∀ (i : Instr) (s t : State), exec i s = .next t →
    if (i = .tstep ∨ i = .bdelay ∨ ((i = .totp ∨ i = .verify) ∧ s.resp = none)) ∧ checkReported i s = none then
      t.rtime.val = (if s.clk then s.tovr.val else (Config.freeNowMs s.draws).toNat) ∧
      t.draws = (if s.clk then s.draws else s.draws + 1)
    else t.rtime = s.rtime ∧ t.draws = s.draws

/-- 42_counter.md R155: two TSTEP commands with the same interval. -/
def Obligations.StepsFollowTheSamples : Prop :=
  ∀ s s' t t' : State, s.interval ≠ 0 → s'.interval = s.interval → s.sample ≤ s'.sample →
    exec .tstep s = .next t → exec .tstep s' = .next t' → t.rctr.val ≤ t'.rctr.val

/-- 42_counter.md R157: the delay is in 1 to interval_ms, and the sample plus the delay is the least multiple of interval_ms
above the sample, the start of the next step. -/
def Obligations.BdelayLeavesTheBoundaryDelay : Prop :=
  ∀ s : State, s.interval ≠ 0 →
    ∃ t, exec .bdelay s = .next t ∧ EndedOk t ∧ t.rtime.val = s.sample ∧
      1 ≤ t.rdly.val ∧ t.rdly.val ≤ s.interval.toNat * 1000 ∧ s.interval.toNat * 1000 < 2 ^ 42 ∧
      s.sample + t.rdly.val = (s.sampleStep + 1) * (s.interval.toNat * 1000) ∧
      ∀ m, s.sample < m * (s.interval.toNat * 1000) → s.sample + t.rdly.val ≤ m * (s.interval.toNat * 1000)

/-- TRUNC of the digest in IBUF (43_hotp.md section 2). -/
def Obligations.TruncLeavesTheCodeOfTheDigest : Prop :=
  ∀ s : State, s.ilen.toNat = 20 ∨ s.ilen.toNat = 32 ∨ s.ilen.toNat = 64 →
    1 ≤ s.digits.toNat → s.digits.toNat ≤ 10 →
    ∃ t, exec .trunc s = .next t ∧ EndedOk t ∧ LeavesCode s.input s t ∧ t.rctr = s.rctr ∧ t.rtime = s.rtime

/-- HOTP up to its request (43_hotp.md section 2): RCTR is written, the request carries KEYH and the counter, nothing else
changes. -/
def Obligations.HotpAsksForItsCounter : Prop :=
  ∀ s : State, s.resp = none → 1 ≤ s.digits.toNat → s.digits.toNat ≤ 10 →
    exec .hotp s = .next { s with
      rctr := s.ctr, pending := some (requestFor s s.ctr.val), phase := .waiting (.command .hotp),
      portLog := requestFor s s.ctr.val :: s.portLog }

/-- HOTP with its answer: the code, and the end. -/
def Obligations.HotpLeavesTheCodeOfTheAnswer : Prop :=
  ∀ (s : State) (d : List Byte), s.resp = some (.ok d) → d.length = 20 ∨ d.length = 32 ∨ d.length = 64 →
    ∃ t, exec .hotp s = .next t ∧ EndedOk t ∧ LeavesCode d s t ∧ t.resp = none ∧ t.rctr = s.rctr ∧
      t.rtime = s.rtime ∧ t.rdly = s.rdly

/-- TOTP up to its request (44_totp.md). -/
def Obligations.TotpAsksForItsTimeStep : Prop :=
  ∀ s : State, s.resp = none → 1 ≤ s.digits.toNat → s.digits.toNat ≤ 10 → s.interval ≠ 0 →
    ∃ t, exec .totp s = .next t ∧ t.phase = .waiting (.command .totp) ∧ t.rtime.val = s.sample ∧
      t.t.toNat = s.sample ∧ t.rctr.val = s.sampleStep ∧ t.pending = some (requestFor s s.sampleStep) ∧
      t.portLog = requestFor s s.sampleStep :: s.portLog ∧ t.rdly = s.rdly

/-- TOTP with its answer: the code, the boundary delay of the same sample, and the end. -/
def Obligations.TotpLeavesTheCodeAndTheDelay : Prop :=
  ∀ (s : State) (d : List Byte), s.resp = some (.ok d) → d.length = 20 ∨ d.length = 32 ∨ d.length = 64 →
    s.interval ≠ 0 →
    ∃ t, exec .totp s = .next t ∧ EndedOk t ∧ LeavesCode d s t ∧ t.resp = none ∧ t.rctr = s.rctr ∧
      t.rtime = s.rtime ∧
      t.rdly.val = s.interval.toNat * 1000 - s.t.toNat % (s.interval.toNat * 1000)

/-- VERIFY up to its first request, where the window does not underflow (45_verify.md R197): the window is base - BWD to base +
FWD, and no counter of it wraps. -/
def Obligations.VerifyOpensItsWindow : Prop :=
  ∀ s : State, s.resp = none → s.ilen.toNat ≤ s.cfg.bufBytes → 1 ≤ s.digits.toNat → s.digits.toNat ≤ 10 →
    s.interval ≠ 0 → s.bwd.toNat ≤ s.sampleStep →
    ∃ t, exec .verify s = .next t ∧ t.phase = .waiting (.command .verify) ∧ t.rtime.val = s.sample ∧
      t.rctr.val = s.sampleStep ∧ t.start + s.bwd.toNat = s.sampleStep ∧
      t.n = s.fwd.toNat + s.bwd.toNat + 1 ∧ t.n ≤ 2 ^ 33 - 1 ∧ t.i = 0 ∧ t.hit = false ∧
      t.start + t.n - 1 = s.sampleStep + s.fwd.toNat ∧ s.sampleStep + s.fwd.toNat < 2 ^ 64 ∧
      t.pending = some (requestFor s t.start) ∧ t.portLog = requestFor s t.start :: s.portLog

/-- 45_verify.md R198: the underflow ends VERIFY after the sample and before any request. -/
def Obligations.VerifyRejectsAnUnderflowingWindow : Prop :=
  ∀ s : State, s.resp = none → s.ilen.toNat ≤ s.cfg.bufBytes → 1 ≤ s.digits.toNat → s.digits.toNat ≤ 10 →
    s.interval ≠ 0 → s.sampleStep < s.bwd.toNat →
    ∃ t, exec .verify s = .next t ∧ EndedError .counterUnderflow 0 t ∧ t.rtime.val = s.sample ∧
      t.rctr.val = s.sampleStep ∧ t.portLog = s.portLog

/-- VERIFY with one answer: the code is compared whole; the next counter is asked for, or the command ends with MATCH. A match
does not stop the window (45_verify.md R196). -/
def Obligations.VerifyComparesOneCodeAndGoesOn : Prop :=
  ∀ (s : State) (d : List Byte), s.resp = some (.ok d) → d.length = 20 ∨ d.length = 32 ∨ d.length = 64 →
    ∃ t, exec .verify s = .next t ∧ t.resp = none ∧
      t.hit = (s.hit || decide (codeOf d s.digits.toNat = s.input)) ∧
      (s.i + 1 < s.n → t.phase = .waiting (.command .verify) ∧ t.i = s.i + 1 ∧ t.matched = s.matched ∧
        t.pending = some (requestFor s (s.start + s.i + 1)) ∧
        t.portLog = requestFor s (s.start + s.i + 1) :: s.portLog) ∧
      (s.n ≤ s.i + 1 → EndedOk t ∧ t.matched = t.hit ∧ t.portLog = s.portLog)

/-- 43_hotp.md R173: a code has exactly DIGITS characters, all of them digits. -/
def Obligations.CodesHaveFixedWidth : Prop :=
  ∀ (i : Instr) (s t : State), i = .trunc ∨ i = .hotp ∨ i = .totp → exec i s = .next t → EndedOk t →
    t.olen = t.digits ∧ ∀ k, k < t.olen.toNat → 0x30 ≤ (t.obufByte k).toNat ∧ (t.obufByte k).toNat ≤ 0x39

/-- 43_hotp.md R174: the ranges of RTRUNC and RMOD. -/
def Obligations.CodeRegistersStayInRange : Prop :=
  (∀ (i : Instr) (s t : State), i = .trunc ∨ i = .hotp ∨ i = .totp → exec i s = .next t → EndedOk t →
    t.rtrunc.toNat < 2 ^ 31 ∧ t.rmod.toNat < 10 ^ t.digits.toNat ∧
    (t.digits.toNat = 10 → t.rmod.toNat = t.rtrunc.toNat)) ∧
  2 ^ 31 - 1 < 10 ^ 10

/-! ### Whole commands -/

/-- The agents of one request: its answer, then the engine. -/
def answerAndGoOn (k : Nat) : List Event := [.answer k, .engine]

/-- A whole HOTP (43_hotp.md sections 1 and 2): the CMD write, the request, its answer, the code. -/
def Obligations.HotpRunsFromCmdWriteToCode : Prop :=
  ∀ (s : State) (d : List Byte), s.busy = false → s.pending = none → s.resp = none →
    s.schedule =
      .host (.write (s.cfg.base + 0x00C) .word 0x00000006) :: .engine :: answerAndGoOn s.portLog.length →
    1 ≤ s.digits.toNat → s.digits.toNat ≤ 10 →
    hmacOf s.cfg (requestFor s s.ctr.val) = .ok d → d.length = 20 ∨ d.length = 32 ∨ d.length = 64 →
    ∃ t, Host.Core.run Sys2Proof.core 4 s = .next t ∧ EndedOk t ∧ t.schedule = [] ∧ LeavesCode d s t ∧
      t.rctr.val = s.ctr.val ∧ t.portLog = requestFor s s.ctr.val :: s.portLog ∧ SameOperands s t ∧ t.ovr = s.ovr

/-- 43_hotp.md R175: two HOTP commands of one machine with the same KEYH, CTR and DIGITS that both succeed. -/
def Obligations.HotpIsDeterministic : Prop :=
  ∀ s s' t t' : State, AtStart .hotp s → AtStart .hotp s' →
    s.schedule = .engine :: answerAndGoOn s.portLog.length →
    s'.schedule = .engine :: answerAndGoOn s'.portLog.length →
    s'.cfg = s.cfg → s'.keyh = s.keyh → s'.ctr = s.ctr → s'.digits = s.digits →
    Host.Core.run Sys2Proof.core 3 s = .next t → Host.Core.run Sys2Proof.core 3 s' = .next t' →
    EndedOk t → EndedOk t' →
    t'.rtrunc = t.rtrunc ∧ t'.rmod = t.rmod ∧ t'.olen = t.olen ∧
    ∀ k, k < t.olen.toNat → t'.obufByte k = t.obufByte k

/-- 44_totp.md R187: a successful TOTP against TSTEP, BDELAY and HOTP at the same sample. -/
def Obligations.TotpIsTstepThenHotp : Prop :=
  ∀ s t : State, AtStart .totp s → s.schedule = .engine :: answerAndGoOn s.portLog.length →
    Host.Core.run Sys2Proof.core 3 s = .next t → EndedOk t →
    ∃ ts tb th, exec .tstep s = .next ts ∧ exec .bdelay s = .next tb ∧
      Host.Core.run Sys2Proof.core 3 { s with phase := .running (.command .hotp), ctr := ts.rctr } = .next th ∧
      EndedOk ts ∧ EndedOk tb ∧ EndedOk th ∧
      t.rtime = ts.rtime ∧ t.rctr = ts.rctr ∧ t.rdly = tb.rdly ∧ t.rtrunc = th.rtrunc ∧ t.rmod = th.rmod ∧
      t.olen = th.olen ∧ ∀ k, t.obufByte k = th.obufByte k

/-- 45_verify.md R199 and R200: a whole VERIFY whose requests are all answered with digests. All n requests are issued, in
ascending counter order, each after the previous answer; MATCH is whether some code of the window is the candidate. -/
def Obligations.VerifyChecksTheWholeWindow : Prop :=
  ∀ (s : State) (ds : Nat → List Byte), AtStart .verify s →
    s.ilen.toNat ≤ s.cfg.bufBytes → 1 ≤ s.digits.toNat → s.digits.toNat ≤ 10 → s.interval ≠ 0 →
    s.bwd.toNat ≤ s.sampleStep →
    (∀ j, j < s.fwd.toNat + s.bwd.toNat + 1 →
      hmacOf s.cfg (requestFor s (s.sampleStep - s.bwd.toNat + j)) = .ok (ds j) ∧
      ((ds j).length = 20 ∨ (ds j).length = 32 ∨ (ds j).length = 64)) →
    s.schedule = .engine ::
      (List.range (s.fwd.toNat + s.bwd.toNat + 1)).flatMap (fun j => answerAndGoOn (s.portLog.length + j)) →
    ∃ t, Host.Core.run Sys2Proof.core (2 * (s.fwd.toNat + s.bwd.toNat + 1) + 1) s = .next t ∧ EndedOk t ∧
      t.schedule = [] ∧
      (t.matched = true ↔
        ∃ j, j < s.fwd.toNat + s.bwd.toNat + 1 ∧ codeOf (ds j) s.digits.toNat = s.input) ∧
      t.portLog =
        ((List.range (s.fwd.toNat + s.bwd.toNat + 1)).map
          (fun j => requestFor s (s.sampleStep - s.bwd.toNat + j))).reverse ++ s.portLog ∧
      t.olen = s.olen ∧ t.obuf = s.obuf ∧ t.rtrunc = s.rtrunc ∧ t.rmod = s.rmod ∧ t.rdly = s.rdly

/-- 60_exceptions.md section 5: with no answer, any number of engine steps leaves the command waiting as it is. -/
def Obligations.UnansweredCommandsWaitForever : Prop :=
  ∀ (s : State) (op : Op) (k : Nat), s.phase = .waiting op → s.schedule = List.replicate k .engine →
    Host.Core.run Sys2Proof.core k s = .next { s with schedule := [] }

/-! ### Frames of the commands -/

/-- No command writes an operand register, CTRL, OVR, an IBUF byte or anything of the run around it; ERRINFO and MATCH change
only by an error or, for MATCH, by VERIFY. -/
def Obligations.CommandsKeepOperandsAndControl : Prop :=
  ∀ (i : Instr) (s t : State), exec i s = .next t →
    SameOperands s t ∧ SameControl s t ∧ SameIbuf s t ∧ SameRest s t ∧
    (t.errcode = .none → t.errinfo = s.errinfo ∧ (i ≠ .verify → t.matched = s.matched))

/-- The commands that store nothing: every OBUF byte reads as before; the registers outside their rows of
30_encoding.md section 1 keep their values. -/
def Obligations.NopBdelayVerifyFrame : Prop :=
  ∀ (i : Instr) (s t : State), i = .nop ∨ i = .bdelay ∨ i = .verify → s.errcode = .none → exec i s = .next t →
    SameObufFrom 0 s t ∧ t.rtrunc = s.rtrunc ∧ t.rmod = s.rmod ∧
    (t.errcode = .none → t.olen = s.olen) ∧
    (i = .nop → t.rtime = s.rtime) ∧ (i ≠ .verify → t.rctr = s.rctr) ∧ (i ≠ .bdelay → t.rdly = s.rdly)

/-- The commands that store to OBUF: the bytes stored are those from index 0 to the OLEN they leave, and none where they do not
end successfully; the registers outside their rows of 30_encoding.md section 1 keep their values. -/
def Obligations.ObufCommandsFrame : Prop :=
  ∀ (i : Instr) (s t : State),
    i = .b32enc ∨ i = .b32dec ∨ i = .tstep ∨ i = .trunc ∨ i = .hotp ∨ i = .totp →
    s.cfg.wellFormed = true → s.errcode = .none → exec i s = .next t →
    (t.phase = .idle ∧ t.errcode = .none → SameObufFrom t.olen.toNat s t) ∧
    (¬ (t.phase = .idle ∧ t.errcode = .none) → SameObufFrom 0 s t) ∧
    (i ≠ .tstep ∧ i ≠ .totp → t.rtime = s.rtime) ∧
    (i ≠ .tstep ∧ i ≠ .hotp ∧ i ≠ .totp → t.rctr = s.rctr) ∧
    (i ≠ .totp → t.rdly = s.rdly) ∧
    (i = .b32enc ∨ i = .b32dec ∨ i = .tstep → t.rtrunc = s.rtrunc ∧ t.rmod = s.rmod)

/-! ### Rules of the whole machine -/

/-- DONE, and so IRQ of an enabled interrupt, rises only in a step that ends a command (60_exceptions.md section 4). -/
def Obligations.DoneRisesOnlyWhenACommandEnds : Prop :=
  ∀ s t : State, step s = .next t → s.done = false → t.done = true →
    s.busy = true ∧ t.busy = false ∧ t.irq = t.irqen

/-- The step is a reset: a CTRL write with SRST = 1, or a power-on. -/
def IsReset (s : State) : Prop :=
  (∃ v rest, s.schedule = .host (.write (s.cfg.base + 0x004) .word v) :: rest ∧ v.getLsbD 0 = true) ∨
  (∃ rest, s.schedule = .powerOn :: rest)

/-- BUSY rises only by an accepted CMD write, and falls only with DONE set or by a reset, after which DONE is 0
(10_state.md section 3.1, 70_reset_and_hazards.md section 1). -/
def Obligations.BusyRisesByCmdAndFallsWithDoneOrReset : Prop :=
  ∀ s t : State, step s = .next t →
    (s.busy = false → t.busy = true →
      ∃ w rest, s.schedule = .host (.write (s.cfg.base + 0x00C) .word w) :: rest ∧ t.phase = .running (decodeOp w)) ∧
    (s.busy = true → t.busy = false →
      (¬ IsReset s → t.done = true) ∧ (IsReset s → t.done = false ∧ t.errcode = .none))

/-- The operand registers and their offsets (10_state.md R54, R58). -/
def operandOffsets : List Nat := [0x014, 0x01C, 0x020, 0x024, 0x028, 0x02C, 0x030, 0x034, 0x038, 0x03C]

/-- 10_state.md R54: writes to operand registers and to IBUF while busy are discarded with OVR set; reads return the current
values; no step of a command, and no other step but a reset, changes an operand, an IBUF byte or the latched clock. -/
def Obligations.WritesWhileBusyAreDiscarded : Prop :=
  ∀ (s : State) (rest : List Event), s.busy = true →
    (∀ off v, off ∈ operandOffsets → s.schedule = .host (.write (s.cfg.base + off) .word v) :: rest →
      step s = .next { s with schedule := rest, ovr := true }) ∧
    (∀ k w v, k < s.cfg.bufBytes → k < 0x1000 → k % bytesOf w = 0 →
      s.schedule = .host (.write (s.cfg.base + 0x1000 + k) w v) :: rest →
      step s = .next { s with schedule := rest, ovr := true }) ∧
    (∀ off r, off ∈ operandOffsets → regAt off = some r →
      s.schedule = .host (.read (s.cfg.base + off) .word) :: rest →
      step s = .next { s with schedule := rest, rdata := regValue r s }) ∧
    (∀ k w, k + bytesOf w ≤ s.cfg.bufBytes → k < 0x1000 → k % bytesOf w = 0 →
      s.schedule = .host (.read (s.cfg.base + 0x1000 + k) w) :: rest →
      ∃ v, step s = .next { s with schedule := rest, rdata := v } ∧
        ∀ j, j < bytesOf w → v.toNat / 2 ^ (8 * j) % 2 ^ 8 = (s.ibufByte (k + j)).toNat) ∧
    (∀ t, step s = .next t → ¬ IsReset s → SameOperands s t ∧ (∀ k, t.ibufByte k = s.ibufByte k) ∧ t.clk = s.clk)

/-- MATCH changes only at an accepted CMD write, which clears it, at a command's end, or by a reset; and while a command runs it
is 0 (10_state.md R33, 45_verify.md R200; in the states of the invariant). -/
def Obligations.MatchHoldsUntilTheNextCommand : Prop :=
  ∀ s t : State, Inv s → step s = .next t →
    (s.busy = true → s.matched = false) ∧
    (t.matched ≠ s.matched →
      (t.matched = true ∧ s.phase = .running (.command .verify) ∧ t.busy = false ∧ t.errcode = .none) ∨
      (t.matched = false ∧ (IsReset s ∨
        ∃ w rest, s.busy = false ∧ s.schedule = .host (.write (s.cfg.base + 0x00C) .word w) :: rest)))

/-- OVR rises only by a host write while busy, and falls only by a STATUS write with bit 2 or a reset; in particular a command
start does not clear it (10_state.md section 3.1). -/
def Obligations.OvrIsSticky : Prop :=
  ∀ s t : State, step s = .next t →
    (s.ovr = false → t.ovr = true → s.busy = true ∧ ∃ a w v rest, s.schedule = .host (.write a w v) :: rest) ∧
    (s.ovr = true → t.ovr = false → IsReset s ∨
      ∃ v rest, s.schedule = .host (.write (s.cfg.base + 0x008) .word v) :: rest ∧ v.getLsbD 2 = true)

/-- IBUF changes only by a host write to its window while not busy, or by power-on; OBUF never changes while the block stays Idle
(10_state.md section 4). -/
def Obligations.BuffersAreWrittenOnlyByTheirWriters : Prop :=
  ∀ s t : State, step s = .next t →
    (t.ibuf ≠ s.ibuf → (∃ rest, s.schedule = .powerOn :: rest) ∨
      (s.busy = false ∧ ∃ k w v rest, k < s.cfg.bufBytes ∧
        s.schedule = .host (.write (s.cfg.base + 0x1000 + k) w v) :: rest)) ∧
    (t.obuf ≠ s.obuf → (∃ rest, s.schedule = .powerOn :: rest) ∨ s.busy = true)

/-- 60_exceptions.md section 5: the port log only grows, by one request a step, and only when none is outstanding. -/
def Obligations.OneRequestAtATime : Prop :=
  ∀ s t : State, Inv s → step s = .next t →
    t.portLog = s.portLog ∨
    (s.pending = none ∧ ∃ q, t.portLog = q :: s.portLog ∧ t.pending = some q ∧ q.key = s.keyh ∧ q.wellFormed = true)

/-- The answers on the HMAC port (60_exceptions.md sections 5 and 6). The answer to the outstanding request ends it: the command
runs again, with the collaborator's value in hand. An answer to any other request changes nothing; and after an abort or a soft
reset the answer to the cancelled request is such an answer, whatever is asked later. That an answer names its request by number,
and that it arrives in a step of its own, are the model's choice (notes/assumptions/13.md, 14.md). -/
def Obligations.CancelledAnswersAreDiscarded : Prop :=
  (∀ (s : State) (k : Nat) (rest : List Event), s.schedule = .answer k :: rest →
    (∀ (op : Op) (q : HmacRequest), s.phase = .waiting op → s.pending = some q → k + 1 = s.portLog.length →
      step s = .next { s with
        schedule := rest, pending := none, phase := .running op, resp := some (hmacOf s.cfg q) }) ∧
    (s.pending = none ∨ k + 1 ≠ s.portLog.length → step s = .next { s with schedule := rest })) ∧
  (∀ (s t : State) (v : Word) (rest : List Event), v.getLsbD 0 = true ∨ v.getLsbD 1 = true → s.busy = true →
    s.schedule = .host (.write (s.cfg.base + 0x004) .word v) :: rest → step s = .next t →
    t.pending = none ∧ t.portLog = s.portLog) ∧
  (∀ s t : State, step s = .next t → s.portLog.length ≤ t.portLog.length ∧
    (t.pending ≠ none → s.pending = none → s.portLog.length < t.portLog.length))

/-! ### Host accesses -/

/-- Reading a register of the window answers v, and changes nothing but the value the host has read. -/
def ReadsAs (s : State) (off : Nat) (v : Word) : Prop :=
  ∀ rest, s.schedule = .host (.read (s.cfg.base + off) .word) :: rest →
    step s = .next { s with schedule := rest, rdata := v }

/-- The register map (10_state.md section 3): what each offset reads as. Busy or not: ID, CTRL, STATUS, CMD, the operand registers
and the reserved offsets. Not busy: ERRINFO, OLEN and the result registers as well. -/
def Obligations.RegistersReadAtTheirOffsets : Prop :=
  ∀ s : State,
    (ReadsAs s 0x000 0x544F5450 ∧
      ReadsAs s 0x004 (BitVec.ofNat 32 (4 * s.irqen.toNat + 8 * s.clksel.toNat)) ∧
      ReadsAs s 0x008 (BitVec.ofNat 32
        (s.busy.toNat + 2 * s.done.toNat + 4 * s.ovr.toNat + 8 * s.matched.toNat + 256 * s.errcode.code.toNat)) ∧
      ReadsAs s 0x00C 0 ∧ ReadsAs s 0x014 s.ilen ∧ ReadsAs s 0x01C s.digits ∧ ReadsAs s 0x020 s.interval ∧
      ReadsAs s 0x024 s.fwd ∧ ReadsAs s 0x028 s.bwd ∧ ReadsAs s 0x02C s.keyh ∧ ReadsAs s 0x030 s.ctr.lo ∧
      ReadsAs s 0x034 s.ctr.hi ∧ ReadsAs s 0x038 s.tovr.lo ∧ ReadsAs s 0x03C s.tovr.hi ∧
      ∀ off, 0x060 ≤ off → off ≤ 0xFFC → off % 4 = 0 → ReadsAs s off 0) ∧
    (s.busy = false →
      ReadsAs s 0x010 s.errinfo ∧ ReadsAs s 0x018 s.olen ∧ ReadsAs s 0x040 s.rtime.lo ∧ ReadsAs s 0x044 s.rtime.hi ∧
      ReadsAs s 0x048 s.rctr.lo ∧ ReadsAs s 0x04C s.rctr.hi ∧ ReadsAs s 0x050 (BitVec.ofNat 32 s.rtrunc.toNat) ∧
      ReadsAs s 0x054 s.rmod ∧ ReadsAs s 0x058 s.rdly.lo ∧ ReadsAs s 0x05C s.rdly.hi)

/-- 20_memory.md R71 on reads: no read has a side effect, busy or not; not busy, the same read repeated answers the same. -/
def Obligations.ReadsHaveNoSideEffect : Prop :=
  ∀ (s t : State) (a : Nat) (w : Width) (rest : List Event),
    s.schedule = .host (.read a w) :: rest → step s = .next t →
    t = { s with schedule := rest, rdata := t.rdata, draws := t.draws } ∧
    (s.busy = false → t.draws = s.draws ∧
      ∀ u rest', step { t with schedule := .host (.read a w) :: rest' } = .next u → u.rdata = t.rdata)

/-- An operand register written while not busy reads back the written value; every other register keeps its value
(10_state.md section 3.2). -/
def Obligations.OperandWritesReadBack : Prop :=
  ∀ (s : State) (off : Nat) (r : Reg) (v : Word) (rest : List Event), s.busy = false → off ∈ operandOffsets →
    regAt off = some r → s.schedule = .host (.write (s.cfg.base + off) .word v) :: rest →
    ∃ t, step s = .next t ∧ t.schedule = rest ∧ regValue r t = v ∧ (∀ r', r' ≠ r → regValue r' t = regValue r' s) ∧
      t.phase = s.phase ∧ t.ibuf = s.ibuf ∧ t.obuf = s.obuf ∧ t.clk = s.clk

/-- Writes to read-only registers, to reserved offsets and to the OBUF window are ignored, busy or not, and do not set OVR
(10_state.md sections 3.3 and 4). -/
def Obligations.ReadOnlyWritesAreIgnored : Prop :=
  ∀ (s : State) (v : Word) (rest : List Event),
    (∀ off, off ∈ [0x000, 0x010, 0x018, 0x040, 0x044, 0x048, 0x04C, 0x050, 0x054, 0x058, 0x05C] ∨
        (0x060 ≤ off ∧ off ≤ 0xFFC ∧ off % 4 = 0) →
      s.schedule = .host (.write (s.cfg.base + off) .word v) :: rest → step s = .next { s with schedule := rest }) ∧
    (∀ k w, k < 0x1000 → k % bytesOf w = 0 → s.schedule = .host (.write (s.cfg.base + 0x2000 + k) w v) :: rest →
      step s = .next { s with schedule := rest })

/-- A write to STATUS clears DONE and OVR where it has 1, busy or not, and changes nothing else (10_state.md R29); this is how the
host acknowledges an end or an error. -/
def Obligations.StatusWriteClearsDoneAndOvr : Prop :=
  ∀ (s : State) (v : Word) (rest : List Event),
    s.schedule = .host (.write (s.cfg.base + 0x008) .word v) :: rest →
    step s = .next { s with
      schedule := rest, done := if v.getLsbD 1 then false else s.done, ovr := if v.getLsbD 2 then false else s.ovr }

/-- A write to CTRL with neither SRST nor ABORT sets IRQEN and CLKSEL, busy or not, and nothing else: the latched clock of a
running command stays; ABORT while not busy does nothing more (10_state.md section 3.1). -/
def Obligations.CtrlWriteSetsEnableAndClock : Prop :=
  ∀ (s : State) (v : Word) (rest : List Event),
    s.schedule = .host (.write (s.cfg.base + 0x004) .word v) :: rest → v.getLsbD 0 = false →
    v.getLsbD 1 = false ∨ s.busy = false →
    step s = .next { s with schedule := rest, irqen := v.getLsbD 2, clksel := v.getLsbD 3 }

/-- 60_exceptions.md section 6: ABORT ends the running command; the OBUF bytes and the result registers the command could not
write (`couldWrite`, `writesRtime` and its companions: notes/assumptions/8.md) keep their values. -/
def Obligations.AbortEndsTheRunningCommand : Prop :=
  ∀ (s : State) (op : Op) (v : Word) (rest : List Event), s.current = some op →
    s.schedule = .host (.write (s.cfg.base + 0x004) .word v) :: rest → v.getLsbD 0 = false → v.getLsbD 1 = true →
    ∃ t, step s = .next t ∧ EndedError .aborted 0 t ∧ t.resp = none ∧ SameOperands s t ∧ SameIbuf s t ∧
      t.ovr = s.ovr ∧ t.irqen = v.getLsbD 2 ∧ t.clksel = v.getLsbD 3 ∧ SameObufFrom (couldWrite op s) s t ∧
      (writesRtime op = false → t.rtime = s.rtime) ∧ (writesRctr op = false → t.rctr = s.rctr) ∧
      (writesCode op = false → t.rtrunc = s.rtrunc ∧ t.rmod = s.rmod) ∧ (writesRdly op = false → t.rdly = s.rdly)

/-- Every register of t is at its power-on value and the engine is Idle (70_reset_and_hazards.md R251). -/
def AtResetValues (t : State) : Prop :=
  regValue .id t = 0x544F5450 ∧ t.ctrlWord = 0 ∧ t.statusWord = 0 ∧ t.errinfo = 0 ∧ t.ilen = 0 ∧ t.olen = 0 ∧
  t.digits = 6 ∧ t.interval = 30 ∧ t.fwd = 1 ∧ t.bwd = 1 ∧ t.keyh = 0 ∧ t.ctr.val = 0 ∧ t.tovr.val = 0 ∧
  t.rtime.val = 0 ∧ t.rctr.val = 0 ∧ t.rtrunc = 0 ∧ t.rmod = 0 ∧ t.rdly.val = 0 ∧
  t.phase = .idle ∧ t.pending = none ∧ t.irq = false

/-- SRST, whatever the write's other bits (70_reset_and_hazards.md section 1). Which OBUF bytes a running command could write is
the model's reading (`couldWrite`, notes/assumptions/8.md). -/
def Obligations.SoftResetKeepsOnlyTheBuffers : Prop :=
  ∀ (s : State) (v : Word) (rest : List Event),
    s.schedule = .host (.write (s.cfg.base + 0x004) .word v) :: rest → v.getLsbD 0 = true →
    ∃ t, step s = .next t ∧ AtResetValues t ∧ t.ibuf = s.ibuf ∧ t.schedule = rest ∧
      (s.busy = false → t.obuf = s.obuf) ∧ (∀ op, s.current = some op → SameObufFrom (couldWrite op s) s t) ∧
      (∀ k rest', step { t with schedule := .answer k :: rest' } = .next { t with schedule := rest' })

/-- Every buffer byte is a free value of its own power-on: unspecified. -/
def BuffersUnspecified (t : State) : Prop :=
  ∀ k, t.ibufByte k = Config.freePowerOnByte t.epoch (0x1000 + k) ∧
    t.obufByte k = Config.freePowerOnByte t.epoch (0x2000 + k)

/-- The state after power-on, from any state and as the machine's reset state; then the block waits for a CMD write
(70_reset_and_hazards.md section 1). The model's choices in it: power-on as a step that counts `epoch`
(notes/assumptions/18.md), the buffer bytes by power-on and index (notes/assumptions/6.md), the step with nothing scheduled
(notes/assumptions/1.md, 5.md). -/
def Obligations.PowerOnPutsResetValues : Prop :=
  AtResetValues State.reset ∧ BuffersUnspecified State.reset ∧ step State.reset = .next State.reset ∧
  ∀ (s : State) (rest : List Event), s.schedule = .powerOn :: rest →
    ∃ t, step s = .next t ∧ AtResetValues t ∧ BuffersUnspecified t ∧ t.epoch = s.epoch + 1 ∧ t.cfg = s.cfg

/-- An n-byte access at buffer offset k carries byte k + j in data bits 8j+7 to 8j (20_memory.md section 3). A write to IBUF stores
them and no other byte; a read of IBUF, or of OBUF while not busy, answers them; a narrow register access is refused (section 2).
That a narrow read answers 0 in the higher bits is the model's choice (notes/assumptions/16.md). -/
def Obligations.BufferAccessesAreLittleEndian : Prop :=
  (∀ (s : State) (a : Access) (rest : List Event), s.schedule = .host a :: rest → s.cfg.base ≤ addrOf a →
    addrOf a < s.cfg.base + 0x1000 → widthOf a ≠ .word → step s = .refused .unadmittedAccess) ∧
  ∀ (s : State) (k : Nat) (w : Width) (rest : List Event), k + bytesOf w ≤ s.cfg.bufBytes →
    k < 0x1000 → k % bytesOf w = 0 →
    (∀ v, s.busy = false → s.schedule = .host (.write (s.cfg.base + 0x1000 + k) w v) :: rest →
      ∃ t, step s = .next t ∧ t = { s with schedule := rest, ibuf := t.ibuf } ∧
        (∀ j, j < bytesOf w → (t.ibufByte (k + j)).toNat = v.toNat / 2 ^ (8 * j) % 2 ^ 8) ∧
        (∀ j, j < k ∨ k + bytesOf w ≤ j → t.ibufByte j = s.ibufByte j)) ∧
    (s.schedule = .host (.read (s.cfg.base + 0x1000 + k) w) :: rest →
      ∃ t, step s = .next t ∧ (∀ j, j < bytesOf w → t.rdata.toNat / 2 ^ (8 * j) % 2 ^ 8 = (s.ibufByte (k + j)).toNat) ∧
        t.rdata.toNat < 2 ^ (8 * bytesOf w)) ∧
    (s.busy = false → s.schedule = .host (.read (s.cfg.base + 0x2000 + k) w) :: rest →
      ∃ t, step s = .next t ∧ (∀ j, j < bytesOf w → t.rdata.toNat / 2 ^ (8 * j) % 2 ^ 8 = (s.obufByte (k + j)).toNat) ∧
        t.rdata.toNat < 2 ^ (8 * bytesOf w))

/-- The window bytes at and beyond BUF_BYTES read 0 and ignore writes (20_memory.md section 2), busy or not
(notes/assumptions/7.md). -/
def Obligations.BytesBeyondTheBuffersReadZero : Prop :=
  ∀ (s : State) (k : Nat) (w : Width) (rest : List Event), s.cfg.bufBytes ≤ k → k < 0x1000 → k % bytesOf w = 0 →
    (s.schedule = .host (.read (s.cfg.base + 0x1000 + k) w) :: rest →
      step s = .next { s with schedule := rest, rdata := 0 }) ∧
    (s.schedule = .host (.read (s.cfg.base + 0x2000 + k) w) :: rest →
      step s = .next { s with schedule := rest, rdata := 0 }) ∧
    (∀ v, s.schedule = .host (.write (s.cfg.base + 0x1000 + k) w v) :: rest →
      step s = .next { s with schedule := rest })

/-- 20_memory.md sections 1 and 2: which host accesses are refused, which fault, and that every other one is performed.
The split into a fault and a refusal is the model's choice (notes/assumptions/15.md). -/
def Obligations.AccessesAreRefusedExactlyWhereNotAdmitted : Prop :=
  ∀ (s : State) (a : Access) (rest : List Event), s.schedule = .host a :: rest →
    (addrOf a < s.cfg.base ∨ s.cfg.base + 0x3000 ≤ addrOf a → step s = .fault .outsideWindow) ∧
    (∀ off, addrOf a = s.cfg.base + off → off < 0x1000 →
      (widthOf a ≠ .word ∨ off % 4 ≠ 0 → step s = .refused .unadmittedAccess) ∧
      (widthOf a = .word ∧ off % 4 = 0 → ∃ t, step s = .next t)) ∧
    (∀ off, addrOf a = s.cfg.base + off → 0x1000 ≤ off → off < 0x3000 →
      (off % bytesOf (widthOf a) ≠ 0 → step s = .refused .unadmittedAccess) ∧
      (off % bytesOf (widthOf a) = 0 → ∃ t, step s = .next t))

/-! ### The invariant -/

/-- The invariant holds after power-on. -/
def Obligations.ResetSatisfiesTheInvariant : Prop := Inv State.reset

/-- Every step from a state with the invariant keeps it, whichever agent moves. -/
def Obligations.EveryStepKeepsTheInvariant : Prop := ∀ s t : State, Inv s → step s = .next t → Inv t
end

