-- ==== Sys2Proof/Laws/State.lean ====
section
/-! SUPPORT. What each shared update leaves in each field of the state: one lemma per field per update. -/

namespace Sys2Proof.Machine

/-! ### complete -/

@[simp] theorem complete_cfg (s : State) : (complete s).cfg = s.cfg := rfl
@[simp] theorem complete_irqen (s : State) : (complete s).irqen = s.irqen := rfl
@[simp] theorem complete_clksel (s : State) : (complete s).clksel = s.clksel := rfl
@[simp] theorem complete_done (s : State) : (complete s).done = true := rfl
@[simp] theorem complete_ovr (s : State) : (complete s).ovr = s.ovr := rfl
@[simp] theorem complete_matched (s : State) : (complete s).matched = s.matched := rfl
@[simp] theorem complete_errcode (s : State) : (complete s).errcode = .none := rfl
@[simp] theorem complete_errinfo (s : State) : (complete s).errinfo = s.errinfo := rfl
@[simp] theorem complete_ilen (s : State) : (complete s).ilen = s.ilen := rfl
@[simp] theorem complete_olen (s : State) : (complete s).olen = s.olen := rfl
@[simp] theorem complete_digits (s : State) : (complete s).digits = s.digits := rfl
@[simp] theorem complete_interval (s : State) : (complete s).interval = s.interval := rfl
@[simp] theorem complete_fwd (s : State) : (complete s).fwd = s.fwd := rfl
@[simp] theorem complete_bwd (s : State) : (complete s).bwd = s.bwd := rfl
@[simp] theorem complete_keyh (s : State) : (complete s).keyh = s.keyh := rfl
@[simp] theorem complete_ctr (s : State) : (complete s).ctr = s.ctr := rfl
@[simp] theorem complete_tovr (s : State) : (complete s).tovr = s.tovr := rfl
@[simp] theorem complete_rtime (s : State) : (complete s).rtime = s.rtime := rfl
@[simp] theorem complete_rctr (s : State) : (complete s).rctr = s.rctr := rfl
@[simp] theorem complete_rtrunc (s : State) : (complete s).rtrunc = s.rtrunc := rfl
@[simp] theorem complete_rmod (s : State) : (complete s).rmod = s.rmod := rfl
@[simp] theorem complete_rdly (s : State) : (complete s).rdly = s.rdly := rfl
@[simp] theorem complete_ibuf (s : State) : (complete s).ibuf = s.ibuf := rfl
@[simp] theorem complete_obuf (s : State) : (complete s).obuf = s.obuf := rfl
@[simp] theorem complete_phase (s : State) : (complete s).phase = .idle := rfl
@[simp] theorem complete_pending (s : State) : (complete s).pending = s.pending := rfl
@[simp] theorem complete_resp (s : State) : (complete s).resp = s.resp := rfl
@[simp] theorem complete_clk (s : State) : (complete s).clk = s.clk := rfl
@[simp] theorem complete_t (s : State) : (complete s).t = s.t := rfl
@[simp] theorem complete_start (s : State) : (complete s).start = s.start := rfl
@[simp] theorem complete_n (s : State) : (complete s).n = s.n := rfl
@[simp] theorem complete_i (s : State) : (complete s).i = s.i := rfl
@[simp] theorem complete_hit (s : State) : (complete s).hit = s.hit := rfl
@[simp] theorem complete_schedule (s : State) : (complete s).schedule = s.schedule := rfl
@[simp] theorem complete_rdata (s : State) : (complete s).rdata = s.rdata := rfl
@[simp] theorem complete_portLog (s : State) : (complete s).portLog = s.portLog := rfl
@[simp] theorem complete_draws (s : State) : (complete s).draws = s.draws := rfl
@[simp] theorem complete_epoch (s : State) : (complete s).epoch = s.epoch := rfl

/-! ### raise -/

@[simp] theorem raise_cfg (e : ErrCode) (info : Word) (s : State) : (raise e info s).cfg = s.cfg := rfl
@[simp] theorem raise_irqen (e : ErrCode) (info : Word) (s : State) : (raise e info s).irqen = s.irqen := rfl
@[simp] theorem raise_clksel (e : ErrCode) (info : Word) (s : State) : (raise e info s).clksel = s.clksel := rfl
@[simp] theorem raise_done (e : ErrCode) (info : Word) (s : State) : (raise e info s).done = true := rfl
@[simp] theorem raise_ovr (e : ErrCode) (info : Word) (s : State) : (raise e info s).ovr = s.ovr := rfl
@[simp] theorem raise_matched (e : ErrCode) (info : Word) (s : State) : (raise e info s).matched = false := rfl
@[simp] theorem raise_errcode (e : ErrCode) (info : Word) (s : State) : (raise e info s).errcode = e := rfl
@[simp] theorem raise_errinfo (e : ErrCode) (info : Word) (s : State) : (raise e info s).errinfo = info := rfl
@[simp] theorem raise_ilen (e : ErrCode) (info : Word) (s : State) : (raise e info s).ilen = s.ilen := rfl
@[simp] theorem raise_olen (e : ErrCode) (info : Word) (s : State) : (raise e info s).olen = 0 := rfl
@[simp] theorem raise_digits (e : ErrCode) (info : Word) (s : State) : (raise e info s).digits = s.digits := rfl
@[simp] theorem raise_interval (e : ErrCode) (info : Word) (s : State) : (raise e info s).interval = s.interval := rfl
@[simp] theorem raise_fwd (e : ErrCode) (info : Word) (s : State) : (raise e info s).fwd = s.fwd := rfl
@[simp] theorem raise_bwd (e : ErrCode) (info : Word) (s : State) : (raise e info s).bwd = s.bwd := rfl
@[simp] theorem raise_keyh (e : ErrCode) (info : Word) (s : State) : (raise e info s).keyh = s.keyh := rfl
@[simp] theorem raise_ctr (e : ErrCode) (info : Word) (s : State) : (raise e info s).ctr = s.ctr := rfl
@[simp] theorem raise_tovr (e : ErrCode) (info : Word) (s : State) : (raise e info s).tovr = s.tovr := rfl
@[simp] theorem raise_rtime (e : ErrCode) (info : Word) (s : State) : (raise e info s).rtime = s.rtime := rfl
@[simp] theorem raise_rctr (e : ErrCode) (info : Word) (s : State) : (raise e info s).rctr = s.rctr := rfl
@[simp] theorem raise_rtrunc (e : ErrCode) (info : Word) (s : State) : (raise e info s).rtrunc = s.rtrunc := rfl
@[simp] theorem raise_rmod (e : ErrCode) (info : Word) (s : State) : (raise e info s).rmod = s.rmod := rfl
@[simp] theorem raise_rdly (e : ErrCode) (info : Word) (s : State) : (raise e info s).rdly = s.rdly := rfl
@[simp] theorem raise_ibuf (e : ErrCode) (info : Word) (s : State) : (raise e info s).ibuf = s.ibuf := rfl
@[simp] theorem raise_obuf (e : ErrCode) (info : Word) (s : State) : (raise e info s).obuf = s.obuf := rfl
@[simp] theorem raise_phase (e : ErrCode) (info : Word) (s : State) : (raise e info s).phase = .idle := rfl
@[simp] theorem raise_pending (e : ErrCode) (info : Word) (s : State) : (raise e info s).pending = none := rfl
@[simp] theorem raise_resp (e : ErrCode) (info : Word) (s : State) : (raise e info s).resp = s.resp := rfl
@[simp] theorem raise_clk (e : ErrCode) (info : Word) (s : State) : (raise e info s).clk = s.clk := rfl
@[simp] theorem raise_t (e : ErrCode) (info : Word) (s : State) : (raise e info s).t = s.t := rfl
@[simp] theorem raise_start (e : ErrCode) (info : Word) (s : State) : (raise e info s).start = s.start := rfl
@[simp] theorem raise_n (e : ErrCode) (info : Word) (s : State) : (raise e info s).n = s.n := rfl
@[simp] theorem raise_i (e : ErrCode) (info : Word) (s : State) : (raise e info s).i = s.i := rfl
@[simp] theorem raise_hit (e : ErrCode) (info : Word) (s : State) : (raise e info s).hit = s.hit := rfl
@[simp] theorem raise_schedule (e : ErrCode) (info : Word) (s : State) : (raise e info s).schedule = s.schedule := rfl
@[simp] theorem raise_rdata (e : ErrCode) (info : Word) (s : State) : (raise e info s).rdata = s.rdata := rfl
@[simp] theorem raise_portLog (e : ErrCode) (info : Word) (s : State) : (raise e info s).portLog = s.portLog := rfl
@[simp] theorem raise_draws (e : ErrCode) (info : Word) (s : State) : (raise e info s).draws = s.draws := rfl
@[simp] theorem raise_epoch (e : ErrCode) (info : Word) (s : State) : (raise e info s).epoch = s.epoch := rfl

/-! ### accept -/

@[simp] theorem accept_cfg (w : Word) (s : State) : (accept w s).cfg = s.cfg := rfl
@[simp] theorem accept_irqen (w : Word) (s : State) : (accept w s).irqen = s.irqen := rfl
@[simp] theorem accept_clksel (w : Word) (s : State) : (accept w s).clksel = s.clksel := rfl
@[simp] theorem accept_done (w : Word) (s : State) : (accept w s).done = false := rfl
@[simp] theorem accept_ovr (w : Word) (s : State) : (accept w s).ovr = s.ovr := rfl
@[simp] theorem accept_matched (w : Word) (s : State) : (accept w s).matched = false := rfl
@[simp] theorem accept_errcode (w : Word) (s : State) : (accept w s).errcode = .none := rfl
@[simp] theorem accept_errinfo (w : Word) (s : State) : (accept w s).errinfo = 0 := rfl
@[simp] theorem accept_ilen (w : Word) (s : State) : (accept w s).ilen = s.ilen := rfl
@[simp] theorem accept_olen (w : Word) (s : State) : (accept w s).olen = s.olen := rfl
@[simp] theorem accept_digits (w : Word) (s : State) : (accept w s).digits = s.digits := rfl
@[simp] theorem accept_interval (w : Word) (s : State) : (accept w s).interval = s.interval := rfl
@[simp] theorem accept_fwd (w : Word) (s : State) : (accept w s).fwd = s.fwd := rfl
@[simp] theorem accept_bwd (w : Word) (s : State) : (accept w s).bwd = s.bwd := rfl
@[simp] theorem accept_keyh (w : Word) (s : State) : (accept w s).keyh = s.keyh := rfl
@[simp] theorem accept_ctr (w : Word) (s : State) : (accept w s).ctr = s.ctr := rfl
@[simp] theorem accept_tovr (w : Word) (s : State) : (accept w s).tovr = s.tovr := rfl
@[simp] theorem accept_rtime (w : Word) (s : State) : (accept w s).rtime = s.rtime := rfl
@[simp] theorem accept_rctr (w : Word) (s : State) : (accept w s).rctr = s.rctr := rfl
@[simp] theorem accept_rtrunc (w : Word) (s : State) : (accept w s).rtrunc = s.rtrunc := rfl
@[simp] theorem accept_rmod (w : Word) (s : State) : (accept w s).rmod = s.rmod := rfl
@[simp] theorem accept_rdly (w : Word) (s : State) : (accept w s).rdly = s.rdly := rfl
@[simp] theorem accept_ibuf (w : Word) (s : State) : (accept w s).ibuf = s.ibuf := rfl
@[simp] theorem accept_obuf (w : Word) (s : State) : (accept w s).obuf = s.obuf := rfl
@[simp] theorem accept_phase (w : Word) (s : State) : (accept w s).phase = .running (decodeOp w) := rfl
@[simp] theorem accept_pending (w : Word) (s : State) : (accept w s).pending = s.pending := rfl
@[simp] theorem accept_resp (w : Word) (s : State) : (accept w s).resp = s.resp := rfl
@[simp] theorem accept_clk (w : Word) (s : State) : (accept w s).clk = s.clksel := rfl
@[simp] theorem accept_t (w : Word) (s : State) : (accept w s).t = s.t := rfl
@[simp] theorem accept_start (w : Word) (s : State) : (accept w s).start = s.start := rfl
@[simp] theorem accept_n (w : Word) (s : State) : (accept w s).n = s.n := rfl
@[simp] theorem accept_i (w : Word) (s : State) : (accept w s).i = s.i := rfl
@[simp] theorem accept_hit (w : Word) (s : State) : (accept w s).hit = s.hit := rfl
@[simp] theorem accept_schedule (w : Word) (s : State) : (accept w s).schedule = s.schedule := rfl
@[simp] theorem accept_rdata (w : Word) (s : State) : (accept w s).rdata = s.rdata := rfl
@[simp] theorem accept_portLog (w : Word) (s : State) : (accept w s).portLog = s.portLog := rfl
@[simp] theorem accept_draws (w : Word) (s : State) : (accept w s).draws = s.draws := rfl
@[simp] theorem accept_epoch (w : Word) (s : State) : (accept w s).epoch = s.epoch := rfl

/-! ### setOvr -/

@[simp] theorem setOvr_cfg (s : State) : (setOvr s).cfg = s.cfg := rfl
@[simp] theorem setOvr_irqen (s : State) : (setOvr s).irqen = s.irqen := rfl
@[simp] theorem setOvr_clksel (s : State) : (setOvr s).clksel = s.clksel := rfl
@[simp] theorem setOvr_done (s : State) : (setOvr s).done = s.done := rfl
@[simp] theorem setOvr_ovr (s : State) : (setOvr s).ovr = true := rfl
@[simp] theorem setOvr_matched (s : State) : (setOvr s).matched = s.matched := rfl
@[simp] theorem setOvr_errcode (s : State) : (setOvr s).errcode = s.errcode := rfl
@[simp] theorem setOvr_errinfo (s : State) : (setOvr s).errinfo = s.errinfo := rfl
@[simp] theorem setOvr_ilen (s : State) : (setOvr s).ilen = s.ilen := rfl
@[simp] theorem setOvr_olen (s : State) : (setOvr s).olen = s.olen := rfl
@[simp] theorem setOvr_digits (s : State) : (setOvr s).digits = s.digits := rfl
@[simp] theorem setOvr_interval (s : State) : (setOvr s).interval = s.interval := rfl
@[simp] theorem setOvr_fwd (s : State) : (setOvr s).fwd = s.fwd := rfl
@[simp] theorem setOvr_bwd (s : State) : (setOvr s).bwd = s.bwd := rfl
@[simp] theorem setOvr_keyh (s : State) : (setOvr s).keyh = s.keyh := rfl
@[simp] theorem setOvr_ctr (s : State) : (setOvr s).ctr = s.ctr := rfl
@[simp] theorem setOvr_tovr (s : State) : (setOvr s).tovr = s.tovr := rfl
@[simp] theorem setOvr_rtime (s : State) : (setOvr s).rtime = s.rtime := rfl
@[simp] theorem setOvr_rctr (s : State) : (setOvr s).rctr = s.rctr := rfl
@[simp] theorem setOvr_rtrunc (s : State) : (setOvr s).rtrunc = s.rtrunc := rfl
@[simp] theorem setOvr_rmod (s : State) : (setOvr s).rmod = s.rmod := rfl
@[simp] theorem setOvr_rdly (s : State) : (setOvr s).rdly = s.rdly := rfl
@[simp] theorem setOvr_ibuf (s : State) : (setOvr s).ibuf = s.ibuf := rfl
@[simp] theorem setOvr_obuf (s : State) : (setOvr s).obuf = s.obuf := rfl
@[simp] theorem setOvr_phase (s : State) : (setOvr s).phase = s.phase := rfl
@[simp] theorem setOvr_pending (s : State) : (setOvr s).pending = s.pending := rfl
@[simp] theorem setOvr_resp (s : State) : (setOvr s).resp = s.resp := rfl
@[simp] theorem setOvr_clk (s : State) : (setOvr s).clk = s.clk := rfl
@[simp] theorem setOvr_t (s : State) : (setOvr s).t = s.t := rfl
@[simp] theorem setOvr_start (s : State) : (setOvr s).start = s.start := rfl
@[simp] theorem setOvr_n (s : State) : (setOvr s).n = s.n := rfl
@[simp] theorem setOvr_i (s : State) : (setOvr s).i = s.i := rfl
@[simp] theorem setOvr_hit (s : State) : (setOvr s).hit = s.hit := rfl
@[simp] theorem setOvr_schedule (s : State) : (setOvr s).schedule = s.schedule := rfl
@[simp] theorem setOvr_rdata (s : State) : (setOvr s).rdata = s.rdata := rfl
@[simp] theorem setOvr_portLog (s : State) : (setOvr s).portLog = s.portLog := rfl
@[simp] theorem setOvr_draws (s : State) : (setOvr s).draws = s.draws := rfl
@[simp] theorem setOvr_epoch (s : State) : (setOvr s).epoch = s.epoch := rfl

/-! ### writeStatus -/

@[simp] theorem writeStatus_cfg (v : Word) (s : State) : (writeStatus v s).cfg = s.cfg := rfl
@[simp] theorem writeStatus_irqen (v : Word) (s : State) : (writeStatus v s).irqen = s.irqen := rfl
@[simp] theorem writeStatus_clksel (v : Word) (s : State) : (writeStatus v s).clksel = s.clksel := rfl
@[simp] theorem writeStatus_done (v : Word) (s : State) : (writeStatus v s).done = (s.done && !v.getLsbD 1) := rfl
@[simp] theorem writeStatus_ovr (v : Word) (s : State) : (writeStatus v s).ovr = (s.ovr && !v.getLsbD 2) := rfl
@[simp] theorem writeStatus_matched (v : Word) (s : State) : (writeStatus v s).matched = s.matched := rfl
@[simp] theorem writeStatus_errcode (v : Word) (s : State) : (writeStatus v s).errcode = s.errcode := rfl
@[simp] theorem writeStatus_errinfo (v : Word) (s : State) : (writeStatus v s).errinfo = s.errinfo := rfl
@[simp] theorem writeStatus_ilen (v : Word) (s : State) : (writeStatus v s).ilen = s.ilen := rfl
@[simp] theorem writeStatus_olen (v : Word) (s : State) : (writeStatus v s).olen = s.olen := rfl
@[simp] theorem writeStatus_digits (v : Word) (s : State) : (writeStatus v s).digits = s.digits := rfl
@[simp] theorem writeStatus_interval (v : Word) (s : State) : (writeStatus v s).interval = s.interval := rfl
@[simp] theorem writeStatus_fwd (v : Word) (s : State) : (writeStatus v s).fwd = s.fwd := rfl
@[simp] theorem writeStatus_bwd (v : Word) (s : State) : (writeStatus v s).bwd = s.bwd := rfl
@[simp] theorem writeStatus_keyh (v : Word) (s : State) : (writeStatus v s).keyh = s.keyh := rfl
@[simp] theorem writeStatus_ctr (v : Word) (s : State) : (writeStatus v s).ctr = s.ctr := rfl
@[simp] theorem writeStatus_tovr (v : Word) (s : State) : (writeStatus v s).tovr = s.tovr := rfl
@[simp] theorem writeStatus_rtime (v : Word) (s : State) : (writeStatus v s).rtime = s.rtime := rfl
@[simp] theorem writeStatus_rctr (v : Word) (s : State) : (writeStatus v s).rctr = s.rctr := rfl
@[simp] theorem writeStatus_rtrunc (v : Word) (s : State) : (writeStatus v s).rtrunc = s.rtrunc := rfl
@[simp] theorem writeStatus_rmod (v : Word) (s : State) : (writeStatus v s).rmod = s.rmod := rfl
@[simp] theorem writeStatus_rdly (v : Word) (s : State) : (writeStatus v s).rdly = s.rdly := rfl
@[simp] theorem writeStatus_ibuf (v : Word) (s : State) : (writeStatus v s).ibuf = s.ibuf := rfl
@[simp] theorem writeStatus_obuf (v : Word) (s : State) : (writeStatus v s).obuf = s.obuf := rfl
@[simp] theorem writeStatus_phase (v : Word) (s : State) : (writeStatus v s).phase = s.phase := rfl
@[simp] theorem writeStatus_pending (v : Word) (s : State) : (writeStatus v s).pending = s.pending := rfl
@[simp] theorem writeStatus_resp (v : Word) (s : State) : (writeStatus v s).resp = s.resp := rfl
@[simp] theorem writeStatus_clk (v : Word) (s : State) : (writeStatus v s).clk = s.clk := rfl
@[simp] theorem writeStatus_t (v : Word) (s : State) : (writeStatus v s).t = s.t := rfl
@[simp] theorem writeStatus_start (v : Word) (s : State) : (writeStatus v s).start = s.start := rfl
@[simp] theorem writeStatus_n (v : Word) (s : State) : (writeStatus v s).n = s.n := rfl
@[simp] theorem writeStatus_i (v : Word) (s : State) : (writeStatus v s).i = s.i := rfl
@[simp] theorem writeStatus_hit (v : Word) (s : State) : (writeStatus v s).hit = s.hit := rfl
@[simp] theorem writeStatus_schedule (v : Word) (s : State) : (writeStatus v s).schedule = s.schedule := rfl
@[simp] theorem writeStatus_rdata (v : Word) (s : State) : (writeStatus v s).rdata = s.rdata := rfl
@[simp] theorem writeStatus_portLog (v : Word) (s : State) : (writeStatus v s).portLog = s.portLog := rfl
@[simp] theorem writeStatus_draws (v : Word) (s : State) : (writeStatus v s).draws = s.draws := rfl
@[simp] theorem writeStatus_epoch (v : Word) (s : State) : (writeStatus v s).epoch = s.epoch := rfl

/-! ### takeSample -/

@[simp] theorem takeSample_cfg (s : State) : (takeSample s).cfg = s.cfg := rfl
@[simp] theorem takeSample_irqen (s : State) : (takeSample s).irqen = s.irqen := rfl
@[simp] theorem takeSample_clksel (s : State) : (takeSample s).clksel = s.clksel := rfl
@[simp] theorem takeSample_done (s : State) : (takeSample s).done = s.done := rfl
@[simp] theorem takeSample_ovr (s : State) : (takeSample s).ovr = s.ovr := rfl
@[simp] theorem takeSample_matched (s : State) : (takeSample s).matched = s.matched := rfl
@[simp] theorem takeSample_errcode (s : State) : (takeSample s).errcode = s.errcode := rfl
@[simp] theorem takeSample_errinfo (s : State) : (takeSample s).errinfo = s.errinfo := rfl
@[simp] theorem takeSample_ilen (s : State) : (takeSample s).ilen = s.ilen := rfl
@[simp] theorem takeSample_olen (s : State) : (takeSample s).olen = s.olen := rfl
@[simp] theorem takeSample_digits (s : State) : (takeSample s).digits = s.digits := rfl
@[simp] theorem takeSample_interval (s : State) : (takeSample s).interval = s.interval := rfl
@[simp] theorem takeSample_fwd (s : State) : (takeSample s).fwd = s.fwd := rfl
@[simp] theorem takeSample_bwd (s : State) : (takeSample s).bwd = s.bwd := rfl
@[simp] theorem takeSample_keyh (s : State) : (takeSample s).keyh = s.keyh := rfl
@[simp] theorem takeSample_ctr (s : State) : (takeSample s).ctr = s.ctr := rfl
@[simp] theorem takeSample_tovr (s : State) : (takeSample s).tovr = s.tovr := rfl
@[simp] theorem takeSample_rtime (s : State) : (takeSample s).rtime = Pair.ofNat (sampleValue s).toNat := rfl
@[simp] theorem takeSample_rctr (s : State) : (takeSample s).rctr = s.rctr := rfl
@[simp] theorem takeSample_rtrunc (s : State) : (takeSample s).rtrunc = s.rtrunc := rfl
@[simp] theorem takeSample_rmod (s : State) : (takeSample s).rmod = s.rmod := rfl
@[simp] theorem takeSample_rdly (s : State) : (takeSample s).rdly = s.rdly := rfl
@[simp] theorem takeSample_ibuf (s : State) : (takeSample s).ibuf = s.ibuf := rfl
@[simp] theorem takeSample_obuf (s : State) : (takeSample s).obuf = s.obuf := rfl
@[simp] theorem takeSample_phase (s : State) : (takeSample s).phase = s.phase := rfl
@[simp] theorem takeSample_pending (s : State) : (takeSample s).pending = s.pending := rfl
@[simp] theorem takeSample_resp (s : State) : (takeSample s).resp = s.resp := rfl
@[simp] theorem takeSample_clk (s : State) : (takeSample s).clk = s.clk := rfl
@[simp] theorem takeSample_t (s : State) : (takeSample s).t = sampleValue s := rfl
@[simp] theorem takeSample_start (s : State) : (takeSample s).start = s.start := rfl
@[simp] theorem takeSample_n (s : State) : (takeSample s).n = s.n := rfl
@[simp] theorem takeSample_i (s : State) : (takeSample s).i = s.i := rfl
@[simp] theorem takeSample_hit (s : State) : (takeSample s).hit = s.hit := rfl
@[simp] theorem takeSample_schedule (s : State) : (takeSample s).schedule = s.schedule := rfl
@[simp] theorem takeSample_rdata (s : State) : (takeSample s).rdata = s.rdata := rfl
@[simp] theorem takeSample_portLog (s : State) : (takeSample s).portLog = s.portLog := rfl
@[simp] theorem takeSample_draws (s : State) : (takeSample s).draws = if s.clk then s.draws else s.draws + 1 := rfl
@[simp] theorem takeSample_epoch (s : State) : (takeSample s).epoch = s.epoch := rfl

/-! ### request -/

@[simp] theorem request_cfg (i : Instr) (c : Nat) (s : State) : (request i c s).cfg = s.cfg := rfl
@[simp] theorem request_irqen (i : Instr) (c : Nat) (s : State) : (request i c s).irqen = s.irqen := rfl
@[simp] theorem request_clksel (i : Instr) (c : Nat) (s : State) : (request i c s).clksel = s.clksel := rfl
@[simp] theorem request_done (i : Instr) (c : Nat) (s : State) : (request i c s).done = s.done := rfl
@[simp] theorem request_ovr (i : Instr) (c : Nat) (s : State) : (request i c s).ovr = s.ovr := rfl
@[simp] theorem request_matched (i : Instr) (c : Nat) (s : State) : (request i c s).matched = s.matched := rfl
@[simp] theorem request_errcode (i : Instr) (c : Nat) (s : State) : (request i c s).errcode = s.errcode := rfl
@[simp] theorem request_errinfo (i : Instr) (c : Nat) (s : State) : (request i c s).errinfo = s.errinfo := rfl
@[simp] theorem request_ilen (i : Instr) (c : Nat) (s : State) : (request i c s).ilen = s.ilen := rfl
@[simp] theorem request_olen (i : Instr) (c : Nat) (s : State) : (request i c s).olen = s.olen := rfl
@[simp] theorem request_digits (i : Instr) (c : Nat) (s : State) : (request i c s).digits = s.digits := rfl
@[simp] theorem request_interval (i : Instr) (c : Nat) (s : State) : (request i c s).interval = s.interval := rfl
@[simp] theorem request_fwd (i : Instr) (c : Nat) (s : State) : (request i c s).fwd = s.fwd := rfl
@[simp] theorem request_bwd (i : Instr) (c : Nat) (s : State) : (request i c s).bwd = s.bwd := rfl
@[simp] theorem request_keyh (i : Instr) (c : Nat) (s : State) : (request i c s).keyh = s.keyh := rfl
@[simp] theorem request_ctr (i : Instr) (c : Nat) (s : State) : (request i c s).ctr = s.ctr := rfl
@[simp] theorem request_tovr (i : Instr) (c : Nat) (s : State) : (request i c s).tovr = s.tovr := rfl
@[simp] theorem request_rtime (i : Instr) (c : Nat) (s : State) : (request i c s).rtime = s.rtime := rfl
@[simp] theorem request_rctr (i : Instr) (c : Nat) (s : State) : (request i c s).rctr = s.rctr := rfl
@[simp] theorem request_rtrunc (i : Instr) (c : Nat) (s : State) : (request i c s).rtrunc = s.rtrunc := rfl
@[simp] theorem request_rmod (i : Instr) (c : Nat) (s : State) : (request i c s).rmod = s.rmod := rfl
@[simp] theorem request_rdly (i : Instr) (c : Nat) (s : State) : (request i c s).rdly = s.rdly := rfl
@[simp] theorem request_ibuf (i : Instr) (c : Nat) (s : State) : (request i c s).ibuf = s.ibuf := rfl
@[simp] theorem request_obuf (i : Instr) (c : Nat) (s : State) : (request i c s).obuf = s.obuf := rfl
@[simp] theorem request_phase (i : Instr) (c : Nat) (s : State) : (request i c s).phase = .waiting (.command i) := rfl
@[simp] theorem request_pending (i : Instr) (c : Nat) (s : State) :
    (request i c s).pending = some ⟨s.keyh, be8 c⟩ := rfl
@[simp] theorem request_resp (i : Instr) (c : Nat) (s : State) : (request i c s).resp = s.resp := rfl
@[simp] theorem request_clk (i : Instr) (c : Nat) (s : State) : (request i c s).clk = s.clk := rfl
@[simp] theorem request_t (i : Instr) (c : Nat) (s : State) : (request i c s).t = s.t := rfl
@[simp] theorem request_start (i : Instr) (c : Nat) (s : State) : (request i c s).start = s.start := rfl
@[simp] theorem request_n (i : Instr) (c : Nat) (s : State) : (request i c s).n = s.n := rfl
@[simp] theorem request_i (i : Instr) (c : Nat) (s : State) : (request i c s).i = s.i := rfl
@[simp] theorem request_hit (i : Instr) (c : Nat) (s : State) : (request i c s).hit = s.hit := rfl
@[simp] theorem request_schedule (i : Instr) (c : Nat) (s : State) : (request i c s).schedule = s.schedule := rfl
@[simp] theorem request_rdata (i : Instr) (c : Nat) (s : State) : (request i c s).rdata = s.rdata := rfl
@[simp] theorem request_portLog (i : Instr) (c : Nat) (s : State) :
    (request i c s).portLog = ⟨s.keyh, be8 c⟩ :: s.portLog := rfl
@[simp] theorem request_draws (i : Instr) (c : Nat) (s : State) : (request i c s).draws = s.draws := rfl
@[simp] theorem request_epoch (i : Instr) (c : Nat) (s : State) : (request i c s).epoch = s.epoch := rfl

/-! ### writeObuf -/

@[simp] theorem writeObuf_cfg (out : List Byte) (s : State) : (writeObuf out s).cfg = s.cfg := rfl
@[simp] theorem writeObuf_irqen (out : List Byte) (s : State) : (writeObuf out s).irqen = s.irqen := rfl
@[simp] theorem writeObuf_clksel (out : List Byte) (s : State) : (writeObuf out s).clksel = s.clksel := rfl
@[simp] theorem writeObuf_done (out : List Byte) (s : State) : (writeObuf out s).done = s.done := rfl
@[simp] theorem writeObuf_ovr (out : List Byte) (s : State) : (writeObuf out s).ovr = s.ovr := rfl
@[simp] theorem writeObuf_matched (out : List Byte) (s : State) : (writeObuf out s).matched = s.matched := rfl
@[simp] theorem writeObuf_errcode (out : List Byte) (s : State) : (writeObuf out s).errcode = s.errcode := rfl
@[simp] theorem writeObuf_errinfo (out : List Byte) (s : State) : (writeObuf out s).errinfo = s.errinfo := rfl
@[simp] theorem writeObuf_ilen (out : List Byte) (s : State) : (writeObuf out s).ilen = s.ilen := rfl
@[simp] theorem writeObuf_olen (out : List Byte) (s : State) : (writeObuf out s).olen = s.olen := rfl
@[simp] theorem writeObuf_digits (out : List Byte) (s : State) : (writeObuf out s).digits = s.digits := rfl
@[simp] theorem writeObuf_interval (out : List Byte) (s : State) : (writeObuf out s).interval = s.interval := rfl
@[simp] theorem writeObuf_fwd (out : List Byte) (s : State) : (writeObuf out s).fwd = s.fwd := rfl
@[simp] theorem writeObuf_bwd (out : List Byte) (s : State) : (writeObuf out s).bwd = s.bwd := rfl
@[simp] theorem writeObuf_keyh (out : List Byte) (s : State) : (writeObuf out s).keyh = s.keyh := rfl
@[simp] theorem writeObuf_ctr (out : List Byte) (s : State) : (writeObuf out s).ctr = s.ctr := rfl
@[simp] theorem writeObuf_tovr (out : List Byte) (s : State) : (writeObuf out s).tovr = s.tovr := rfl
@[simp] theorem writeObuf_rtime (out : List Byte) (s : State) : (writeObuf out s).rtime = s.rtime := rfl
@[simp] theorem writeObuf_rctr (out : List Byte) (s : State) : (writeObuf out s).rctr = s.rctr := rfl
@[simp] theorem writeObuf_rtrunc (out : List Byte) (s : State) : (writeObuf out s).rtrunc = s.rtrunc := rfl
@[simp] theorem writeObuf_rmod (out : List Byte) (s : State) : (writeObuf out s).rmod = s.rmod := rfl
@[simp] theorem writeObuf_rdly (out : List Byte) (s : State) : (writeObuf out s).rdly = s.rdly := rfl
@[simp] theorem writeObuf_ibuf (out : List Byte) (s : State) : (writeObuf out s).ibuf = s.ibuf := rfl
@[simp] theorem writeObuf_obuf (out : List Byte) (s : State) : (writeObuf out s).obuf = s.obuf.writeList 0 out := rfl
@[simp] theorem writeObuf_phase (out : List Byte) (s : State) : (writeObuf out s).phase = s.phase := rfl
@[simp] theorem writeObuf_pending (out : List Byte) (s : State) : (writeObuf out s).pending = s.pending := rfl
@[simp] theorem writeObuf_resp (out : List Byte) (s : State) : (writeObuf out s).resp = s.resp := rfl
@[simp] theorem writeObuf_clk (out : List Byte) (s : State) : (writeObuf out s).clk = s.clk := rfl
@[simp] theorem writeObuf_t (out : List Byte) (s : State) : (writeObuf out s).t = s.t := rfl
@[simp] theorem writeObuf_start (out : List Byte) (s : State) : (writeObuf out s).start = s.start := rfl
@[simp] theorem writeObuf_n (out : List Byte) (s : State) : (writeObuf out s).n = s.n := rfl
@[simp] theorem writeObuf_i (out : List Byte) (s : State) : (writeObuf out s).i = s.i := rfl
@[simp] theorem writeObuf_hit (out : List Byte) (s : State) : (writeObuf out s).hit = s.hit := rfl
@[simp] theorem writeObuf_schedule (out : List Byte) (s : State) : (writeObuf out s).schedule = s.schedule := rfl
@[simp] theorem writeObuf_rdata (out : List Byte) (s : State) : (writeObuf out s).rdata = s.rdata := rfl
@[simp] theorem writeObuf_portLog (out : List Byte) (s : State) : (writeObuf out s).portLog = s.portLog := rfl
@[simp] theorem writeObuf_draws (out : List Byte) (s : State) : (writeObuf out s).draws = s.draws := rfl
@[simp] theorem writeObuf_epoch (out : List Byte) (s : State) : (writeObuf out s).epoch = s.epoch := rfl

/-! ### emitCode -/

@[simp] theorem emitCode_cfg (n : Nat) (s : State) : (emitCode n s).cfg = s.cfg := rfl
@[simp] theorem emitCode_irqen (n : Nat) (s : State) : (emitCode n s).irqen = s.irqen := rfl
@[simp] theorem emitCode_clksel (n : Nat) (s : State) : (emitCode n s).clksel = s.clksel := rfl
@[simp] theorem emitCode_done (n : Nat) (s : State) : (emitCode n s).done = s.done := rfl
@[simp] theorem emitCode_ovr (n : Nat) (s : State) : (emitCode n s).ovr = s.ovr := rfl
@[simp] theorem emitCode_matched (n : Nat) (s : State) : (emitCode n s).matched = s.matched := rfl
@[simp] theorem emitCode_errcode (n : Nat) (s : State) : (emitCode n s).errcode = s.errcode := rfl
@[simp] theorem emitCode_errinfo (n : Nat) (s : State) : (emitCode n s).errinfo = s.errinfo := rfl
@[simp] theorem emitCode_ilen (n : Nat) (s : State) : (emitCode n s).ilen = s.ilen := rfl
@[simp] theorem emitCode_olen (n : Nat) (s : State) : (emitCode n s).olen = s.digits := rfl
@[simp] theorem emitCode_digits (n : Nat) (s : State) : (emitCode n s).digits = s.digits := rfl
@[simp] theorem emitCode_interval (n : Nat) (s : State) : (emitCode n s).interval = s.interval := rfl
@[simp] theorem emitCode_fwd (n : Nat) (s : State) : (emitCode n s).fwd = s.fwd := rfl
@[simp] theorem emitCode_bwd (n : Nat) (s : State) : (emitCode n s).bwd = s.bwd := rfl
@[simp] theorem emitCode_keyh (n : Nat) (s : State) : (emitCode n s).keyh = s.keyh := rfl
@[simp] theorem emitCode_ctr (n : Nat) (s : State) : (emitCode n s).ctr = s.ctr := rfl
@[simp] theorem emitCode_tovr (n : Nat) (s : State) : (emitCode n s).tovr = s.tovr := rfl
@[simp] theorem emitCode_rtime (n : Nat) (s : State) : (emitCode n s).rtime = s.rtime := rfl
@[simp] theorem emitCode_rctr (n : Nat) (s : State) : (emitCode n s).rctr = s.rctr := rfl
@[simp] theorem emitCode_rtrunc (n : Nat) (s : State) : (emitCode n s).rtrunc = BitVec.ofNat 31 n := rfl
@[simp] theorem emitCode_rmod (n : Nat) (s : State) :
    (emitCode n s).rmod = BitVec.ofNat 32 (n % 10 ^ s.digits.toNat) := rfl
@[simp] theorem emitCode_rdly (n : Nat) (s : State) : (emitCode n s).rdly = s.rdly := rfl
@[simp] theorem emitCode_ibuf (n : Nat) (s : State) : (emitCode n s).ibuf = s.ibuf := rfl
@[simp] theorem emitCode_obuf (n : Nat) (s : State) :
    (emitCode n s).obuf = s.obuf.writeList 0 (codeText n s.digits.toNat) := rfl
@[simp] theorem emitCode_phase (n : Nat) (s : State) : (emitCode n s).phase = s.phase := rfl
@[simp] theorem emitCode_pending (n : Nat) (s : State) : (emitCode n s).pending = s.pending := rfl
@[simp] theorem emitCode_resp (n : Nat) (s : State) : (emitCode n s).resp = s.resp := rfl
@[simp] theorem emitCode_clk (n : Nat) (s : State) : (emitCode n s).clk = s.clk := rfl
@[simp] theorem emitCode_t (n : Nat) (s : State) : (emitCode n s).t = s.t := rfl
@[simp] theorem emitCode_start (n : Nat) (s : State) : (emitCode n s).start = s.start := rfl
@[simp] theorem emitCode_n (n : Nat) (s : State) : (emitCode n s).n = s.n := rfl
@[simp] theorem emitCode_i (n : Nat) (s : State) : (emitCode n s).i = s.i := rfl
@[simp] theorem emitCode_hit (n : Nat) (s : State) : (emitCode n s).hit = s.hit := rfl
@[simp] theorem emitCode_schedule (n : Nat) (s : State) : (emitCode n s).schedule = s.schedule := rfl
@[simp] theorem emitCode_rdata (n : Nat) (s : State) : (emitCode n s).rdata = s.rdata := rfl
@[simp] theorem emitCode_portLog (n : Nat) (s : State) : (emitCode n s).portLog = s.portLog := rfl
@[simp] theorem emitCode_draws (n : Nat) (s : State) : (emitCode n s).draws = s.draws := rfl
@[simp] theorem emitCode_epoch (n : Nat) (s : State) : (emitCode n s).epoch = s.epoch := rfl

/-! ### reply -/

@[simp] theorem reply_cfg (v : Word) (s : State) : (reply v s).cfg = s.cfg := rfl
@[simp] theorem reply_irqen (v : Word) (s : State) : (reply v s).irqen = s.irqen := rfl
@[simp] theorem reply_clksel (v : Word) (s : State) : (reply v s).clksel = s.clksel := rfl
@[simp] theorem reply_done (v : Word) (s : State) : (reply v s).done = s.done := rfl
@[simp] theorem reply_ovr (v : Word) (s : State) : (reply v s).ovr = s.ovr := rfl
@[simp] theorem reply_matched (v : Word) (s : State) : (reply v s).matched = s.matched := rfl
@[simp] theorem reply_errcode (v : Word) (s : State) : (reply v s).errcode = s.errcode := rfl
@[simp] theorem reply_errinfo (v : Word) (s : State) : (reply v s).errinfo = s.errinfo := rfl
@[simp] theorem reply_ilen (v : Word) (s : State) : (reply v s).ilen = s.ilen := rfl
@[simp] theorem reply_olen (v : Word) (s : State) : (reply v s).olen = s.olen := rfl
@[simp] theorem reply_digits (v : Word) (s : State) : (reply v s).digits = s.digits := rfl
@[simp] theorem reply_interval (v : Word) (s : State) : (reply v s).interval = s.interval := rfl
@[simp] theorem reply_fwd (v : Word) (s : State) : (reply v s).fwd = s.fwd := rfl
@[simp] theorem reply_bwd (v : Word) (s : State) : (reply v s).bwd = s.bwd := rfl
@[simp] theorem reply_keyh (v : Word) (s : State) : (reply v s).keyh = s.keyh := rfl
@[simp] theorem reply_ctr (v : Word) (s : State) : (reply v s).ctr = s.ctr := rfl
@[simp] theorem reply_tovr (v : Word) (s : State) : (reply v s).tovr = s.tovr := rfl
@[simp] theorem reply_rtime (v : Word) (s : State) : (reply v s).rtime = s.rtime := rfl
@[simp] theorem reply_rctr (v : Word) (s : State) : (reply v s).rctr = s.rctr := rfl
@[simp] theorem reply_rtrunc (v : Word) (s : State) : (reply v s).rtrunc = s.rtrunc := rfl
@[simp] theorem reply_rmod (v : Word) (s : State) : (reply v s).rmod = s.rmod := rfl
@[simp] theorem reply_rdly (v : Word) (s : State) : (reply v s).rdly = s.rdly := rfl
@[simp] theorem reply_ibuf (v : Word) (s : State) : (reply v s).ibuf = s.ibuf := rfl
@[simp] theorem reply_obuf (v : Word) (s : State) : (reply v s).obuf = s.obuf := rfl
@[simp] theorem reply_phase (v : Word) (s : State) : (reply v s).phase = s.phase := rfl
@[simp] theorem reply_pending (v : Word) (s : State) : (reply v s).pending = s.pending := rfl
@[simp] theorem reply_resp (v : Word) (s : State) : (reply v s).resp = s.resp := rfl
@[simp] theorem reply_clk (v : Word) (s : State) : (reply v s).clk = s.clk := rfl
@[simp] theorem reply_t (v : Word) (s : State) : (reply v s).t = s.t := rfl
@[simp] theorem reply_start (v : Word) (s : State) : (reply v s).start = s.start := rfl
@[simp] theorem reply_n (v : Word) (s : State) : (reply v s).n = s.n := rfl
@[simp] theorem reply_i (v : Word) (s : State) : (reply v s).i = s.i := rfl
@[simp] theorem reply_hit (v : Word) (s : State) : (reply v s).hit = s.hit := rfl
@[simp] theorem reply_schedule (v : Word) (s : State) : (reply v s).schedule = s.schedule := rfl
@[simp] theorem reply_rdata (v : Word) (s : State) : (reply v s).rdata = v := rfl
@[simp] theorem reply_portLog (v : Word) (s : State) : (reply v s).portLog = s.portLog := rfl
@[simp] theorem reply_draws (v : Word) (s : State) : (reply v s).draws = s.draws := rfl
@[simp] theorem reply_epoch (v : Word) (s : State) : (reply v s).epoch = s.epoch := rfl

/-! ### resetRegs -/

@[simp] theorem resetRegs_cfg (s : State) : (resetRegs s).cfg = s.cfg := rfl
@[simp] theorem resetRegs_irqen (s : State) : (resetRegs s).irqen = State.reset.irqen := rfl
@[simp] theorem resetRegs_clksel (s : State) : (resetRegs s).clksel = State.reset.clksel := rfl
@[simp] theorem resetRegs_done (s : State) : (resetRegs s).done = State.reset.done := rfl
@[simp] theorem resetRegs_ovr (s : State) : (resetRegs s).ovr = State.reset.ovr := rfl
@[simp] theorem resetRegs_matched (s : State) : (resetRegs s).matched = State.reset.matched := rfl
@[simp] theorem resetRegs_errcode (s : State) : (resetRegs s).errcode = State.reset.errcode := rfl
@[simp] theorem resetRegs_errinfo (s : State) : (resetRegs s).errinfo = State.reset.errinfo := rfl
@[simp] theorem resetRegs_ilen (s : State) : (resetRegs s).ilen = State.reset.ilen := rfl
@[simp] theorem resetRegs_olen (s : State) : (resetRegs s).olen = State.reset.olen := rfl
@[simp] theorem resetRegs_digits (s : State) : (resetRegs s).digits = State.reset.digits := rfl
@[simp] theorem resetRegs_interval (s : State) : (resetRegs s).interval = State.reset.interval := rfl
@[simp] theorem resetRegs_fwd (s : State) : (resetRegs s).fwd = State.reset.fwd := rfl
@[simp] theorem resetRegs_bwd (s : State) : (resetRegs s).bwd = State.reset.bwd := rfl
@[simp] theorem resetRegs_keyh (s : State) : (resetRegs s).keyh = State.reset.keyh := rfl
@[simp] theorem resetRegs_ctr (s : State) : (resetRegs s).ctr = State.reset.ctr := rfl
@[simp] theorem resetRegs_tovr (s : State) : (resetRegs s).tovr = State.reset.tovr := rfl
@[simp] theorem resetRegs_rtime (s : State) : (resetRegs s).rtime = State.reset.rtime := rfl
@[simp] theorem resetRegs_rctr (s : State) : (resetRegs s).rctr = State.reset.rctr := rfl
@[simp] theorem resetRegs_rtrunc (s : State) : (resetRegs s).rtrunc = State.reset.rtrunc := rfl
@[simp] theorem resetRegs_rmod (s : State) : (resetRegs s).rmod = State.reset.rmod := rfl
@[simp] theorem resetRegs_rdly (s : State) : (resetRegs s).rdly = State.reset.rdly := rfl
@[simp] theorem resetRegs_ibuf (s : State) : (resetRegs s).ibuf = s.ibuf := rfl
@[simp] theorem resetRegs_obuf (s : State) : (resetRegs s).obuf = s.obuf := rfl
@[simp] theorem resetRegs_phase (s : State) : (resetRegs s).phase = State.reset.phase := rfl
@[simp] theorem resetRegs_pending (s : State) : (resetRegs s).pending = State.reset.pending := rfl
@[simp] theorem resetRegs_resp (s : State) : (resetRegs s).resp = State.reset.resp := rfl
@[simp] theorem resetRegs_clk (s : State) : (resetRegs s).clk = State.reset.clk := rfl
@[simp] theorem resetRegs_t (s : State) : (resetRegs s).t = State.reset.t := rfl
@[simp] theorem resetRegs_start (s : State) : (resetRegs s).start = State.reset.start := rfl
@[simp] theorem resetRegs_n (s : State) : (resetRegs s).n = State.reset.n := rfl
@[simp] theorem resetRegs_i (s : State) : (resetRegs s).i = State.reset.i := rfl
@[simp] theorem resetRegs_hit (s : State) : (resetRegs s).hit = State.reset.hit := rfl
@[simp] theorem resetRegs_schedule (s : State) : (resetRegs s).schedule = s.schedule := rfl
@[simp] theorem resetRegs_rdata (s : State) : (resetRegs s).rdata = s.rdata := rfl
@[simp] theorem resetRegs_portLog (s : State) : (resetRegs s).portLog = s.portLog := rfl
@[simp] theorem resetRegs_draws (s : State) : (resetRegs s).draws = s.draws := rfl
@[simp] theorem resetRegs_epoch (s : State) : (resetRegs s).epoch = s.epoch := rfl

end Sys2Proof.Machine
end

