-- ==== Sys2Proof/Laws/Memory.lean ====
section
/-! SUPPORT. The laws of the buffers: a read after a write, and the canonical form under every memory operation. -/

namespace Sys2Proof.Machine

/-! ### A read after a write -/

theorem Memory.read_write (m : Memory) (a b : Nat) (v : Byte) :
    (m.write a v).read b = if b = a then some v else m.read b := by
  induction m with
  | nil => simp [Memory.write, Memory.read]
  | cons p m ih =>
    obtain ⟨c, w⟩ := p
    simp only [Memory.write]
    split
    · rfl
    · split
      · next h => subst h; by_cases h : b = a <;> simp [Memory.read, h]
      · next h =>
        simp only [Memory.read, ih]
        by_cases hb : b = c
        · subst hb; simp [Ne.symm h]
        · simp [hb]

theorem Memory.read_writeList (m : Memory) (a b : Nat) (vs : List Byte) :
    (m.writeList a vs).read b = if a ≤ b ∧ b < a + vs.length then some (vs.getD (b - a) 0) else m.read b := by
  induction vs generalizing m a with
  | nil => simp [Memory.writeList]
  | cons v vs ih =>
    simp only [Memory.writeList, ih, Memory.read_write, List.length_cons]
    by_cases h1 : a + 1 ≤ b ∧ b < a + 1 + vs.length
    · have h2 : a ≤ b ∧ b < a + (vs.length + 1) := by omega
      obtain ⟨k, rfl⟩ : ∃ k, b = a + 1 + k := ⟨b - (a + 1), by omega⟩
      have e1 : a + 1 + k - (a + 1) = k := by omega
      have e2 : a + 1 + k - a = k + 1 := by omega
      simp [h1, h2, e1, e2]
    · by_cases h3 : b = a
      · subst h3; simp
      · have h2 : ¬ (a ≤ b ∧ b < a + (vs.length + 1)) := by omega
        rw [if_neg h1, if_neg h2, if_neg h3]

/-! ### The canonical form -/

theorem Memory.wfFrom_mono {cap lo lo' : Nat} {m : Memory} (h : lo' ≤ lo) (hm : Memory.wfFrom cap lo m = true) :
    Memory.wfFrom cap lo' m = true := by
  cases m with
  | nil => rfl
  | cons p m =>
    simp only [Memory.wfFrom, Bool.and_eq_true, Nat.ble_eq] at hm ⊢
    exact ⟨⟨h.trans hm.1.1, hm.1.2⟩, hm.2⟩

theorem Memory.wfFrom_write {cap lo : Nat} {m : Memory} {a : Nat} (v : Byte) (hlo : lo ≤ a) (ha : a < cap)
    (hm : Memory.wfFrom cap lo m = true) : Memory.wfFrom cap lo (m.write a v) = true := by
  induction m generalizing lo with
  | nil => simp [Memory.write, Memory.wfFrom, hlo, ha]
  | cons p m ih =>
    obtain ⟨b, w⟩ := p
    simp only [Memory.wfFrom, Bool.and_eq_true, Nat.ble_eq, Nat.blt_eq] at hm
    simp only [Memory.write]
    split
    · simp only [Memory.wfFrom, Bool.and_eq_true, Nat.ble_eq, Nat.blt_eq]
      exact ⟨⟨hlo, ha⟩, ⟨by omega, hm.1.2⟩, hm.2⟩
    · split
      · next h => subst h; simp only [Memory.wfFrom, Bool.and_eq_true, Nat.ble_eq, Nat.blt_eq]; exact ⟨⟨hlo, ha⟩, hm.2⟩
      · simp only [Memory.wfFrom, Bool.and_eq_true, Nat.ble_eq, Nat.blt_eq]
        exact ⟨hm.1, ih (by omega) hm.2⟩

/-- Writing one byte inside the buffer keeps the canonical form. -/
theorem Memory.wf_write {cap : Nat} {m : Memory} {a : Nat} (v : Byte) (ha : a < cap) (hm : Memory.wf cap m = true) :
    Memory.wf cap (m.write a v) = true :=
  Memory.wfFrom_write v (Nat.zero_le a) ha hm

/-- Writing a byte string inside the buffer keeps the canonical form. -/
theorem Memory.wf_writeList {cap : Nat} {m : Memory} {a : Nat} {vs : List Byte} (ha : a + vs.length ≤ cap)
    (hm : Memory.wf cap m = true) : Memory.wf cap (m.writeList a vs) = true := by
  induction vs generalizing m a with
  | nil => exact hm
  | cons v vs ih =>
    simp only [List.length_cons] at ha
    exact ih (by omega) (Memory.wf_write v (by omega) hm)

/-- The empty buffer of a power-on is in canonical form. -/
theorem Memory.wf_nil (cap : Nat) : Memory.wf cap [] = true := rfl

/-! ### Bytes of the state -/

/-- Reading OBUF after a byte string was written from index 0. -/
theorem obufByte_writeList {s t : State} {out : List Byte} (ho : t.obuf = s.obuf.writeList 0 out)
    (he : t.epoch = s.epoch) (k : Nat) :
    t.obufByte k = if k < out.length then out.getD k 0 else s.obufByte k := by
  simp only [State.obufByte, State.unwritten, ho, he, Memory.read_writeList]
  by_cases h : k < out.length <;> simp [h]

/-- OBUF reads the same where list and power-on count are the same. -/
theorem obufByte_congr {s t : State} (ho : t.obuf = s.obuf) (he : t.epoch = s.epoch) (k : Nat) :
    t.obufByte k = s.obufByte k := by
  simp only [State.obufByte, State.unwritten, ho, he]

/-- IBUF reads the same where list and power-on count are the same. -/
theorem ibufByte_congr {s t : State} (ho : t.ibuf = s.ibuf) (he : t.epoch = s.epoch) (k : Nat) :
    t.ibufByte k = s.ibufByte k := by
  simp only [State.ibufByte, State.unwritten, ho, he]

/-- The byte-string operand is the same where ILEN and IBUF are. -/
theorem input_congr {s t : State} (hl : t.ilen = s.ilen) (ho : t.ibuf = s.ibuf) (he : t.epoch = s.epoch) :
    t.input = s.input := by
  simp only [State.input, hl, funext (ibufByte_congr ho he)]

@[simp] theorem input_length (s : State) : s.input.length = s.ilen.toNat := by simp [State.input]

end Sys2Proof.Machine
end

