-- ==== Sys2Proof/Laws/Bytes.lean ====
section
/-! SUPPORT. The laws of register pairs, byte strings and codes. -/

namespace Sys2Proof.Machine

/-! ### Register pairs -/

theorem Pair.val_eq (p : Pair) : p.val = p.hi.toNat * 2 ^ 32 + p.lo.toNat := by
  rw [Pair.val, ← Nat.shiftLeft_add_eq_or_of_lt p.lo.isLt, Nat.shiftLeft_eq]

theorem Pair.val_lt (p : Pair) : p.val < 2 ^ 64 := by
  rw [Pair.val_eq]
  have h1 := p.hi.isLt
  have h2 := p.lo.isLt
  omega

/-- A 64-bit value written to a pair reads back. -/
theorem Pair.val_ofNat {v : Nat} (h : v < 2 ^ 64) : (Pair.ofNat v).val = v := by
  rw [Pair.val_eq]
  simp only [Pair.ofNat, BitVec.toNat_ofNat, Nat.shiftRight_eq_div_pow]
  omega

theorem Pair.ofNat_val (p : Pair) : Pair.ofNat p.val = p := by
  obtain ⟨lo, hi⟩ := p
  have h1 := hi.isLt
  have h2 := lo.isLt
  simp only [Pair.ofNat, Pair.val_eq, Nat.shiftRight_eq_div_pow, Pair.mk.injEq]
  constructor <;> apply BitVec.eq_of_toNat_eq <;> simp only [BitVec.toNat_ofNat] <;> omega

/-- Two pairs with the same 64-bit value are the same registers. -/
theorem Pair.val_inj {p q : Pair} (h : p.val = q.val) : p = q := by
  rw [← Pair.ofNat_val p, h, Pair.ofNat_val]

/-! ### Byte strings -/

theorem be8_eq (c : Nat) : be8 c = (List.range 8).map (be8Byte c) := by
  apply List.map_congr_left
  intro k _
  apply BitVec.eq_of_toNat_eq
  simp only [be8Byte, BitVec.toNat_ofNat, Nat.shiftRight_eq_div_pow]
  rw [show (0xFF : Nat) = 2 ^ 8 - 1 from rfl, Nat.and_two_pow_sub_one_eq_mod]
  omega

@[simp] theorem be8_length (c : Nat) : (be8 c).length = 8 := by simp [be8]

theorem be8_getD (c : Nat) {k : Nat} (h : k < 8) : (be8 c).getD k 0 = be8Byte c k := by
  rw [be8_eq]; simp [List.getD, h]

/-- A request as the machine issues it is the spec's request for that counter. -/
theorem requestFor_eq (s : State) (c : Nat) : (⟨s.keyh, be8 c⟩ : HmacRequest) = requestFor s c := by
  rw [be8_eq]; rfl

theorem requestFor_wellFormed (s : State) (c : Nat) : (requestFor s c).wellFormed = true := by
  simp [requestFor, HmacRequest.wellFormed]

@[simp] theorem decStr_length (v w : Nat) : (decStr v w).length = w := by simp [decStr]

@[simp] theorem codeText_length (n w : Nat) : (codeText n w).length = w := by simp [codeText]

theorem decStr_getD (v w k : Nat) (h : k < w) : (decStr v w).getD k 0 = digitByte v w k := by
  simp [decStr, digitByte, List.getD, h]

theorem digitByte_isDigit (v w k : Nat) : 0x30 ≤ (digitByte v w k).toNat ∧ (digitByte v w k).toNat ≤ 0x39 := by
  simp only [digitByte, BitVec.toNat_ofNat]
  have := Nat.mod_lt (v / 10 ^ (w - 1 - k)) (show 0 < 10 by omega)
  omega

/-! ### Dynamic truncation -/

theorem dynTrunc_eq (d : List Byte) : dynTrunc d = truncated d := by
  have hl : d.getLastD 0 = d.getD (d.length - 1) 0 := by
    cases d with
    | nil => rfl
    | cons a d => simp [List.getD, List.getLastD_eq_getLast?, List.getLast?_eq_getElem?]
  have ho : ∀ x : Nat, x &&& 0x0F = x % 16 := fun x => Nat.and_two_pow_sub_one_eq_mod x 4
  have hm : ∀ x : Nat, x &&& 0x7FFFFFFF = x % 2 ^ 31 := fun x => Nat.and_two_pow_sub_one_eq_mod x 31
  simp only [dynTrunc, truncated, beu32, hl, ho, hm, List.getD, List.getElem?_take, List.getElem?_drop]
  simp

theorem truncated_lt (d : List Byte) : truncated d < 2 ^ 31 := Nat.mod_lt _ (by norm_num)

theorem codeText_eq (d : List Byte) (w : Nat) : codeText (dynTrunc d) w = codeOf d w := by
  rw [dynTrunc_eq]; rfl

/-! ### Time -/

theorem sampleValue_toNat (s : State) : (sampleValue s).toNat = s.sample := by
  unfold sampleValue State.sample
  split
  · rw [BitVec.toNat_ofNat, Nat.mod_eq_of_lt s.tovr.val_lt]
  · rfl

theorem sample_lt (s : State) : s.sample < 2 ^ 64 := by
  rw [← sampleValue_toNat]; exact (sampleValue s).isLt

/-- The largest time step (42_counter.md R154; notes/assumptions/11.md on that rule's bound 2^54). -/
theorem div_interval_le {x : Nat} (iv : Word) (h : x < 2 ^ 64) : x / (iv.toNat * 1000) ≤ 18446744073709551 := by
  rcases Nat.eq_zero_or_pos iv.toNat with h0 | h0
  · simp [h0]
  · calc x / (iv.toNat * 1000) ≤ x / 1000 := Nat.div_le_div_left (by omega) (by omega)
      _ ≤ 18446744073709551 := by omega

theorem sampleStep_le (s : State) : s.sampleStep ≤ 18446744073709551 := div_interval_le _ (sample_lt s)

theorem timeStep_le (s : State) : s.timeStep ≤ 18446744073709551 := div_interval_le _ s.t.isLt

@[simp] theorem takeSample_timeStep (s : State) : (takeSample s).timeStep = s.sampleStep := by
  simp only [State.timeStep, State.intervalMs, takeSample_t, takeSample_interval, sampleValue_toNat]
  rfl

/-- The sample written to RTIME reads back. -/
theorem sampleValue_pair (s : State) : (Pair.ofNat (sampleValue s).toNat).val = s.sample := by
  rw [Pair.val_ofNat (sampleValue s).isLt, sampleValue_toNat]

/-- The time step written to RCTR reads back. -/
theorem sampleStep_pair (s : State) : (Pair.ofNat s.sampleStep).val = s.sampleStep :=
  Pair.val_ofNat (by have := sampleStep_le s; omega)

theorem intervalMs_lt (s : State) : s.intervalMs < 2 ^ 42 := by
  have := s.interval.isLt
  unfold State.intervalMs
  omega

/-- The delay written to RDLY reads back. -/
theorem boundaryDelay_pair (s : State) : (Pair.ofNat s.boundaryDelay).val = s.boundaryDelay :=
  Pair.val_ofNat (by have := intervalMs_lt s; unfold State.boundaryDelay; omega)

/-! ### Parameters -/

/-- The bounds of BUF_BYTES (00_scope.md R9). -/
theorem bufBytes_bounds {c : Config} (h : c.wellFormed = true) :
    128 ≤ c.bufBytes ∧ c.bufBytes ≤ 4096 ∧ c.bufBytes % 4 = 0 := by
  simp only [Config.wellFormed, Config.bufBytesLegal, Bool.and_eq_true, Nat.ble_eq, beq_iff_eq] at h
  omega

end Sys2Proof.Machine
end

