-- ==== Sys2Proof/Laws/Operations.lean ====
section
/-! SUPPORT. What each shared operation and each command can do, said once. -/

namespace Sys2Proof.Machine

/-! ### The shared operations -/

/-- A command's checks: the first failed one raises InvalidOperand, else the body runs. -/
theorem withChecks_cases (i : Instr) (body : State → State) (s : State) :
    (∃ off, firstFailed (operandChecks i s) = some off ∧ withChecks i body s = raise .invalidOperand off s) ∨
    (firstFailed (operandChecks i s) = none ∧ withChecks i body s = body s) := by
  unfold withChecks
  cases h : firstFailed (operandChecks i s) with
  | none => exact .inr ⟨rfl, rfl⟩
  | some off => exact .inl ⟨off, rfl, rfl⟩

theorem withChecks_pass {i : Instr} {s : State} (body : State → State) (h : firstFailed (operandChecks i s) = none) :
    withChecks i body s = body s := by
  simp [withChecks, h]

theorem withChecks_fail {i : Instr} {s : State} {off : Word} (body : State → State)
    (h : firstFailed (operandChecks i s) = some off) : withChecks i body s = raise .invalidOperand off s := by
  simp [withChecks, h]

/-- The continuation with an answer: ProviderFailure, or the rest with an admitted digest; the answer is used up. -/
theorem withAnswer_cases (r : HmacResponse) (rest : List Byte → State → State) (s : State) :
    (∃ info, checkDigest r = .error info ∧ withAnswer r rest s = raise .providerFailure info { s with resp := none }) ∨
    (∃ d, checkDigest r = .ok d ∧ withAnswer r rest s = rest d { s with resp := none }) := by
  unfold withAnswer
  cases h : checkDigest r with
  | error info => exact .inl ⟨info, rfl, rfl⟩
  | ok d => exact .inr ⟨d, rfl, rfl⟩

theorem suspended_none {s : State} (first : State → State) (rest : List Byte → State → State) (h : s.resp = none) :
    suspended first rest s = first s := by
  simp [suspended, h]

theorem suspended_some {s : State} {r : HmacResponse} (first : State → State) (rest : List Byte → State → State)
    (h : s.resp = some r) : suspended first rest s = withAnswer r rest s := by
  simp [suspended, h]

theorem digestLength_iff (n : Nat) : digestLength n = true ↔ n = 20 ∨ n = 32 ∨ n = 64 := by
  simp [digestLength, or_assoc]

theorem checkDigest_ok {d : List Byte} (h : d.length = 20 ∨ d.length = 32 ∨ d.length = 64) :
    checkDigest (.ok d) = .ok d := by
  simp [checkDigest, (digestLength_iff _).2 h]

/-- A command continues with an admitted digest. -/
theorem suspended_digest {s : State} {d : List Byte} (first : State → State) (rest : List Byte → State → State)
    (h : s.resp = some (.ok d)) (hd : d.length = 20 ∨ d.length = 32 ∨ d.length = 64) :
    suspended first rest s = rest d { s with resp := none } := by
  rw [suspended_some first rest h, withAnswer, checkDigest_ok hd]

/-- An answer is taken by the outstanding request it belongs to, or discarded. -/
theorem deliver_cases (k : Nat) (s : State) :
    deliver k s = s ∨
    ∃ q op, s.pending = some q ∧ s.phase = .waiting op ∧ k + 1 = s.portLog.length ∧
      deliver k s = { s with pending := none, phase := .running op, resp := some (hmacOf s.cfg q) } := by
  unfold deliver
  split
  · next q op hq hp =>
    split
    · next hk => exact .inr ⟨q, op, hq, hp, hk, rfl⟩
    · exact .inl rfl
  · exact .inl rfl

theorem deliver_taken {s : State} {q : HmacRequest} {op : Op} {k : Nat} (hq : s.pending = some q)
    (hp : s.phase = .waiting op) (hk : k + 1 = s.portLog.length) :
    deliver k s = { s with pending := none, phase := .running op, resp := some (hmacOf s.cfg q) } := by
  simp [deliver, hq, hp, hk]

theorem deliver_discarded {s : State} {k : Nat} (h : s.pending = none ∨ k + 1 ≠ s.portLog.length) :
    deliver k s = s := by
  rcases deliver_cases k s with h' | ⟨q, op, hq, _, hk, _⟩
  · exact h'
  · rcases h with h | h
    · simp [h] at hq
    · exact absurd hk h

/-- BUSY and the command in the engine are two views of the phase. -/
theorem current_none (s : State) : s.current = none ↔ s.busy = false := by
  unfold State.current State.busy
  cases s.phase <;> simp

theorem busy_false (s : State) : s.busy = false ↔ s.phase = .idle := by
  unfold State.busy
  cases s.phase <;> simp

theorem busy_of_running {s : State} {op : Op} (h : s.phase = .running op) : s.busy = true := by simp [State.busy, h]

theorem busy_of_waiting {s : State} {op : Op} (h : s.phase = .waiting op) : s.busy = true := by simp [State.busy, h]

theorem abort_idle {s : State} (h : s.busy = false) : abort s = s := by
  simp [abort, (current_none s).2 h]

theorem abort_busy {s : State} {op : Op} (h : s.current = some op) : abort s = endAborted op s := by
  simp [abort, h]

/-- A soft reset resets the registers of a state that differs from s at most in OBUF and the draws. -/
theorem softReset_cases (s : State) :
    (s.busy = false ∧ softReset s = resetRegs s) ∨
    ∃ op, s.current = some op ∧ softReset s = resetRegs { looseObuf op s with draws := s.draws + 1 } := by
  unfold softReset
  cases h : s.current with
  | none => exact .inl ⟨(current_none s).1 h, rfl⟩
  | some op => exact .inr ⟨op, rfl, rfl⟩

/-- What leaving a byte string in OBUF does to the results. -/
theorem finishWith_spec (out : List Byte) (s : State) (h : out.length < 2 ^ 32) :
    EndedOk (finishWith out s) ∧ (finishWith out s).olen.toNat = out.length ∧
    ∀ k, (finishWith out s).obufByte k = if k < out.length then out.getD k 0 else s.obufByte k := by
  refine ⟨⟨rfl, rfl, rfl⟩, ?_, fun k =>
    obufByte_writeList (s := s) (t := finishWith out s) (out := out) rfl rfl k⟩
  show (BitVec.ofNat 32 out.length).toNat = _
  rw [BitVec.toNat_ofNat, Nat.mod_eq_of_lt h]

/-- What a code leaves: any state with the results of `emitCode` of d's truncation. -/
theorem leavesCode_of_emitCode (d : List Byte) {s u t : State} (hd : u.digits = s.digits)
    (h1 : t.rtrunc = (emitCode (dynTrunc d) u).rtrunc) (h2 : t.rmod = (emitCode (dynTrunc d) u).rmod)
    (h3 : t.olen = (emitCode (dynTrunc d) u).olen) (h4 : t.obuf = (emitCode (dynTrunc d) u).obuf) :
    LeavesCode d s t := by
  have hlt := truncated_lt d
  refine ⟨?_, ?_, by rw [h3, emitCode_olen, hd], fun k hk => ?_⟩
  · rw [h1]; simp [dynTrunc_eq]; omega
  · have := Nat.mod_le (truncated d) (10 ^ s.digits.toNat)
    rw [h2]; simp only [emitCode_rmod, dynTrunc_eq, BitVec.toNat_ofNat, hd]
    rw [Nat.mod_eq_of_lt]; omega
  · have := obufByte_writeList (s := { u with epoch := t.epoch }) (t := t)
      (out := codeText (dynTrunc d) u.digits.toNat) (by rw [h4]; rfl) rfl k
    rw [this, hd, if_pos (by simpa using hk), dynTrunc_eq]
    exact decStr_getD _ _ _ hk

/-! ### The commands -/

/-- The state exec answers; it always answers one. -/
def nextOf (i : Instr) (s : State) : State :=
  match i with
  | .nop => complete s
  | .b32enc => withChecks .b32enc b32encBody s
  | .b32dec => withChecks .b32dec b32decBody s
  | .tstep => withChecks .tstep (fun s => tstepRest (takeSample s)) s
  | .bdelay => withChecks .bdelay (fun s => bdelayRest (takeSample s)) s
  | .trunc => withChecks .trunc truncBody s
  | .hotp => suspended (withChecks .hotp hotpFirst) hotpRest s
  | .totp => suspended (withChecks .totp (fun s => totpFirst (takeSample s))) totpRest s
  | .verify => suspended (withChecks .verify verifyFirst) verifyRest s

theorem exec_eq (i : Instr) (s : State) : exec i s = .next (nextOf i s) := by cases i <;> rfl

theorem exec_next {i : Instr} {s t : State} (h : exec i s = .next t) : t = nextOf i s := by
  rw [exec_eq] at h
  injection h with h
  exact h.symm

/-- What a command's engine step can be: a failed check, an error of its own, a successful end or a request. -/
inductive Did (i : Instr) (s : State) : State → Prop where
  /-- The first failed check. -/
  | checkFailed (off : Word) (h : firstFailed (operandChecks i s) = some off) (hr : asks (.command i) = true → s.resp = none) :
      Did i s (raise .invalidOperand off s)
  /-- A text with an invalid character. -/
  | badCharacter (info : Word) (hi : i = .b32dec) : Did i s (raise .invalidCharacter info s)
  /-- A window below counter 0. -/
  | underflow (hi : i = .verify) (hr : s.resp = none) (hc : firstFailed (operandChecks i s) = none)
      (hb : s.sampleStep < s.bwd.toNat) :
      Did i s (raise .counterUnderflow 0 { takeSample s with rctr := Pair.ofNat s.sampleStep })
  /-- A failed or malformed answer. -/
  | badAnswer (info : Word) (r : HmacResponse) (hi : asks (.command i) = true) (hr : s.resp = some r)
      (hd : checkDigest r = .error info) : Did i s (raise .providerFailure info { s with resp := none })
  /-- NOP. -/
  | nop (hi : i = .nop) : Did i s (complete s)
  /-- B32ENC. -/
  | encoded (hi : i = .b32enc) (hc : firstFailed (operandChecks i s) = none) :
      Did i s (finishWith (base32Encode s.input) s)
  /-- B32DEC. -/
  | decoded (hi : i = .b32dec) (hc : firstFailed (operandChecks i s) = none) (hv : firstInvalid 0 s.input = none) :
      Did i s (finishWith (base32Decode s.input) s)
  /-- TSTEP. -/
  | tstep (hi : i = .tstep) (hc : firstFailed (operandChecks i s) = none) : Did i s (tstepRest (takeSample s))
  /-- BDELAY. -/
  | bdelay (hi : i = .bdelay) (hc : firstFailed (operandChecks i s) = none) : Did i s (bdelayRest (takeSample s))
  /-- TRUNC. -/
  | trunc (hi : i = .trunc) (hc : firstFailed (operandChecks i s) = none) :
      Did i s (complete (emitCode (dynTrunc s.input) s))
  /-- HOTP's request. -/
  | hotpAsks (hi : i = .hotp) (hr : s.resp = none) (hc : firstFailed (operandChecks i s) = none) :
      Did i s (request .hotp s.ctr.val { s with rctr := s.ctr })
  /-- HOTP's code. -/
  | hotpEnds (d : List Byte) (hi : i = .hotp) (hr : s.resp = some (.ok d)) (hd : digestLength d.length = true) :
      Did i s (complete (emitCode (dynTrunc d) { s with resp := none }))
  /-- TOTP's request. -/
  | totpAsks (hi : i = .totp) (hr : s.resp = none) (hc : firstFailed (operandChecks i s) = none) :
      Did i s (request .totp s.sampleStep { takeSample s with rctr := Pair.ofNat s.sampleStep })
  /-- TOTP's code and delay. -/
  | totpEnds (d : List Byte) (hi : i = .totp) (hr : s.resp = some (.ok d)) (hd : digestLength d.length = true) :
      Did i s (complete { emitCode (dynTrunc d) { s with resp := none } with rdly := Pair.ofNat s.boundaryDelay })
  /-- VERIFY's first request. -/
  | verifyAsks (hi : i = .verify) (hr : s.resp = none) (hc : firstFailed (operandChecks i s) = none)
      (hb : s.bwd.toNat ≤ s.sampleStep) :
      Did i s (request .verify (s.sampleStep - s.bwd.toNat)
        { takeSample s with
          rctr := Pair.ofNat s.sampleStep, start := s.sampleStep - s.bwd.toNat,
          n := s.fwd.toNat + s.bwd.toNat + 1, i := 0, hit := false })
  /-- VERIFY's next request. -/
  | verifyGoesOn (d : List Byte) (hi : i = .verify) (hr : s.resp = some (.ok d)) (hd : digestLength d.length = true)
      (hn : s.i + 1 < s.n) :
      Did i s (request .verify (s.start + (s.i + 1))
        { s with resp := none, hit := s.hit || codeText (dynTrunc d) s.digits.toNat == s.input, i := s.i + 1 })
  /-- VERIFY's end. -/
  | verifyEnds (d : List Byte) (hi : i = .verify) (hr : s.resp = some (.ok d)) (hd : digestLength d.length = true)
      (hn : ¬ s.i + 1 < s.n) :
      Did i s (complete
        { s with
          resp := none, hit := s.hit || codeText (dynTrunc d) s.digits.toNat == s.input,
          matched := s.hit || codeText (dynTrunc d) s.digits.toNat == s.input })

theorem checkDigest_cases (r : HmacResponse) :
    (∃ info, checkDigest r = .error info) ∨
    ∃ d, r = .ok d ∧ digestLength d.length = true ∧ checkDigest r = .ok d := by
  unfold checkDigest
  cases r with
  | fail st => exact .inl ⟨_, rfl⟩
  | ok d =>
    by_cases h : digestLength d.length = true
    · exact .inr ⟨d, rfl, h, by simp [h]⟩
    · exact .inl ⟨_, by simp only [h]; rfl⟩

/-- VERIFY's first part in terms of its sample. -/
theorem verifyFirst_eq (s : State) :
    verifyFirst s =
      if s.sampleStep < s.bwd.toNat then
        raise .counterUnderflow 0 { takeSample s with rctr := Pair.ofNat s.sampleStep }
      else
        request .verify (s.sampleStep - s.bwd.toNat)
          { takeSample s with
            rctr := Pair.ofNat s.sampleStep, start := s.sampleStep - s.bwd.toNat,
            n := s.fwd.toNat + s.bwd.toNat + 1, i := 0, hit := false } := by
  rw [← takeSample_timeStep]
  rfl

/-- The inversion of exec: a command's engine step is one of `Did`. -/
theorem nextOf_did (i : Instr) (s : State) : Did i s (nextOf i s) := by
  have checks : ∀ body : State → State, (asks (.command i) = true → s.resp = none) →
      (firstFailed (operandChecks i s) = none → Did i s (body s)) → Did i s (withChecks i body s) := by
    intro body hr h
    rcases withChecks_cases i body s with ⟨off, hf, he⟩ | ⟨hf, he⟩ <;> rw [he]
    · exact .checkFailed off hf hr
    · exact h hf
  have asked : ∀ (first : State → State) (rest : List Byte → State → State), asks (.command i) = true →
      (s.resp = none → Did i s (first s)) →
      (∀ d, s.resp = some (.ok d) → digestLength d.length = true → Did i s (rest d { s with resp := none })) →
      Did i s (suspended first rest s) := by
    intro first rest ha hf hr
    cases h : s.resp with
    | none => rw [suspended_none _ _ h]; exact hf h
    | some r =>
      rw [suspended_some _ _ h]
      rcases checkDigest_cases r with ⟨info, hc⟩ | ⟨d, rfl, hl, hc⟩ <;> simp only [withAnswer, hc]
      · exact .badAnswer info r ha h hc
      · exact hr d h hl
  cases i with
  | nop => exact .nop rfl
  | b32enc => exact checks _ (by simp [asks]) (.encoded rfl)
  | b32dec =>
    refine checks _ (by simp [asks]) fun hc => ?_
    unfold b32decBody
    split
    · exact .badCharacter _ rfl
    · next h => exact .decoded rfl hc h
  | tstep => exact checks (fun s => tstepRest (takeSample s)) (by simp [asks]) (.tstep rfl)
  | bdelay => exact checks (fun s => bdelayRest (takeSample s)) (by simp [asks]) (.bdelay rfl)
  | trunc => exact checks _ (by simp [asks]) (.trunc rfl)
  | hotp =>
    refine asked _ _ rfl (fun hr => checks _ (fun _ => hr) (.hotpAsks rfl hr)) fun d hr hd => ?_
    exact .hotpEnds d rfl hr hd
  | totp =>
    refine asked _ _ rfl (fun hr => checks _ (fun _ => hr) fun hc => ?_) fun d hr hd => ?_
    · have := Did.totpAsks rfl hr hc
      simpa [totpFirst] using this
    · exact .totpEnds d rfl hr hd
  | verify =>
    refine asked _ _ rfl (fun hr => checks _ (fun _ => hr) fun hc => ?_) fun d hr hd => ?_
    · rw [verifyFirst_eq]
      split
      · next hb => exact .underflow rfl hr hc hb
      · next hb => exact .verifyAsks rfl hr hc (by omega)
    · simp only [verifyRest, verifyNext]
      split
      · next hn => exact .verifyGoesOn d rfl hr hd hn
      · next hn => exact .verifyEnds d rfl hr hd hn

/-- The inversion of exec, from its answer. -/
theorem exec_did {i : Instr} {s t : State} (h : exec i s = .next t) : Did i s t := by
  rw [exec_next h]; exact nextOf_did i s

end Sys2Proof.Machine
end

