-- ==== Sys2Proof/Laws/Base32.lean ====
section
/-! SUPPORT. The laws of the base32 codec: the loops of 41_base32.md R133 and R136 against the bit streams of R131 and R137. -/

namespace Sys2Proof.Machine

/-! ### Values of bit ranges -/

theorem bitsValue_congr {f g : Nat → Bool} {p len : Nat} (h : ∀ q, p ≤ q → q < p + len → f q = g q) :
    bitsValue f p len = bitsValue g p len := by
  induction len with
  | zero => rfl
  | succ len ih =>
    simp only [bitsValue]
    rw [ih fun q h1 h2 => h q h1 (by omega), h (p + len) (by omega) (by omega)]

theorem bitsValue_shift (f : Nat → Bool) (p m len : Nat) :
    bitsValue (fun q => f (m + q)) p len = bitsValue f (m + p) len := by
  induction len with
  | zero => rfl
  | succ len ih => simp only [bitsValue, ih, Nat.add_assoc]

theorem bitsValue_add (f : Nat → Bool) (p a b : Nat) :
    bitsValue f p (a + b) = bitsValue f p a * 2 ^ b + bitsValue f (p + a) b := by
  induction b with
  | zero => simp [bitsValue]
  | succ b ih =>
    rw [← Nat.add_assoc]
    simp only [bitsValue, ih, pow_succ, Nat.add_assoc]
    ring

theorem bitsValue_lt (f : Nat → Bool) (p len : Nat) : bitsValue f p len < 2 ^ len := by
  induction len with
  | zero => simp [bitsValue]
  | succ len ih =>
    have := Bool.toNat_lt (f (p + len))
    simp only [bitsValue, pow_succ]
    omega

/-- The bits of a range's value are the range's bits. -/
theorem testBit_bitsValue {f : Nat → Bool} {p len j : Nat} (h : j < len) :
    (bitsValue f p len).testBit (len - 1 - j) = f (p + j) := by
  induction len generalizing j with
  | zero => omega
  | succ len ih =>
    simp only [bitsValue]
    by_cases hj : j = len
    · subst hj
      have : j + 1 - 1 - j = 0 := by omega
      rw [this, Nat.testBit_zero]
      cases hb : f (p + j) <;> simp
    · have hk : len + 1 - 1 - j = (len - 1 - j) + 1 := by omega
      rw [hk, Nat.testBit_succ, ← ih (j := j) (by omega)]
      congr 1
      cases hb : f (p + len)
      · simp
      · simp only [Bool.toNat_true]; omega

/-- The bits of a number of nb bits, most significant first. -/
def numBit (acc nb p : Nat) : Bool := acc.testBit (nb - 1 - p)

theorem bitsValue_numBit (acc : Nat) {nb p len : Nat} (h : p + len ≤ nb) :
    bitsValue (numBit acc nb) p len = acc >>> (nb - p - len) % 2 ^ len := by
  induction len with
  | zero => simp [bitsValue, Nat.mod_one]
  | succ len ih =>
    simp only [bitsValue, ih (by omega), numBit]
    have e1 : nb - p - len = (nb - p - (len + 1)) + 1 := by omega
    have e2 : nb - 1 - (p + len) = nb - p - (len + 1) := by omega
    rw [e1, e2, Nat.shiftRight_succ, pow_succ, Nat.testBit_eq_decide_div_mod_eq, ← Nat.shiftRight_eq_div_pow]
    generalize acc >>> (nb - p - (len + 1)) = x
    have hx : (decide (x % 2 = 1)).toNat = x % 2 := by
      rcases Nat.mod_two_eq_zero_or_one x with h | h <;> simp [h]
    rw [hx, Nat.mul_comm (2 ^ len) 2, Nat.mod_mul]
    omega

/-- The unread bits of a loop's accumulator, then the bits of the rest of the stream. -/
def queueBit (acc nb : Nat) (rest : Nat → Bool) (p : Nat) : Bool := if p < nb then numBit acc nb p else rest (p - nb)

theorem queueBit_zero (acc : Nat) (rest : Nat → Bool) : queueBit acc 0 rest = rest := by
  funext p; simp [queueBit]

theorem bitsValue_queueBit {acc nb : Nat} (rest : Nat → Bool) {p len : Nat} (h : p + len ≤ nb) :
    bitsValue (queueBit acc nb rest) p len = acc >>> (nb - p - len) % 2 ^ len := by
  rw [← bitsValue_numBit acc h]
  exact bitsValue_congr fun q _ h2 => by simp [queueBit, show q < nb by omega]

/-- Taking the first m bits off the accumulator. -/
theorem queueBit_drop {acc nb m : Nat} (rest : Nat → Bool) (h : m ≤ nb) (p : Nat) :
    queueBit (acc &&& ((1 <<< (nb - m)) - 1)) (nb - m) rest p = queueBit acc nb rest (m + p) := by
  have e : (1 <<< (nb - m)) - 1 = 2 ^ (nb - m) - 1 := by rw [Nat.shiftLeft_eq, one_mul]
  simp only [queueBit, numBit, e, Nat.and_two_pow_sub_one_eq_mod]
  by_cases hp : p < nb - m
  · have h1 : m + p < nb := by omega
    have h2 : nb - 1 - (m + p) = nb - m - 1 - p := by omega
    simp [hp, h1, h2, Nat.testBit_mod_two_pow]
    omega
  · have h1 : ¬ m + p < nb := by omega
    have h2 : m + p - nb = p - (nb - m) := by omega
    simp [hp, h1, h2]

/-- Appending w bits of a value to the accumulator. -/
theorem queueBit_push {acc nb w v : Nat} {rest rest' : Nat → Bool} (hv : v < 2 ^ w)
    (hr : ∀ p, rest' p = if p < w then v.testBit (w - 1 - p) else rest (p - w)) :
    queueBit ((acc <<< w) ||| v) (nb + w) rest = queueBit acc nb rest' := by
  funext p
  simp only [queueBit, numBit, hr, Nat.testBit_or, Nat.testBit_shiftLeft]
  by_cases h1 : p < nb
  · have h2 : p < nb + w := by omega
    have h3 : nb + w - 1 - p ≥ w := by omega
    have h4 : nb + w - 1 - p - w = nb - 1 - p := by omega
    have h5 : v.testBit (nb + w - 1 - p) = false := Nat.testBit_lt_two_pow (hv.trans_le (Nat.pow_le_pow_right (by omega) h3))
    simp [h1, h2, h3, h4, h5]
  · by_cases h2 : p < nb + w
    · have h3 : ¬ nb + w - 1 - p ≥ w := by omega
      have h4 : p - nb < w := by omega
      have h5 : nb + w - 1 - p = w - 1 - (p - nb) := by omega
      simp only [h1, h2, h4, if_true, if_false, decide_eq_false h3, Bool.false_and, Bool.false_or]
      rw [h5]
    · have h4 : ¬ p - nb < w := by omega
      have h5 : p - nb - w = p - (nb + w) := by omega
      simp [h1, h2, h4, h5]

theorem and_mask_lt (acc nb : Nat) : acc &&& ((1 <<< nb) - 1) < 2 ^ nb := by
  rw [Nat.shiftLeft_eq, one_mul, Nat.and_two_pow_sub_one_eq_mod]
  exact Nat.mod_lt _ (Nat.two_pow_pos nb)

theorem streamBit_cons (b : Byte) (bs : List Byte) (p : Nat) :
    streamBit (b :: bs) p = if p < 8 then b.toNat.testBit (8 - 1 - p) else streamBit bs (p - 8) := by
  unfold streamBit
  by_cases h : p < 8
  · have h1 : p / 8 = 0 := by omega
    have h2 : p % 8 = p := by omega
    simp [h, h1, h2, BitVec.testBit_toNat]
  · obtain ⟨q, rfl⟩ : ∃ q, p = q + 8 := ⟨p - 8, by omega⟩
    have h1 : (q + 8) / 8 = q / 8 + 1 := by omega
    have h2 : (q + 8) % 8 = q % 8 := by omega
    simp [h1, h2]

/-! ### B32ENC -/

/-- The inner loop emits every whole symbol of the accumulator and leaves fewer than 5 bits. -/
theorem drain_spec (acc nb fuel : Nat) (hf : nb ≤ fuel) :
    (drain fuel acc nb).2 = nb % 5 ∧ (drain fuel acc nb).1.length = nb / 5 ∧
    ∀ j, j < nb / 5 →
      (drain fuel acc nb).1.getD j 0 = alph (acc >>> (nb - 5 * j - 5) % 2 ^ 5) := by
  induction fuel generalizing nb with
  | zero =>
    have : nb = 0 := by omega
    subst this
    simp [drain]
  | succ fuel ih =>
    simp only [drain]
    split
    · next h =>
      obtain ⟨h1, h2, h3⟩ := ih (nb - 5) (by omega)
      refine ⟨by rw [h1]; omega, by simp only [List.length_cons, h2]; omega, fun j hj => ?_⟩
      cases j with
      | zero => rw [List.getD_cons_zero]; exact congrArg alph (Nat.and_two_pow_sub_one_eq_mod _ 5)
      | succ j =>
        rw [List.getD_cons_succ, h3 j (by omega)]
        congr 3
        omega
    · next h => exact ⟨by simp; omega, by simp; omega, fun j hj => by omega⟩

theorem encodeFrom_spec (bs : List Byte) (acc nb : Nat) (hnb : nb < 5) (hacc : acc < 2 ^ nb) :
    (encodeFrom acc nb bs).length = (8 * bs.length + nb + 4) / 5 ∧
    ∀ j, j < (8 * bs.length + nb + 4) / 5 →
      (encodeFrom acc nb bs).getD j 0 = alph (bitsValue (queueBit acc nb (streamBit bs)) (5 * j) 5) := by
  induction bs generalizing acc nb with
  | nil =>
    simp only [encodeFrom]
    split
    · next h =>
      refine ⟨by simp; omega, fun j hj => ?_⟩
      have hj : j = 0 := by simp only [List.length_nil] at hj; omega
      subst hj
      have h0 : bitsValue (queueBit acc nb (streamBit [])) (0 + nb) (5 - nb) = 0 := by
        have hz : ∀ len p, nb ≤ p → bitsValue (queueBit acc nb (streamBit [])) p len = 0 := by
          intro len
          induction len with
          | zero => intros; rfl
          | succ len ih => intro p hp; simp [bitsValue, ih p hp, queueBit, streamBit, show ¬ p + len < nb by omega]
        exact hz _ _ (by omega)
      have h1 : bitsValue (queueBit acc nb (streamBit [])) 0 nb = acc := by
        rw [bitsValue_queueBit _ (by omega)]
        simp [Nat.mod_eq_of_lt hacc]
      have h2 := bitsValue_add (queueBit acc nb (streamBit [])) 0 nb (5 - nb)
      rw [show nb + (5 - nb) = 5 by omega, h0, h1] at h2
      have h3 : acc * 2 ^ (5 - nb) < 2 ^ 5 := by
        calc acc * 2 ^ (5 - nb) < 2 ^ nb * 2 ^ (5 - nb) := Nat.mul_lt_mul_of_pos_right hacc (Nat.two_pow_pos _)
          _ = 2 ^ 5 := by rw [← pow_add]; congr 1; omega
      simp only [Nat.mul_zero, h2, Nat.add_zero, List.getD_cons_zero]
      congr 1
      rw [show (0x1F : Nat) = 2 ^ 5 - 1 from rfl, Nat.and_two_pow_sub_one_eq_mod, Nat.shiftLeft_eq, Nat.mod_eq_of_lt h3]
    · next h =>
      have hn : nb = 0 := by omega
      subst hn
      exact ⟨by simp, fun j hj => by simp at hj⟩
  | cons b bs ih =>
    have hpush : queueBit ((acc <<< 8) ||| b.toNat) (nb + 8) (streamBit bs) = queueBit acc nb (streamBit (b :: bs)) :=
      queueBit_push b.isLt (streamBit_cons b bs)
    obtain ⟨d1, d2, d3⟩ := drain_spec ((acc <<< 8) ||| b.toNat) (nb + 8) (nb + 8) (Nat.le_refl _)
    simp only [encodeFrom, d1]
    generalize hA : (acc <<< 8) ||| b.toNat = A at *
    obtain ⟨e1, e2⟩ := ih (A &&& ((1 <<< ((nb + 8) % 5)) - 1)) ((nb + 8) % 5) (Nat.mod_lt _ (by omega)) (and_mask_lt _ _)
    have hlen : (drain (nb + 8) A (nb + 8)).1.length = (nb + 8) / 5 := d2
    refine ⟨by simp only [List.length_append, hlen, e1, List.length_cons]; omega, fun j hj => ?_⟩
    rw [← hpush]
    by_cases hj1 : j < (nb + 8) / 5
    · rw [List.getD_append _ _ _ _ (by rw [hlen]; exact hj1), d3 j hj1, bitsValue_queueBit _ (by omega)]
    · rw [List.getD_append_right _ _ _ _ (by rw [hlen]; omega), hlen, e2 _ (by simp only [List.length_cons] at hj; omega)]
      refine congrArg alph ?_
      have hm : (nb + 8) % 5 = nb + 8 - 5 * ((nb + 8) / 5) := by omega
      have hq : queueBit (A &&& ((1 <<< ((nb + 8) % 5)) - 1)) ((nb + 8) % 5) (streamBit bs) =
          fun q => queueBit A (nb + 8) (streamBit bs) (5 * ((nb + 8) / 5) + q) := by
        funext q
        rw [hm]
        exact queueBit_drop (streamBit bs) (by omega) q
      rw [hq, bitsValue_shift]
      congr 1
      omega

/-- The length of an encoding (R134). -/
theorem base32Encode_length (bs : List Byte) : (base32Encode bs).length = (8 * bs.length + 4) / 5 :=
  (encodeFrom_spec bs 0 0 (by omega) (by simp)).1

/-- Each symbol of an encoding is the alphabet's at five bits of the stream (R134). -/
theorem base32Encode_getD (bs : List Byte) {j : Nat} (h : j < (8 * bs.length + 4) / 5) :
    (base32Encode bs).getD j 0 = alph (bitsValue (streamBit bs) (5 * j) 5) := by
  have := (encodeFrom_spec bs 0 0 (by omega) (by simp)).2 j h
  rwa [queueBit_zero] at this

/-! ### B32DEC -/

theorem val_lt {c : Byte} : (val c).getD 0 < 2 ^ 5 := by
  unfold val
  split
  · simp; omega
  · split
    · simp; omega
    · simp

/-- `Val` undoes `ALPH` (R131, R132). -/
theorem val_alph {v : Nat} (h : v < 32) : val (alph v) = some v := by
  unfold val alph
  split
  · next h1 =>
    have e : (BitVec.ofNat 8 (0x41 + v)).toNat = 0x41 + v := by simp [BitVec.toNat_ofNat]; omega
    rw [e, if_pos (by omega)]; congr 1; omega
  · next h1 =>
    have e : (BitVec.ofNat 8 (0x32 + (v - 26))).toNat = 0x32 + (v - 26) := by simp [BitVec.toNat_ofNat]; omega
    rw [e, if_neg (by omega), if_pos (by omega)]; congr 1; omega

theorem textBit_cons (c : Byte) (cs : List Byte) (p : Nat) :
    textBit (c :: cs) p = if p < 5 then ((val c).getD 0).testBit (5 - 1 - p) else textBit cs (p - 5) := by
  unfold textBit
  by_cases h : p < 5
  · have h1 : p / 5 = 0 := by omega
    have h2 : p % 5 = p := by omega
    simp [h, h1, h2]
  · obtain ⟨q, rfl⟩ : ∃ q, p = q + 5 := ⟨p - 5, by omega⟩
    have h1 : (q + 5) / 5 = q / 5 + 1 := by omega
    have h2 : (q + 5) % 5 = q % 5 := by omega
    simp [h1, h2]

theorem decodeFrom_spec (cs : List Byte) (acc nb : Nat) (hnb : nb < 8) :
    (decodeFrom acc nb cs).length = (5 * cs.length + nb) / 8 ∧
    ∀ k, k < (5 * cs.length + nb) / 8 →
      (decodeFrom acc nb cs).getD k 0 = BitVec.ofNat 8 (bitsValue (queueBit acc nb (textBit cs)) (8 * k) 8) := by
  induction cs generalizing acc nb with
  | nil => exact ⟨by simp [decodeFrom]; omega, fun k hk => by simp at hk; omega⟩
  | cons c cs ih =>
    have hpush : queueBit ((acc <<< 5) ||| (val c).getD 0) (nb + 5) (textBit cs) = queueBit acc nb (textBit (c :: cs)) :=
      queueBit_push val_lt (textBit_cons c cs)
    simp only [decodeFrom]
    generalize (acc <<< 5) ||| (val c).getD 0 = A at *
    rw [← hpush]
    split
    · next h =>
      obtain ⟨e1, e2⟩ := ih (A &&& ((1 <<< (nb + 5 - 8)) - 1)) (nb + 5 - 8) (by omega)
      refine ⟨by simp only [List.length_cons, e1]; omega, fun k hk => ?_⟩
      cases k with
      | zero =>
        rw [List.getD_cons_zero, bitsValue_queueBit _ (by omega), show (0xFF : Nat) = 2 ^ 8 - 1 from rfl,
          Nat.and_two_pow_sub_one_eq_mod]
        rfl
      | succ k =>
        rw [List.getD_cons_succ, e2 k (by simp only [List.length_cons] at hk; omega)]
        have hq : queueBit (A &&& ((1 <<< (nb + 5 - 8)) - 1)) (nb + 5 - 8) (textBit cs) =
            fun q => queueBit A (nb + 5) (textBit cs) (8 + q) := by
          funext q
          exact queueBit_drop (textBit cs) h q
        rw [hq, bitsValue_shift]
        congr 2
        omega
    · next h =>
      obtain ⟨e1, e2⟩ := ih (A &&& ((1 <<< (nb + 5)) - 1)) (nb + 5) (by omega)
      refine ⟨by simp only [List.length_cons, e1]; omega, fun k hk => ?_⟩
      rw [e2 k (by simp only [List.length_cons] at hk; omega)]
      have hq : queueBit (A &&& ((1 <<< (nb + 5)) - 1)) (nb + 5) (textBit cs) = queueBit A (nb + 5) (textBit cs) := by
        funext q
        have := queueBit_drop (acc := A) (m := 0) (textBit cs) (Nat.zero_le (nb + 5)) q
        simpa using this
      rw [hq]

/-- The length of a decoding (R137). -/
theorem base32Decode_length (cs : List Byte) : (base32Decode cs).length = 5 * cs.length / 8 :=
  (decodeFrom_spec cs 0 0 (by omega)).1

/-- Each byte of a decoding is eight bits of the text's values (R137). -/
theorem base32Decode_getD (cs : List Byte) {k : Nat} (h : k < 5 * cs.length / 8) :
    (base32Decode cs).getD k 0 = BitVec.ofNat 8 (bitsValue (textBit cs) (8 * k) 8) := by
  have := (decodeFrom_spec cs 0 0 (by omega)).2 k h
  rwa [queueBit_zero] at this

theorem firstInvalid_none {k : Nat} {cs : List Byte} : firstInvalid k cs = none ↔ ∀ c, c ∈ cs → val c ≠ none := by
  induction cs generalizing k with
  | nil => simp [firstInvalid]
  | cons c cs ih =>
    simp only [firstInvalid, List.mem_cons, forall_eq_or_imp]
    cases hv : val c <;> simp [ih]

/-- The first invalid character: everything before it has a value (R136). -/
theorem firstInvalid_some {k : Nat} {cs : List Byte} {j : Nat} (hj : j < cs.length) (hv : val (cs.getD j 0) = none)
    (hb : ∀ i, i < j → val (cs.getD i 0) ≠ none) : firstInvalid k cs = some (k + j, cs.getD j 0) := by
  induction cs generalizing k j with
  | nil => simp at hj
  | cons c cs ih =>
    simp only [firstInvalid]
    cases j with
    | zero => simp at hv; simp [hv]
    | succ j =>
      have h0 := hb 0 (by omega)
      simp only [List.getD_cons_zero] at h0
      cases hc : val c with
      | none => exact absurd hc h0
      | some v =>
        simp only [List.getD_cons_succ] at hv ⊢
        rw [ih (k := k + 1) (by simpa using hj) hv fun i hi => by simpa using hb (i + 1) (by omega)]
        congr 2
        omega

end Sys2Proof.Machine
end

