-- ==== Sys2Proof/Laws/PerInstr.lean ====
section
/-! SUPPORT. The laws stated of every command as syntax, one lemma per constructor. -/

namespace Sys2Proof.Laws.RoundTrip

/-- A command is well formed, and the decoder gives it back from its word, in both of its forms. -/
def Statement (i : Instr) : Prop :=
  i.wellFormed = true ∧ decode (encode i) = .ok i ∧ decodeTableWord 32 (encode i).toNat = some i

theorem nop : Statement .nop := ⟨rfl, rfl, rfl⟩
theorem b32enc : Statement .b32enc := ⟨rfl, rfl, rfl⟩
theorem b32dec : Statement .b32dec := ⟨rfl, rfl, rfl⟩
theorem tstep : Statement .tstep := ⟨rfl, rfl, rfl⟩
theorem bdelay : Statement .bdelay := ⟨rfl, rfl, rfl⟩
theorem trunc : Statement .trunc := ⟨rfl, rfl, rfl⟩
theorem hotp : Statement .hotp := ⟨rfl, rfl, rfl⟩
theorem totp : Statement .totp := ⟨rfl, rfl, rfl⟩
theorem verify : Statement .verify := ⟨rfl, rfl, rfl⟩

end Sys2Proof.Laws.RoundTrip
end

