-- ==== Sys2Proof/Laws/Step.lean ====
section
/-! SUPPORT. What a host access and a step can do, said once. -/

namespace Sys2Proof.Machine

/-! ### The address map -/

theorem locate_regs {c : Config} {off : Nat} (h : off < 0x1000) : locate c (c.base + off) = some (.regs, off) := by
  have h1 : ¬ c.base + off < c.base := by omega
  have h2 : c.base + off - c.base = off := by omega
  simp [locate, h, h2]

theorem locate_ibuf {c : Config} {k : Nat} (h : k < 0x1000) : locate c (c.base + 0x1000 + k) = some (.ibuf, k) := by
  have h1 : ¬ c.base + 0x1000 + k < c.base := by omega
  have h2 : c.base + 0x1000 + k - c.base = 0x1000 + k := by omega
  have h3 : ¬ 0x1000 + k < 0x1000 := by omega
  have h4 : 0x1000 + k < 0x2000 := by omega
  have h5 : 0x1000 + k - 0x1000 = k := by omega
  simp only [locate, h1, h2, h3, h4, h5, if_true, if_false]

theorem locate_obuf {c : Config} {k : Nat} (h : k < 0x1000) : locate c (c.base + 0x2000 + k) = some (.obuf, k) := by
  have h1 : ¬ c.base + 0x2000 + k < c.base := by omega
  have h2 : c.base + 0x2000 + k - c.base = 0x2000 + k := by omega
  have h3 : ¬ 0x2000 + k < 0x1000 := by omega
  have h4 : ¬ 0x2000 + k < 0x2000 := by omega
  have h5 : 0x2000 + k < 0x3000 := by omega
  have h6 : 0x2000 + k - 0x2000 = k := by omega
  simp only [locate, h1, h2, h3, h4, h5, h6, if_true, if_false]

theorem locate_none {c : Config} {a : Nat} (h : a < c.base ∨ c.base + 0x3000 ≤ a) : locate c a = none := by
  unfold locate
  split
  · rfl
  · have h1 : ¬ a - c.base < 0x1000 := by omega
    have h2 : ¬ a - c.base < 0x2000 := by omega
    have h3 : ¬ a - c.base < 0x3000 := by omega
    simp only [h1, h2, h3, if_false]

/-- Where a region starts in the window (R61). -/
def regionStart : Region → Nat
  | .regs => 0
  | .ibuf => 0x1000
  | .obuf => 0x2000

/-- A located address is the base, its region's offset and the offset in it. -/
theorem locate_some {c : Config} {a off : Nat} {r : Region} (h : locate c a = some (r, off)) :
    off < 0x1000 ∧ a = c.base + regionStart r + off := by
  unfold locate at h
  split at h
  · simp at h
  · split at h
    · simp only [Option.some.injEq, Prod.mk.injEq] at h; obtain ⟨rfl, rfl⟩ := h; simp only [regionStart]; omega
    · split at h
      · simp only [Option.some.injEq, Prod.mk.injEq] at h; obtain ⟨rfl, rfl⟩ := h; simp only [regionStart]; omega
      · split at h
        · simp only [Option.some.injEq, Prod.mk.injEq] at h; obtain ⟨rfl, rfl⟩ := h; simp only [regionStart]; omega
        · simp at h

/-- The offset of each register (10_state.md R58). -/
def offsetOf : Reg → Nat
  | .id => 0x000 | .ctrl => 0x004 | .status => 0x008 | .cmd => 0x00C | .errinfo => 0x010 | .ilen => 0x014
  | .olen => 0x018 | .digits => 0x01C | .interval => 0x020 | .fwd => 0x024 | .bwd => 0x028 | .keyh => 0x02C
  | .ctrLo => 0x030 | .ctrHi => 0x034 | .tovrLo => 0x038 | .tovrHi => 0x03C | .rtimeLo => 0x040 | .rtimeHi => 0x044
  | .rctrLo => 0x048 | .rctrHi => 0x04C | .rtrunc => 0x050 | .rmod => 0x054 | .rdlyLo => 0x058 | .rdlyHi => 0x05C

theorem regAt_offsetOf (r : Reg) : regAt (offsetOf r) = some r := by cases r <;> rfl

theorem offset_of_regAt {off : Nat} {r : Reg} (h : regAt off = some r) : off = offsetOf r := by
  unfold regAt at h
  split at h <;> first | (simp only [Option.some.injEq] at h; subst h; rfl) | simp at h

theorem regAt_reserved {off : Nat} (h : 0x060 ≤ off) : regAt off = none := by
  cases hr : regAt off with
  | none => rfl
  | some r => have := offset_of_regAt hr; cases r <;> simp [offsetOf] at this <;> omega

/-! ### Byte order -/

theorem leValue_lt (l : List Byte) : leValue l < 2 ^ (8 * l.length) := by
  induction l with
  | nil => simp [leValue]
  | cons b l ih =>
    simp only [leValue, List.length_cons, Nat.mul_add, pow_add]
    have := b.isLt
    omega

/-- Byte j of a little-endian value is byte j of the string. -/
theorem leValue_byte (l : List Byte) {j : Nat} (h : j < l.length) :
    leValue l / 2 ^ (8 * j) % 2 ^ 8 = (l.getD j 0).toNat := by
  induction l generalizing j with
  | nil => simp at h
  | cons b l ih =>
    have := b.isLt
    cases j with
    | zero => simp [leValue]; omega
    | succ j =>
      simp only [leValue, List.getD_cons_succ]
      rw [← ih (by simpa using h), Nat.mul_add, Nat.add_comm (8 * j), pow_add, ← Nat.div_div_eq_div_mul]
      congr 2
      omega

/-! ### One host access -/

/-- What an admitted host access can do. -/
inductive HostDid (a : Access) (s : State) : State → Prop where
  /-- A read: the value read, and a draw if it was unspecified. -/
  | read (addr : Nat) (w : Width) (v : Word) (d : Nat) (ha : a = .read addr w) : HostDid a s { s with rdata := v, draws := d }
  /-- A write that is ignored. -/
  | ignored (addr : Nat) (w : Width) (v : Word) (ha : a = .write addr w v) : HostDid a s s
  /-- A write that is discarded while busy. -/
  | discarded (addr : Nat) (w : Width) (v : Word) (ha : a = .write addr w v) (hb : s.busy = true) : HostDid a s (setOvr s)
  /-- A write to an operand register. -/
  | operand (r : Reg) (v : Word) (ha : a = .write (s.cfg.base + offsetOf r) .word v) (hb : s.busy = false) :
      HostDid a s (setOperand r v s)
  /-- A write to STATUS. -/
  | status (v : Word) (ha : a = .write (s.cfg.base + 0x008) .word v) : HostDid a s (writeStatus v s)
  /-- A write to CTRL with SRST. -/
  | softReset (v : Word) (ha : a = .write (s.cfg.base + 0x004) .word v) (hv : v.getLsbD 0 = true) :
      HostDid a s (softReset s)
  /-- A write to CTRL with ABORT while busy. -/
  | aborted (v : Word) (op : Op) (ha : a = .write (s.cfg.base + 0x004) .word v) (hv : v.getLsbD 0 = false)
      (hw : v.getLsbD 1 = true) (ho : s.current = some op) :
      HostDid a s { endAborted op s with irqen := v.getLsbD 2, clksel := v.getLsbD 3 }
  /-- Any other write to CTRL. -/
  | ctrl (v : Word) (ha : a = .write (s.cfg.base + 0x004) .word v) (hv : v.getLsbD 0 = false)
      (hw : v.getLsbD 1 = false ∨ s.busy = false) :
      HostDid a s { s with irqen := v.getLsbD 2, clksel := v.getLsbD 3 }
  /-- An accepted write to CMD. -/
  | cmd (w : Word) (ha : a = .write (s.cfg.base + 0x00C) .word w) (hb : s.busy = false) : HostDid a s (accept w s)
  /-- A write to IBUF. -/
  | ibuf (k : Nat) (w : Width) (v : Word) (ha : a = .write (s.cfg.base + 0x1000 + k) w v) (hb : s.busy = false)
      (hk : k < s.cfg.bufBytes) (hw : k % bytesOf w = 0) :
      HostDid a s { s with ibuf := s.ibuf.writeList k (leBytes (bytesOf w) v) }

theorem performRead_spec (r : Region) (off n : Nat) (s : State) :
    ∃ v d, performRead r off n s = { s with rdata := v, draws := d } := by
  cases r with
  | regs =>
    simp only [performRead]
    split
    · unfold readReg; split <;> exact ⟨_, _, rfl⟩
    · exact ⟨0, s.draws, rfl⟩
  | ibuf => exact ⟨_, s.draws, rfl⟩
  | obuf =>
    simp only [performRead, readObuf]
    split
    · exact ⟨_, _, rfl⟩
    · exact ⟨_, s.draws, rfl⟩

/-- A host access is outside the window, not admitted, or performed. -/
theorem hostAccess_cases (a : Access) (s : State) :
    (locate s.cfg (addrOf a) = none ∧ hostAccess a s = .fault .outsideWindow) ∨
    (∃ r off, locate s.cfg (addrOf a) = some (r, off) ∧ admitted r off (widthOf a) = false ∧
      hostAccess a s = .refused .unadmittedAccess) ∨
    (∃ r off, locate s.cfg (addrOf a) = some (r, off) ∧ admitted r off (widthOf a) = true ∧
      hostAccess a s = .next (perform a r off s)) := by
  unfold hostAccess
  cases h : locate s.cfg (addrOf a) with
  | none => exact .inl ⟨rfl, rfl⟩
  | some p =>
    obtain ⟨r, off⟩ := p
    by_cases ha : admitted r off (widthOf a) = true
    · exact .inr (.inr ⟨r, off, rfl, ha, by simp [ha]⟩)
    · exact .inr (.inl ⟨r, off, rfl, by simpa using ha, by simp [ha]⟩)

theorem hostAccess_of_locate {a : Access} {s : State} {r : Region} {off : Nat}
    (hl : locate s.cfg (addrOf a) = some (r, off)) (ha : admitted r off (widthOf a) = true) :
    hostAccess a s = .next (perform a r off s) := by
  simp [hostAccess, hl, ha]

/-- A host write to a register. -/
theorem hostAccess_writeReg {s : State} {r : Reg} (v : Word) :
    hostAccess (.write (s.cfg.base + offsetOf r) .word v) s = .next (writeReg r v s) := by
  have h : offsetOf r < 0x1000 ∧ offsetOf r % 4 = 0 := by cases r <;> simp [offsetOf]
  rw [hostAccess_of_locate (r := .regs) (off := offsetOf r) (locate_regs h.1) (by simp [admitted, widthOf, h.2])]
  simp [perform, performWrite, regAt_offsetOf]

/-- A host read of a register. -/
theorem hostAccess_readReg {s : State} {r : Reg} :
    hostAccess (.read (s.cfg.base + offsetOf r) .word) s = .next (readReg r s) := by
  have h : offsetOf r < 0x1000 ∧ offsetOf r % 4 = 0 := by cases r <;> simp [offsetOf]
  rw [hostAccess_of_locate (r := .regs) (off := offsetOf r) (locate_regs h.1) (by simp [admitted, widthOf, h.2])]
  simp [perform, performRead, regAt_offsetOf]

/-- A host access to the IBUF window. -/
theorem hostAccess_ibuf {s : State} {k : Nat} {w : Width} (hk : k < 0x1000) (hw : k % bytesOf w = 0) :
    hostAccess (.read (s.cfg.base + 0x1000 + k) w) s = .next (readIbuf k (bytesOf w) s) ∧
    ∀ v, hostAccess (.write (s.cfg.base + 0x1000 + k) w v) s = .next (writeIbuf k (bytesOf w) v s) := by
  constructor
  · rw [hostAccess_of_locate (r := .ibuf) (off := k) (locate_ibuf hk) (by simp [admitted, widthOf, hw])]; rfl
  · intro v
    rw [hostAccess_of_locate (r := .ibuf) (off := k) (locate_ibuf hk) (by simp [admitted, widthOf, hw])]; rfl

/-- A host access to the OBUF window. -/
theorem hostAccess_obuf {s : State} {k : Nat} {w : Width} (hk : k < 0x1000) (hw : k % bytesOf w = 0) :
    hostAccess (.read (s.cfg.base + 0x2000 + k) w) s = .next (readObuf k (bytesOf w) s) ∧
    ∀ v, hostAccess (.write (s.cfg.base + 0x2000 + k) w v) s = .next s := by
  constructor
  · rw [hostAccess_of_locate (r := .obuf) (off := k) (locate_obuf hk) (by simp [admitted, widthOf, hw])]; rfl
  · intro v
    rw [hostAccess_of_locate (r := .obuf) (off := k) (locate_obuf hk) (by simp [admitted, widthOf, hw])]; rfl

theorem writeReg_did {r : Reg} {v : Word} {s : State} :
    HostDid (.write (s.cfg.base + offsetOf r) .word v) s (writeReg r v s) := by
  cases r <;> simp only [writeReg]
  case ctrl =>
    unfold writeCtrl
    split
    · next h => exact .softReset v rfl h
    · next h =>
      have h : v.getLsbD 0 = false := by simpa using h
      by_cases hw : v.getLsbD 1 = true
      · cases hc : s.current with
        | none =>
          have hb := (current_none s).1 hc
          simp only [hw, if_true, abort_idle hb]
          exact .ctrl v rfl h (.inr hb)
        | some op =>
          simp only [hw, if_true, abort_busy hc]
          exact .aborted v op rfl h hw hc
      · have hw : v.getLsbD 1 = false := by simpa using hw
        simp only [hw, if_false, Bool.false_eq_true]
        exact .ctrl v rfl h (.inl hw)
  case status => exact .status v rfl
  case cmd =>
    unfold writeCmd
    split
    · next h => exact .discarded _ _ _ rfl h
    · next h => exact .cmd v rfl (by simpa using h)
  all_goals first
    | exact .ignored _ _ _ rfl
    | (split
       · next h => exact .discarded _ _ _ rfl h
       · next h => exact .operand _ v rfl (by simpa using h))

/-- The inversion of a host access. -/
theorem hostAccess_did {a : Access} {s t : State} (h : hostAccess a s = .next t) : HostDid a s t := by
  rcases hostAccess_cases a s with ⟨_, e⟩ | ⟨_, _, _, _, e⟩ | ⟨r, off, hl, ha, e⟩ <;> rw [e] at h
  · cases h
  · cases h
  injection h with h
  subst h
  have hloc := locate_some hl
  cases a with
  | read addr w =>
    obtain ⟨v, d, hv⟩ := performRead_spec r off (bytesOf w) s
    simp only [perform, hv]
    exact .read addr w v d rfl
  | write addr w v =>
    simp only [perform, addrOf, widthOf] at *
    cases r with
    | regs =>
      simp only [performWrite]
      simp only [admitted, Bool.and_eq_true, beq_iff_eq] at ha
      obtain ⟨rfl, _⟩ := ha
      split
      · next r hr =>
        rw [hloc.2, offset_of_regAt hr, regionStart, Nat.add_zero]
        exact writeReg_did
      · exact .ignored _ _ _ rfl
    | ibuf =>
      simp only [performWrite, writeIbuf]
      split
      · exact .ignored _ _ _ rfl
      · next hk =>
        split
        · next hb => exact .discarded _ _ _ rfl hb
        · next hb =>
          refine .ibuf off w v (by rw [hloc.2, regionStart]) (by simpa using hb) (by simpa using hk) ?_
          simpa [admitted] using ha
    | obuf => exact .ignored _ _ _ rfl

/-! ### One step -/

/-- What the engine's turn can do. -/
theorem engineTurn_cases {s t : State} (h : engineTurn s = .next t) :
    (t = s ∧ ∀ op, s.phase ≠ .running op) ∨
    (∃ w, s.phase = .running (.illegal w) ∧ t = raise .illegalCommand w s) ∨
    (∃ i, s.phase = .running (.command i) ∧ Did i s t) := by
  unfold engineTurn at h
  split at h
  · next hp => injection h with h; exact .inl ⟨h.symm, by simp [hp]⟩
  · next hp => injection h with h; exact .inl ⟨h.symm, by simp [hp]⟩
  · next w hp => injection h with h; exact .inr (.inl ⟨w, hp, h.symm⟩)
  · next i hp => exact .inr (.inr ⟨i, hp, exec_did h⟩)

/-- The inversion of step: the engine's turn, a host access, an answer or a power-on, of the state with the rest of the
schedule. -/
theorem step_cases {s t : State} (h : step s = .next t) :
    ∃ rest, (s.schedule = [] ∧ rest = [] ∨ ∃ e, s.schedule = e :: rest) ∧
      (((s.schedule = [] ∨ s.schedule = .engine :: rest) ∧ engineTurn { s with schedule := rest } = .next t) ∨
       (∃ a, s.schedule = .host a :: rest ∧ HostDid a { s with schedule := rest } t) ∨
       (∃ k, s.schedule = .answer k :: rest ∧ t = deliver k { s with schedule := rest }) ∨
       (s.schedule = .powerOn :: rest ∧ t = powerOn { s with schedule := rest })) := by
  unfold step at h
  split at h
  · next hs =>
    refine ⟨[], .inl ⟨hs, rfl⟩, .inl ⟨.inl hs, ?_⟩⟩
    rw [← hs]; exact h
  · next e rest hs =>
    refine ⟨rest, .inr ⟨e, hs⟩, ?_⟩
    cases e with
    | host a => exact .inr (.inl ⟨a, hs, hostAccess_did h⟩)
    | engine => exact .inl ⟨.inr hs, h⟩
    | answer k => simp only [turn] at h; injection h with h; exact .inr (.inr (.inl ⟨k, hs, h.symm⟩))
    | powerOn => simp only [turn] at h; injection h with h; exact .inr (.inr (.inr ⟨hs, h.symm⟩))

theorem step_host {s : State} {a : Access} {rest : List Event} (h : s.schedule = .host a :: rest) :
    step s = hostAccess a { s with schedule := rest } := by
  simp [step, h, turn]

theorem step_engine {s : State} {rest : List Event} (h : s.schedule = .engine :: rest) :
    step s = engineTurn { s with schedule := rest } := by
  simp [step, h, turn]

theorem step_answer {s : State} {k : Nat} {rest : List Event} (h : s.schedule = .answer k :: rest) :
    step s = .next (deliver k { s with schedule := rest }) := by
  simp [step, h, turn]

theorem step_powerOn {s : State} {rest : List Event} (h : s.schedule = .powerOn :: rest) :
    step s = .next (powerOn { s with schedule := rest }) := by
  simp [step, h, turn]

theorem engineTurn_command {s : State} {i : Instr} (h : s.phase = .running (.command i)) :
    engineTurn s = .next (nextOf i s) := by
  simp [engineTurn, h, exec_eq]

/-! ### Runs -/

theorem run_zero (s : State) : Host.Core.run Sys2Proof.core 0 s = .next s := rfl

/-- A run of one step more begins with that step. -/
theorem run_step {k : Nat} {s t : State} (h : step s = .next t) :
    Host.Core.run Sys2Proof.core (k + 1) s = Host.Core.run Sys2Proof.core k t := by
  have h : Sys2Proof.core.step s = .next t := h
  simp only [Host.Core.run, h]

end Sys2Proof.Machine
end

