-- ==== Sys2Proof/Tests/Slice0.lean ====
section
/-! SUPPORT. The author's tests: expected values from 95_test_vectors.md (named in each comment) or by hand from the rules; then one
witness for every statement with hypotheses. -/

namespace Sys2Proof.Tests

open Sys2Proof Sys2Proof.Machine

/-! ### Ill-formed terms are refused -/

theorem test_wf_bufBytes_not_multiple_of_4 : Config.bufBytesLegal 130 = false := by decide
theorem test_wf_bufBytes_too_small : Config.bufBytesLegal 124 = false := by decide
theorem test_wf_bufBytes_too_large : Config.bufBytesLegal 4100 = false := by decide
theorem test_wf_base_unaligned : Config.baseLegal 0x800 = false := by decide
theorem test_wf_config_ill_formed : ({ Config.default with bufBytes := 64 } : Config).wellFormed = false := by decide
theorem test_wf_message_of_7_bytes : (⟨1, [0, 0, 0, 0, 0, 0, 0]⟩ : HmacRequest).wellFormed = false := by decide
theorem test_wf_default : Config.default.wellFormed = true := by decide

/-- Vectors L31 and L32, and a misaligned halfword: not admitted. -/
theorem test_unadmitted_accesses :
    admitted .regs 0x008 .byte = false ∧ admitted .regs 0x00A .word = false ∧ admitted .ibuf 2 .word = false ∧
    admitted .obuf 1 .half = false := by decide

/-! ### Decoding (30_encoding.md R91, R94) -/

theorem test_decode_nop : decode 0b00000000000000000000000000000000#32 = .ok .nop := by rfl
theorem test_decode_b32enc : decode 0b00000000000000000000000000000001#32 = .ok .b32enc := by rfl
theorem test_decode_b32dec : decode 0b00000000000000000000000000000010#32 = .ok .b32dec := by rfl
theorem test_decode_tstep : decode 0b00000000000000000000000000000011#32 = .ok .tstep := by rfl
theorem test_decode_bdelay : decode 0b00000000000000000000000000000100#32 = .ok .bdelay := by rfl
theorem test_decode_trunc : decode 0b00000000000000000000000000000101#32 = .ok .trunc := by rfl
theorem test_decode_hotp : decode 0b00000000000000000000000000000110#32 = .ok .hotp := by rfl
theorem test_decode_totp : decode 0b00000000000000000000000000000111#32 = .ok .totp := by rfl
theorem test_decode_verify : decode 0b00000000000000000000000000001000#32 = .ok .verify := by rfl

/-- Vectors L2 to L5 and P5. -/
theorem test_decode_illegal :
    decode 0x00000009 = .error .reservedOpcode ∧ decode 0x00000100 = .error .reservedField ∧
    decode 0xFFFFFFFF = .error .reservedField ∧ decode 0x000000FF = .error .reservedOpcode ∧
    decode 0x00000109 = .error .reservedField := ⟨rfl, rfl, rfl, rfl, rfl⟩

theorem test_decodeTableWord : decodeTableWord 32 0x00000006 = some .hotp ∧ decodeTableWord 32 0x00000009 = none := by
  decide

/-! ### Small states -/

/-- A byte string of n bytes as one number, most significant byte first. -/
def bytes (n v : Nat) : List Byte := (List.range n).map fun k => BitVec.ofNat 8 (v / 256 ^ (n - 1 - k))

/-- The reset state with a command at its start, the injected clock at `t` ms, and a byte string in IBUF. -/
def start (i : Instr) (t : Nat) (input : List Byte) : State :=
  { State.reset with
    phase := .running (.command i), clk := true, tovr := Pair.ofNat t,
    ibuf := Memory.writeList [] 0 input, ilen := BitVec.ofNat 32 input.length }

/-- The same command continuing with an answer of the collaborator. -/
def resumed (i : Instr) (t : Nat) (input : List Byte) (r : HmacResponse) : State :=
  { start i t input with t := BitVec.ofNat 64 t, resp := some r }

/-- One view of the state that a command's engine step answers. -/
def after {α : Type} (f : State → α) (i : Instr) (s : State) : Option α :=
  match exec i s with
  | .next t => some (f t)
  | .fault _ => none
  | .refused _ => none

/-- The same of a step of the machine. -/
def afterStep {α : Type} (f : State → α) (s : State) : Option α :=
  match step s with
  | .next t => some (f t)
  | .fault _ => none
  | .refused _ => none

/-- The first bytes of OBUF. -/
def text (n : Nat) (s : State) : List Byte := (List.range n).map s.obufByte

/-- STATUS and ERRINFO. -/
def record (s : State) : Word × Word := (s.statusWord, s.errinfo)

/-- HMAC-SHA-1 at counters 1 and 2 (vectors H1 and H2). -/
def digest1 : List Byte := bytes 20 0x75a48a19d4cbe100644e8ac1397eea747a2d33ab

/-- See `digest1`. -/
def digest2 : List Byte := bytes 20 0x0bacb7fa082fef30782211938bc1c5e70416ff44

/-! ### One step of each command -/

/-- Vector L1. -/
theorem test_nop_status : after record .nop (start .nop 0 []) = some (0x00000002, 0) := by decide

/-- Vector L6's start: a NOP written after an error clears the record. -/
theorem test_nop_clears_error : after record .nop (accept 0 { State.reset with errcode := .illegalCommand, errinfo := 9 }) =
    some (0x00000002, 0) := by decide

/-- Vector B7: "foobar" gives "MZXW6YTBOI". -/
theorem test_b32enc_foobar : after (text 10) .b32enc (start .b32enc 0 (bytes 6 0x666f6f626172)) =
    some (bytes 10 0x4d5a585736595442_4f49) := by decide +kernel

/-- Vectors B2 and B9: the final partial group. -/
theorem test_b32enc_partial_group : base32Encode [0x66] = [0x4D, 0x59] ∧ base32Encode [0xFF] = [0x37, 0x34] := by
  decide +kernel

/-- Vector B23: "MZ" gives "f"; the leftover bits are dropped. -/
theorem test_b32dec_leftover : after (fun t => (t.olen, text 1 t)) .b32dec (start .b32dec 0 [0x4D, 0x5A]) =
    some (1, [0x66]) := by decide +kernel

/-- Vector B33: "AB1C8" fails at index 2. -/
theorem test_b32dec_first_invalid : after record .b32dec (start .b32dec 0 [0x41, 0x42, 0x31, 0x43, 0x38]) =
    some (0x00000102, 0x00000231) := by decide +kernel

/-- Vector S6. -/
theorem test_tstep_bytes : after (fun t => (t.rctr.lo, t.olen, text 8 t)) .tstep (start .tstep 1111111109000 []) =
    some (0x23523EC, 8, [0, 0, 0, 0, 0x02, 0x35, 0x23, 0xEC]) := by decide +kernel

/-- Vector S9: the largest step. -/
theorem test_tstep_largest : after (fun t => (t.rctr.hi, t.rctr.lo)) .tstep
    { start .tstep (2 ^ 64 - 1) [] with interval := 1 } = some (0x418937, 0x4BC6A7EF) := by decide +kernel

/-- Vector S1: a boundary gives the full interval. -/
theorem test_bdelay_boundary : after (fun t => t.rdly.lo) .bdelay (start .bdelay 0 []) = some 30000 := by decide +kernel

/-- Vector S10. -/
theorem test_bdelay_wide : after (fun t => (t.rdly.hi, t.rdly.lo)) .bdelay
    { start .bdelay (2 ^ 64 - 1) [] with interval := 0xFFFFFFFF } = some (0x2BE, 0xFFFFFD41) := by decide +kernel

/-- Vector X2. -/
theorem test_trunc_code : after (fun t => (t.rtrunc, t.rmod, text 6 t)) .trunc
    (start .trunc 0 (bytes 20 0x1f8698690e02ca16618550ef7f19da8e945b555a)) =
    some (0x50EF7F19, 872921, [0x38, 0x37, 0x32, 0x39, 0x32, 0x31]) := by decide +kernel

/-- Vector X4: the offset of a 32-byte digest is in byte 31. -/
theorem test_trunc_last_byte : after (fun t => t.rtrunc) .trunc
    { start .trunc 0 ((bytes 31 0x808182838485868788898a8b8c8d8e8f909192939495969798999a9b9c9d9e) ++ [0x1A]) with
      digits := 8 } = some 0x0A8B8C8D := by decide +kernel

/-- Vector H1: the request, then the code "287082". -/
theorem test_hotp_request : after (fun t => t.pending) .hotp
    { start .hotp 0 [] with keyh := 1, ctr := ⟨1, 0⟩ } = some (some ⟨1, [0, 0, 0, 0, 0, 0, 0, 1]⟩) := by decide +kernel

/-- See `test_hotp_request`. -/
theorem test_hotp_code : after (fun t => (t.rtrunc, t.rmod, text 6 t)) .hotp (resumed .hotp 0 [] (.ok digest1)) =
    some (0x41397EEA, 287082, [0x32, 0x38, 0x37, 0x30, 0x38, 0x32]) := by decide +kernel

/-- Vector T1: the code "94287082" and the delay of the same sample. -/
theorem test_totp_code : after (fun t => (t.rdly.lo, t.olen, text 8 t)) .totp
    { resumed .totp 59000 [] (.ok digest1) with digits := 8 } =
    some (1000, 8, [0x39, 0x34, 0x32, 0x38, 0x37, 0x30, 0x38, 0x32]) := by decide +kernel

/-- Vector T8: a failing collaborator. -/
theorem test_totp_failure : after record .totp (resumed .totp 59000 [] (.fail 7)) = some (0x00000302, 7) := by
  decide +kernel

/-- Vector V1's last comparison: "359152" is the code of counter 2. -/
theorem test_verify_match : after (fun t => t.statusWord) .verify
    { resumed .verify 59000 [0x33, 0x35, 0x39, 0x31, 0x35, 0x32] (.ok digest2) with n := 3, i := 2 } =
    some 0x0000000A := by decide +kernel

/-- Vector V3: the underflow. -/
theorem test_verify_underflow : after (fun t => (record t, t.rtime.lo, t.portLog)) .verify
    (start .verify 29999 [0x37]) = some ((0x00000402, 0), 29999, []) := by decide +kernel

/-! ### The step -/

/-- Vector L2: the word 9 is an error with the word in ERRINFO. -/
theorem test_illegal_word : afterStep record (State.reset.withFetchWord 32 9) = some (0x00000602, 9) := by decide +kernel

/-- The placed word of B32ENC runs from reset: ILEN 0 (vector B1). -/
theorem test_withFetchWord_runs : afterStep record (State.reset.withFetchWord 32 1) = some (0x00000002, 0) := by
  decide +kernel

/-- Vector L27: a CTRL write of 0xF is the soft reset alone. -/
theorem test_soft_reset : afterStep (fun t => (t.ctrlWord, t.statusWord, t.digits)) { start .hotp 0 [] with
    digits := 8, schedule := [.host (.write 0x004 .word 0xF)] } = some (0, 0, 6) := by decide +kernel

/-- Program P1, line 1: a little-endian word write. -/
theorem test_ibuf_word : afterStep (fun t => (List.range 4).map t.ibufByte) { State.reset with
    schedule := [.host (.write 0x1000 .word 0x34333231)] } = some [0x31, 0x32, 0x33, 0x34] := by decide +kernel

/-- Vector L33: the byte at BUF_BYTES reads 0. -/
theorem test_ibuf_beyond : afterStep (fun t => t.rdata) { State.reset with
    rdata := 5, schedule := [.host (.read 0x1400 .byte)] } = some 0 := by decide +kernel

/-- Vector L20: an abort while waiting. -/
theorem test_abort : afterStep record { State.reset with
    phase := .waiting (.command .hotp), pending := some ⟨0, [0, 0, 0, 0, 0, 0, 0, 0]⟩, portLog := [⟨0, [0, 0, 0, 0, 0, 0, 0, 0]⟩],
    schedule := [.host (.write 0x004 .word 0x2)] } = some (0x00000702, 0) := by decide +kernel

/-! ### Witnesses: a state and operands that meet the hypotheses of each statement -/

/-- The reset state with one event to come. -/
def idleBefore (e : Event) : State := { State.reset with schedule := [e] }

/-- A HOTP that waits for its answer, with one event to come. -/
def waiting (e : Event) : State :=
  { State.reset with
    phase := .waiting (.command .hotp), pending := some (requestFor State.reset 0), portLog := [requestFor State.reset 0],
    schedule := [e] }

/-- HMAC-SHA-1 at counter 0 (vector H0). -/
def digest0 : List Byte := bytes 20 0xcc93cf18508d94934c64b65d8ba7667fb7cde4b0

/-- Parameters under which the collaborator's answers for counters 0 to 2 of key handle 0 are stated. -/
def known : Config :=
  { Config.default with
    hmacKnown :=
      [(requestFor State.reset 0, .ok digest0), (requestFor State.reset 1, .ok digest1),
       (requestFor State.reset 2, .ok digest2)] }

/-- A command at its start under `known`, with its agents to come. -/
def whole (i : Instr) (input : List Byte) (n : Nat) : State :=
  { start i 59000 input with
    cfg := known, schedule := .engine :: (List.range n).flatMap fun j => answerAndGoOn (0 + j) }

/-- A run ended a command successfully. -/
def endedOk (o : Host.Outcome State Fault Refusal) : Bool :=
  match o with
  | .next t => t.phase == .idle && t.done && t.errcode == .none
  | .fault _ => false
  | .refused _ => false

theorem endedOk_spec {o : Host.Outcome State Fault Refusal} (h : endedOk o = true) : ∃ t, o = .next t ∧ EndedOk t := by
  cases o with
  | next t => simp only [endedOk, Bool.and_eq_true, beq_iff_eq] at h; exact ⟨t, rfl, h.1.1, h.1.2, h.2⟩
  | fault r => simp [endedOk] at h
  | refused r => simp [endedOk] at h

theorem witness_DecodingIsTotal :
    ((0x100 : Word).toNat / 2 ^ 8 ≠ 0 ∧ 9 ≤ (9 : Word).toNat % 2 ^ 8) ∧
    ((8 : Word).toNat / 2 ^ 8 = 0 ∧ (8 : Word).toNat % 2 ^ 8 < 9) ∧ State.reset.busy = false := by decide

theorem witness_EveryCommandHasExactlyOneWord : decode 8 = .ok .verify := rfl

theorem witness_StepRunsTheDecodedCommand :
    ((start .nop 0 []).phase = .running (.command .nop) ∧ (start .nop 0 []).schedule = []) ∧
    ({ start .nop 0 [] with schedule := [.engine] } : State).schedule = [.engine] ∧ decode 0 = .ok .nop :=
  ⟨⟨rfl, rfl⟩, rfl, rfl⟩

theorem witness_CmdWriteWhenIdleStartsTheCommand :
    (idleBefore (.host (.write 0x00C .word 6))).busy = false ∧
    (idleBefore (.host (.write 0x00C .word 6))).schedule = [.host (.write (Config.default.base + 0x00C) .word 6)] := ⟨rfl, rfl⟩

theorem witness_CmdWriteWhileBusyIsDiscarded :
    (waiting (.host (.write 0x00C .word 0))).busy = true ∧
    (waiting (.host (.write 0x00C .word 0))).schedule = [.host (.write (Config.default.base + 0x00C) .word 0)] := ⟨rfl, rfl⟩

theorem witness_IllegalWordEndsAtOnce :
    (∃ e, decode 9 = .error e) ∧
    ({ State.reset with phase := .running (.illegal 9) } : State).phase = .running (.illegal 9) ∧
    State.reset.schedule = [] ∧ (idleBefore .engine).schedule = [.engine] := ⟨⟨_, rfl⟩, rfl, rfl, rfl⟩

/-- Both sides of each bound of the table. -/
theorem witness_OperandChecksComeFirstInOrder :
    checkReported .b32enc (start .b32enc 0 (List.replicate 641 0)) = some 0x014 ∧
    checkReported .b32enc (start .b32enc 0 (List.replicate 640 0)) = none ∧
    checkReported .b32dec { State.reset with ilen := 1025 } = some 0x014 ∧
    checkReported .b32dec { State.reset with ilen := 1024 } = none ∧
    checkReported .tstep { State.reset with interval := 0 } = some 0x020 ∧
    checkReported .bdelay { State.reset with interval := 1 } = none ∧
    checkReported .trunc { State.reset with ilen := 21, digits := 0 } = some 0x014 ∧
    checkReported .trunc { State.reset with ilen := 20, digits := 11 } = some 0x01C ∧
    checkReported .hotp { State.reset with digits := 0 } = some 0x01C ∧
    checkReported .hotp { State.reset with digits := 10 } = none ∧
    checkReported .totp { State.reset with digits := 0, interval := 0 } = some 0x01C ∧
    checkReported .totp { State.reset with digits := 1, interval := 0 } = some 0x020 ∧
    checkReported .verify { State.reset with ilen := 2000, digits := 0, interval := 0 } = some 0x014 ∧
    State.reset.resp = none ∧ State.reset.errcode = .none ∧ ∃ t, exec .nop State.reset = .next t := by
  refine ⟨?_, ?_, ?_, ?_, ?_, ?_, ?_, ?_, ?_, ?_, ?_, ?_, ?_, rfl, rfl, _, rfl⟩ <;> decide +kernel

theorem witness_FailedCommandLeavesNoResult :
    State.reset.errcode = .none ∧ ∃ t, exec .trunc State.reset = .next t ∧ t.errcode ≠ .none :=
  ⟨rfl, _, exec_eq .trunc State.reset, by decide⟩

/-- A failure, an empty digest and an admitted one. -/
theorem witness_BadAnswersEndInProviderFailure :
    asks (.command .hotp) = true ∧ (resumed .hotp 0 [] (.fail 0x1234)).resp = some (.fail 0x1234) ∧
    (resumed .totp 0 [] (.ok [])).resp = some (.ok []) ∧ (resumed .verify 0 [] (.ok digest1)).resp = some (.ok digest1) ∧
    ¬ (([] : List Byte).length = 20 ∨ ([] : List Byte).length = 32 ∨ ([] : List Byte).length = 64) ∧
    digest1.length = 20 ∧ (resumed .hotp 0 [] (.fail 7)).errcode = .none := by
  refine ⟨rfl, rfl, rfl, rfl, ?_, ?_, rfl⟩ <;> decide

/-- The largest input of B32ENC at BUF_BYTES 1024 (vector B14). -/
theorem witness_B32encLeavesTheEncoding :
    ({ State.reset with ilen := 640 } : State).ilen.toNat ≤ Config.default.bufBytes ∧
    (8 * ({ State.reset with ilen := 640 } : State).ilen.toNat + 4) / 5 ≤ Config.default.bufBytes ∧
    Config.default.wellFormed = true := by decide

theorem witness_B32decLeavesTheDecoding :
    (start .b32dec 0 [0x4D, 0x5A]).ilen.toNat ≤ Config.default.bufBytes ∧ Config.default.wellFormed = true ∧
    ∀ c, c ∈ (start .b32dec 0 [0x4D, 0x5A]).input → val c ≠ none := by
  refine ⟨?_, ?_, ?_⟩ <;> decide +kernel

theorem witness_B32decReportsTheFirstInvalidCharacter :
    let s := start .b32dec 0 [0x41, 0x42, 0x31, 0x43, 0x38]
    s.ilen.toNat ≤ s.cfg.bufBytes ∧ s.cfg.wellFormed = true ∧ 2 < s.ilen.toNat ∧ 0x31 = s.ibufByte 2 ∧ val 0x31 = none ∧
    ∀ j, j < 2 → val (s.ibufByte j) ≠ none := by decide +kernel

theorem witness_DecodeOfEncodeGivesTheBytesBack :
    let s := start .b32enc 0 [0x66]
    let u := start .b32dec 0 [0x4D, 0x59]
    s.ilen.toNat ≤ s.cfg.bufBytes ∧ (8 * s.ilen.toNat + 4) / 5 ≤ s.cfg.bufBytes ∧ s.cfg.wellFormed = true ∧
    ∃ t, exec .b32enc s = .next t ∧ u.cfg = s.cfg ∧ u.ilen = t.olen ∧
      ∀ k, k < t.olen.toNat → u.ibufByte k = t.obufByte k := by
  refine ⟨by decide, by decide, by decide, _, exec_eq .b32enc (start .b32enc 0 [0x66]), rfl, ?_, ?_⟩ <;> decide +kernel

theorem witness_TstepLeavesTheTimeStep : (start .tstep 59000 []).interval ≠ 0 := by decide

theorem witness_BdelayLeavesTheBoundaryDelay : (start .bdelay 59000 []).interval ≠ 0 := by decide

/-- Two samples in order. -/
theorem witness_StepsFollowTheSamples :
    State.reset.interval ≠ 0 ∧ (start .tstep 29999 []).sample ≤ (start .tstep 30000 []).sample ∧
    (∃ t, exec .tstep (start .tstep 29999 []) = .next t) ∧ ∃ t, exec .tstep (start .tstep 30000 []) = .next t := by
  refine ⟨by decide, by decide +kernel, ⟨_, rfl⟩, ⟨_, rfl⟩⟩

/-- Each side of the condition: a sample is taken, or none is. -/
theorem witness_EachTimeCommandTakesOneSample :
    checkReported .verify (start .verify 0 []) = none ∧ (start .verify 0 []).resp = none ∧
    checkReported .totp { start .totp 0 [] with interval := 0 } ≠ none ∧
    (resumed .totp 0 [] (.fail 0)).resp ≠ none ∧ ∃ t, exec .verify (start .verify 0 []) = .next t := by
  refine ⟨by decide, rfl, by decide, by decide, _, rfl⟩

theorem witness_TruncLeavesTheCodeOfTheDigest :
    (start .trunc 0 (List.replicate 20 0)).ilen.toNat = 20 ∧ (start .trunc 0 (List.replicate 64 0)).ilen.toNat = 64 ∧
    1 ≤ ({ State.reset with digits := 10 } : State).digits.toNat ∧
    ({ State.reset with digits := 10 } : State).digits.toNat ≤ 10 := by decide

theorem witness_HotpAsksForItsCounter :
    (start .hotp 0 []).resp = none ∧ 1 ≤ (start .hotp 0 []).digits.toNat ∧ (start .hotp 0 []).digits.toNat ≤ 10 := by
  decide

theorem witness_HotpLeavesTheCodeOfTheAnswer :
    (resumed .hotp 0 [] (.ok digest1)).resp = some (.ok digest1) ∧ digest1.length = 20 := ⟨rfl, by decide⟩

theorem witness_TotpLeavesTheCodeAndTheDelay :
    (resumed .totp 0 [] (.ok digest1)).resp = some (.ok digest1) ∧ digest1.length = 20 ∧
    (resumed .totp 0 [] (.ok digest1)).interval ≠ 0 := ⟨rfl, by decide, by decide⟩

theorem witness_TotpAsksForItsTimeStep :
    (start .totp 0 []).resp = none ∧ 1 ≤ (start .totp 0 []).digits.toNat ∧ (start .totp 0 []).digits.toNat ≤ 10 ∧
    (start .totp 0 []).interval ≠ 0 := by decide

/-- BWD equal to the base counter: the boundary of the window (vector V4). -/
theorem witness_VerifyOpensItsWindow :
    let s := { start .verify 59000 [] with bwd := 1 }
    s.resp = none ∧ s.ilen.toNat ≤ s.cfg.bufBytes ∧ 1 ≤ s.digits.toNat ∧ s.digits.toNat ≤ 10 ∧ s.interval ≠ 0 ∧
    s.bwd.toNat ≤ s.sampleStep := by decide +kernel

/-- BWD one above the base counter (vector V9). -/
theorem witness_VerifyRejectsAnUnderflowingWindow :
    let s := { start .verify 59000 [] with bwd := 2 }
    s.resp = none ∧ s.ilen.toNat ≤ s.cfg.bufBytes ∧ 1 ≤ s.digits.toNat ∧ s.digits.toNat ≤ 10 ∧ s.interval ≠ 0 ∧
    s.sampleStep < s.bwd.toNat := by decide +kernel

/-- One counter to come, and none to come. -/
theorem witness_VerifyComparesOneCodeAndGoesOn :
    let s := { resumed .verify 59000 [] (.ok digest1) with n := 3, i := 1 }
    let s' := { resumed .verify 59000 [] (.ok digest1) with n := 3, i := 2 }
    s.resp = some (.ok digest1) ∧ digest1.length = 20 ∧ s.i + 1 < s.n ∧ s'.n ≤ s'.i + 1 := by
  refine ⟨rfl, ?_, ?_, ?_⟩ <;> decide

/-- 10 digits. -/
theorem witness_CodesHaveFixedWidth :
    ∃ t, exec .trunc { start .trunc 0 (List.replicate 20 0) with digits := 10 } = .next t ∧ EndedOk t ∧
      t.digits.toNat = 10 ∧ 0 < t.olen.toNat := by
  refine ⟨_, exec_eq .trunc _, ⟨?_, ?_, ?_⟩, ?_, ?_⟩ <;> decide +kernel

theorem witness_CodeRegistersStayInRange :
    ∃ t, exec .trunc { start .trunc 0 (List.replicate 20 0) with digits := 10 } = .next t ∧ EndedOk t ∧
      t.digits.toNat = 10 :=
  ⟨_, exec_eq .trunc _, ⟨by decide +kernel, by decide +kernel, by decide +kernel⟩, by decide +kernel⟩

theorem witness_HotpRunsFromCmdWriteToCode :
    let s := { State.reset with
      cfg := known, schedule := .host (.write 0x00C .word 6) :: .engine :: answerAndGoOn 0 }
    s.busy = false ∧ s.pending = none ∧ s.resp = none ∧
    s.schedule = .host (.write (s.cfg.base + 0x00C) .word 6) :: .engine :: answerAndGoOn s.portLog.length ∧
    1 ≤ s.digits.toNat ∧ s.digits.toNat ≤ 10 ∧ hmacOf s.cfg (requestFor s s.ctr.val) = .ok digest0 ∧
    digest0.length = 20 := by
  refine ⟨rfl, rfl, rfl, rfl, ?_, ?_, ?_, ?_⟩ <;> decide +kernel

theorem witness_HotpIsDeterministic :
    AtStart .hotp (whole .hotp [] 1) ∧ (whole .hotp [] 1).schedule = .engine :: answerAndGoOn 0 ∧
    ∃ t, Host.Core.run Sys2Proof.core 3 (whole .hotp [] 1) = .next t ∧ EndedOk t :=
  ⟨⟨rfl, rfl, rfl⟩, by decide, endedOk_spec (by decide +kernel)⟩

theorem witness_TotpIsTstepThenHotp :
    AtStart .totp (whole .totp [] 1) ∧ (whole .totp [] 1).schedule = .engine :: answerAndGoOn 0 ∧
    ∃ t, Host.Core.run Sys2Proof.core 3 (whole .totp [] 1) = .next t ∧ EndedOk t :=
  ⟨⟨rfl, rfl, rfl⟩, by decide, endedOk_spec (by decide +kernel)⟩

theorem witness_VerifyChecksTheWholeWindow :
    let s := whole .verify [0x33] 3
    AtStart .verify s ∧ s.ilen.toNat ≤ s.cfg.bufBytes ∧ 1 ≤ s.digits.toNat ∧ s.digits.toNat ≤ 10 ∧ s.interval ≠ 0 ∧
    s.bwd.toNat ≤ s.sampleStep ∧
    (∀ j, j < s.fwd.toNat + s.bwd.toNat + 1 →
      hmacOf s.cfg (requestFor s (s.sampleStep - s.bwd.toNat + j)) = .ok ([digest0, digest1, digest2].getD j []) ∧
      ([digest0, digest1, digest2].getD j []).length = 20) ∧
    s.schedule = .engine ::
      (List.range (s.fwd.toNat + s.bwd.toNat + 1)).flatMap (fun j => answerAndGoOn (s.portLog.length + j)) := by
  refine ⟨⟨rfl, rfl, rfl⟩, ?_, ?_, ?_, ?_, ?_, ?_, ?_⟩ <;> decide +kernel

theorem witness_UnansweredCommandsWaitForever :
    (waiting .engine).phase = .waiting (.command .hotp) ∧ (waiting .engine).schedule = List.replicate 1 .engine :=
  ⟨rfl, rfl⟩

theorem witness_CommandsKeepOperandsAndControl : ∃ t, exec .nop State.reset = .next t ∧ t.errcode = .none := ⟨_, rfl, rfl⟩

theorem witness_NopBdelayVerifyFrame : State.reset.errcode = .none ∧ ∃ t, exec .bdelay State.reset = .next t := ⟨rfl, _, rfl⟩

/-- A completion and an error. -/
theorem witness_ObufCommandsFrame :
    State.reset.cfg.wellFormed = true ∧ State.reset.errcode = .none ∧
    (∃ t, exec .b32enc State.reset = .next t ∧ t.phase = .idle ∧ t.errcode = .none) ∧
    ∃ t, exec .trunc State.reset = .next t ∧ ¬ (t.phase = .idle ∧ t.errcode = .none) := by
  refine ⟨by decide, rfl, ⟨_, exec_eq .b32enc State.reset, ?_, ?_⟩, _, exec_eq .trunc State.reset, ?_⟩ <;> decide

/-- DONE rises, and so BUSY falls with DONE, at the end of a NOP. -/
theorem witness_DoneRisesOnlyWhenACommandEnds :
    (start .nop 0 []).done = false ∧ (start .nop 0 []).busy = true ∧
    ∃ t, step (start .nop 0 []) = .next t ∧ t.done = true ∧ t.busy = false ∧ ¬ IsReset (start .nop 0 []) := by
  refine ⟨rfl, rfl, _, rfl, rfl, rfl, ?_⟩
  rintro (⟨v, rest, h, _⟩ | ⟨rest, h⟩) <;> cases h

/-- BUSY rises at a CMD write; it falls by a reset. -/
theorem witness_BusyRisesByCmdAndFallsWithDoneOrReset :
    (∃ t, step (idleBefore (.host (.write 0x00C .word 0))) = .next t ∧ t.busy = true) ∧
    (∃ t, step (waiting (.host (.write 0x004 .word 1))) = .next t ∧ t.busy = false) ∧
    IsReset (waiting (.host (.write 0x004 .word 1))) :=
  ⟨⟨_, rfl, rfl⟩, ⟨_, rfl, rfl⟩, .inl ⟨1, [], rfl, rfl⟩⟩

/-- The first and the last offset, and the last byte and the last word of IBUF. -/
theorem witness_WritesWhileBusyAreDiscarded :
    (waiting .engine).busy = true ∧ 0x014 ∈ operandOffsets ∧ 0x03C ∈ operandOffsets ∧ regAt 0x03C = some .tovrHi ∧
    (1023 < Config.default.bufBytes ∧ 1023 < 0x1000 ∧ 1023 % bytesOf .byte = 0) ∧
    (1020 + bytesOf .word ≤ Config.default.bufBytes ∧ 1020 % bytesOf .word = 0) ∧
    (waiting (.host (.write 0x03C .word 8))).schedule = [.host (.write (Config.default.base + 0x03C) .word 8)] ∧
    (waiting (.host (.write 0x13FF .byte 8))).schedule = [.host (.write (Config.default.base + 0x1000 + 1023) .byte 8)] ∧
    (waiting (.host (.read 0x03C .word))).schedule = [.host (.read (Config.default.base + 0x03C) .word)] ∧
    (waiting (.host (.read 0x13FC .word))).schedule = [.host (.read (Config.default.base + 0x1000 + 1020) .word)] ∧
    ∃ t, step (waiting .engine) = .next t ∧ ¬ IsReset (waiting .engine) := by
  refine ⟨rfl, by decide, by decide, rfl, by decide, by decide, rfl, rfl, rfl, rfl, _, rfl, ?_⟩
  rintro (⟨v, rest, h, _⟩ | ⟨rest, h⟩) <;> cases h

theorem witness_ResetSatisfiesTheInvariant : Inv State.reset where
  cfg := rfl
  ibuf := rfl
  obuf := rfl
  idle _ := ⟨rfl, rfl⟩
  running _ h := by cases h
  waiting _ h := by cases h
  clean h := by cases h
  noError _ := rfl
  afterError h := absurd rfl h
  illegal _ h := by cases h
  checked _ h := by rcases h with h | ⟨h, _⟩ <;> cases h
  counted h := by rcases h with (h | ⟨h, _⟩) | (h | ⟨h, _⟩) <;> cases h
  window h := by rcases h with h | ⟨h, _⟩ <;> cases h

/-- The invariant's other case, a HOTP that waits; and its next step. -/
theorem witness_EveryStepKeepsTheInvariant : Inv (waiting .engine) ∧ ∃ t, step (waiting .engine) = .next t := by
  refine ⟨⟨rfl, rfl, rfl, fun h => ?_, fun _ h => ?_, fun op h => ?_, fun _ => ⟨rfl, rfl, rfl, rfl⟩, fun _ => rfl,
    fun h => absurd rfl h, fun _ h => ?_, fun i h => ?_, fun h => ?_, fun h => ?_⟩, _, rfl⟩
  · cases h
  · cases h
  · injection h with h; subst h; exact ⟨.hotp, rfl, rfl, rfl, rfl, rfl⟩
  · cases h
  · rcases h with h | ⟨h, _⟩ <;> cases h
    decide
  · rcases h with (h | ⟨h, _⟩) | (h | ⟨h, _⟩) <;> cases h
  · rcases h with h | ⟨h, _⟩ <;> cases h

/-- Of OneRequestAtATime too: the step of a HOTP at its start makes the request. -/
theorem witness_OneRequestAtATime :
    ∃ t, step (start .hotp 0 []) = .next t ∧ t.portLog ≠ (start .hotp 0 []).portLog :=
  ⟨nextOf .hotp (start .hotp 0 []), exec_eq .hotp _, by decide +kernel⟩

/-- OVR rises by a discarded write, and falls by a STATUS write of 4. -/
theorem witness_OvrIsSticky :
    (∃ t, step (waiting (.host (.write 0x00C .word 0))) = .next t ∧ t.ovr = true) ∧
    ∃ t, step { idleBefore (.host (.write 0x008 .word 4)) with ovr := true } = .next t ∧ t.ovr = false :=
  ⟨⟨_, rfl, rfl⟩, ⟨_, rfl, rfl⟩⟩

/-- IBUF changes by a host write, OBUF by a command. -/
theorem witness_BuffersAreWrittenOnlyByTheirWriters :
    afterStep (fun t => t.ibuf) (idleBefore (.host (.write 0x1000 .byte 7))) = some [(0, 7)] ∧
    afterStep (fun t => t.obuf.length) (start .tstep 0 []) = some 8 := by decide +kernel

/-- MATCH is cleared by a CMD write (here of a NOP). -/
theorem witness_MatchHoldsUntilTheNextCommand :
    ∃ t, step { idleBefore (.host (.write 0x00C .word 0)) with matched := true } = .next t ∧ t.matched = false := ⟨_, rfl, rfl⟩

/-- No request outstanding; a request outstanding and another answer; and the two cancelling writes. -/
theorem witness_CancelledAnswersAreDiscarded :
    ((∃ op q, (waiting (.answer 0)).phase = .waiting op ∧ (waiting (.answer 0)).pending = some q) ∧
      0 + 1 = (waiting (.answer 0)).portLog.length) ∧
    (idleBefore (.answer 0)).pending = none ∧ (waiting (.answer 1)).portLog.length ≠ 1 + 1 ∧
    ((1 : Word).getLsbD 0 = true ∧ (2 : Word).getLsbD 1 = true) ∧
    (waiting (.host (.write 0x004 .word 2))).busy = true ∧
    (∃ t, step (waiting (.host (.write 0x004 .word 2))) = .next t) ∧
    ∃ t, step (start .hotp 0 []) = .next t ∧ t.pending ≠ none ∧ (start .hotp 0 []).pending = none := by
  refine ⟨⟨⟨_, _, rfl, rfl⟩, rfl⟩, rfl, by decide, by decide, rfl, ⟨_, rfl⟩, _, rfl, ?_, rfl⟩
  decide +kernel

/-- Busy and not busy; the first and the last reserved offset. -/
theorem witness_RegistersReadAtTheirOffsets :
    (waiting (.host (.read 0x000 .word))).busy = true ∧
    (waiting (.host (.read 0x000 .word))).schedule = [.host (.read (Config.default.base + 0x000) .word)] ∧
    (idleBefore (.host (.read 0xFFC .word))).busy = false ∧
    (0x060 ≤ 0x060 ∧ 0x060 ≤ 0xFFC ∧ 0x060 % 4 = 0) ∧ 0xFFC % 4 = 0 ∧
    (idleBefore (.host (.read 0xFFC .word))).schedule = [.host (.read (Config.default.base + 0xFFC) .word)] := by
  refine ⟨rfl, rfl, rfl, by decide, by decide, rfl⟩

theorem witness_ReadsHaveNoSideEffect :
    (idleBefore (.host (.read 0x018 .word))).busy = false ∧ ∃ t, step (idleBefore (.host (.read 0x018 .word))) = .next t ∧
      ∃ u, step { t with schedule := [.host (.read 0x018 .word)] } = .next u := ⟨rfl, _, rfl, _, rfl⟩

theorem witness_OperandWritesReadBack :
    (idleBefore (.host (.write 0x014 .word 8))).busy = false ∧ 0x014 ∈ operandOffsets ∧ regAt 0x014 = some .ilen ∧
    (idleBefore (.host (.write 0x014 .word 8))).schedule = [.host (.write (Config.default.base + 0x014) .word 8)] := by
  refine ⟨rfl, by decide, rfl, rfl⟩

/-- A read-only register, a reserved offset, and the last byte of the OBUF window. -/
theorem witness_ReadOnlyWritesAreIgnored :
    0x05C ∈ [0x000, 0x010, 0x018, 0x040, 0x044, 0x048, 0x04C, 0x050, 0x054, 0x058, 0x05C] ∧
    (idleBefore (.host (.write 0x05C .word 1))).schedule = [.host (.write (Config.default.base + 0x05C) .word 1)] ∧
    (idleBefore (.host (.write 0x060 .word 1))).schedule = [.host (.write (Config.default.base + 0x060) .word 1)] ∧
    (0xFFF < 0x1000 ∧ 0xFFF % bytesOf .byte = 0) ∧
    (idleBefore (.host (.write 0x2FFF .byte 1))).schedule = [.host (.write (Config.default.base + 0x2000 + 0xFFF) .byte 1)] := by
  refine ⟨by decide, rfl, rfl, by decide, rfl⟩

theorem witness_StatusWriteClearsDoneAndOvr :
    (idleBefore (.host (.write 0x008 .word 6))).schedule = [.host (.write (Config.default.base + 0x008) .word 6)] := rfl

/-- With ABORT while not busy, and without it while busy. -/
theorem witness_CtrlWriteSetsEnableAndClock :
    (idleBefore (.host (.write 0x004 .word 2))).schedule = [.host (.write (Config.default.base + 0x004) .word 2)] ∧
    (2 : Word).getLsbD 0 = false ∧ (idleBefore (.host (.write 0x004 .word 2))).busy = false ∧
    (12 : Word).getLsbD 0 = false ∧ (12 : Word).getLsbD 1 = false ∧
    (waiting (.host (.write 0x004 .word 12))).busy = true := by
  refine ⟨rfl, ?_, rfl, ?_, ?_, rfl⟩ <;> decide

theorem witness_AbortEndsTheRunningCommand :
    (waiting (.host (.write 0x004 .word 2))).current = some (.command .hotp) ∧
    (waiting (.host (.write 0x004 .word 2))).schedule = [.host (.write (Config.default.base + 0x004) .word 2)] ∧
    (2 : Word).getLsbD 0 = false ∧ (2 : Word).getLsbD 1 = true := ⟨rfl, rfl, by decide, by decide⟩

/-- While a command runs, and while not busy. -/
theorem witness_SoftResetKeepsOnlyTheBuffers :
    (waiting (.host (.write 0x004 .word 1))).schedule = [.host (.write (Config.default.base + 0x004) .word 1)] ∧
    (1 : Word).getLsbD 0 = true ∧ (waiting (.host (.write 0x004 .word 1))).current = some (.command .hotp) ∧
    (idleBefore (.host (.write 0x004 .word 1))).busy = false := ⟨rfl, by decide, rfl, rfl⟩

theorem witness_PowerOnPutsResetValues : (waiting .powerOn).schedule = [.powerOn] := rfl

/-- A narrow register access; the last word of a buffer, by each kind of access. -/
theorem witness_BufferAccessesAreLittleEndian :
    ((idleBefore (.host (.read 0x008 .half))).schedule = [.host (.read 0x008 .half)] ∧ widthOf (.read 0x008 .half) ≠ .word) ∧
    (1020 + bytesOf .word ≤ Config.default.bufBytes ∧ 1020 < 0x1000 ∧ 1020 % bytesOf .word = 0) ∧
    (idleBefore (.host (.write 0x13FC .word 9))).schedule = [.host (.write (Config.default.base + 0x1000 + 1020) .word 9)] ∧
    (waiting (.host (.read 0x13FC .word))).schedule = [.host (.read (Config.default.base + 0x1000 + 1020) .word)] ∧
    (idleBefore (.host (.read 0x23FC .word))).schedule = [.host (.read (Config.default.base + 0x2000 + 1020) .word)] ∧
    (idleBefore (.host (.read 0x23FC .word))).busy = false := by
  refine ⟨⟨rfl, by decide⟩, by decide, rfl, rfl, rfl, rfl⟩

/-- The byte at BUF_BYTES and the last byte of the window. -/
theorem witness_BytesBeyondTheBuffersReadZero :
    (Config.default.bufBytes ≤ 1024 ∧ 1024 < 0x1000 ∧ 1024 % bytesOf .word = 0) ∧
    (Config.default.bufBytes ≤ 0xFFF ∧ 0xFFF < 0x1000 ∧ 0xFFF % bytesOf .byte = 0) ∧
    (idleBefore (.host (.read 0x1400 .word))).schedule = [.host (.read (Config.default.base + 0x1000 + 1024) .word)] ∧
    (idleBefore (.host (.read 0x2400 .word))).schedule = [.host (.read (Config.default.base + 0x2000 + 1024) .word)] ∧
    (idleBefore (.host (.write 0x1FFF .byte 1))).schedule = [.host (.write (Config.default.base + 0x1000 + 0xFFF) .byte 1)] := by
  refine ⟨by decide, by decide, rfl, rfl, rfl⟩

/-- Each clause at its bounds: the first address outside, and the last of the register window, the first of IBUF's and the last
of OBUF's. -/
theorem witness_AccessesAreRefusedExactlyWhereNotAdmitted :
    Config.default.base + 0x3000 ≤ addrOf (.read 0x3000 .word) ∧
    (addrOf (.read 0xFFC .word) = Config.default.base + 0xFFC ∧ 0xFFC < 0x1000 ∧ 0xFFC % 4 = 0) ∧
    (addrOf (.read 0xFFF .byte) = Config.default.base + 0xFFF ∧ widthOf (.read 0xFFF .byte) ≠ .word) ∧
    (addrOf (.read 0x1000 .word) = Config.default.base + 0x1000 ∧ 0x1000 % bytesOf .word = 0) ∧
    (addrOf (.read 0x2FFF .half) = Config.default.base + 0x2FFF ∧ 0x2FFF < 0x3000 ∧ 0x2FFF % bytesOf .half ≠ 0) ∧
    addrOf (.read 0xFFF .byte) < ({ Config.default with base := 0x1000 } : Config).base := by decide

end Sys2Proof.Tests
end

section
/-! 10_state.md R54: what the block holds fixed while it is busy. -/

namespace Sys2Proof.Machine

/-! ### A step of the host -/

section
variable {s : State} {rest : List Event}

theorem step_writeReg {r : Reg} {v : Word}
    (hs : s.schedule = .host (.write (s.cfg.base + offsetOf r) .word v) :: rest) :
    step s = .next (writeReg r v { s with schedule := rest }) :=
  (step_host hs).trans (hostAccess_writeReg (s := { s with schedule := rest }) v)

theorem step_readReg {r : Reg} (hs : s.schedule = .host (.read (s.cfg.base + offsetOf r) .word) :: rest) :
    step s = .next (readReg r { s with schedule := rest }) :=
  (step_host hs).trans (hostAccess_readReg (s := { s with schedule := rest }))

theorem step_writeIbuf {k : Nat} {w : Width} {v : Word} (hk : k < 0x1000) (hw : k % bytesOf w = 0)
    (hs : s.schedule = .host (.write (s.cfg.base + 0x1000 + k) w v) :: rest) :
    step s = .next (writeIbuf k (bytesOf w) v { s with schedule := rest }) :=
  (step_host hs).trans ((hostAccess_ibuf (s := { s with schedule := rest }) hk hw).2 v)

theorem step_readIbuf {k : Nat} {w : Width} (hk : k < 0x1000) (hw : k % bytesOf w = 0)
    (hs : s.schedule = .host (.read (s.cfg.base + 0x1000 + k) w) :: rest) :
    step s = .next (readIbuf k (bytesOf w) { s with schedule := rest }) :=
  (step_host hs).trans (hostAccess_ibuf (s := { s with schedule := rest }) hk hw).1

end

/-! ### The operand registers -/

/-- The operand registers of 10_state.md R54. -/
def operandRegs : List Reg :=
  [.ilen, .digits, .interval, .fwd, .bwd, .keyh, .ctrLo, .ctrHi, .tovrLo, .tovrHi]

theorem mem_operandOffsets {off : Nat} : off ∈ operandOffsets ↔ ∃ r ∈ operandRegs, offsetOf r = off :=
  List.mem_map (l := operandRegs) (f := offsetOf)

theorem writeReg_operand {r : Reg} (h : r ∈ operandRegs) (v : Word) (s : State) :
    writeReg r v s = if s.busy then setOvr s else setOperand r v s := by
  fin_cases h <;> rfl

theorem writeReg_operand_busy {r : Reg} (h : r ∈ operandRegs) (v : Word) {s : State} (hb : s.busy = true) :
    writeReg r v s = setOvr s := by
  rw [writeReg_operand h, if_pos hb]

theorem volatileReg_operand {r : Reg} (h : r ∈ operandRegs) : volatileReg r = false := by
  fin_cases h <;> rfl

/-- A read of an operand register answers its value, busy or not. -/
theorem readReg_operand {r : Reg} (h : r ∈ operandRegs) (s : State) : readReg r s = reply (regValue r s) s := by
  simp [readReg, volatileReg_operand h]

/-- The schedule is no part of what a register holds. -/
theorem regValue_schedule (r : Reg) (s : State) (rest : List Event) :
    regValue r { s with schedule := rest } = regValue r s := by
  cases r <;> rfl

/-! ### The IBUF window -/

theorem bytesOf_le (w : Width) : bytesOf w ≤ 4 := by cases w <;> decide

/-- Inside BUF_BYTES the window shows IBUF itself. -/
theorem ibufWindowByte_inside {s : State} {k : Nat} (h : k < s.cfg.bufBytes) : ibufWindowByte s k = s.ibufByte k :=
  if_pos h

theorem writeIbuf_busy {s : State} {k : Nat} (hb : s.busy = true) (hk : k < s.cfg.bufBytes) (n : Nat) (v : Word) :
    writeIbuf k n v s = setOvr s := by
  have hin : ¬ Nat.ble s.cfg.bufBytes k = true := by rw [Nat.ble_eq]; omega
  rw [writeIbuf, if_neg hin, if_pos hb]

/-- A bus value of at most four bytes keeps each of them in the 32-bit word. -/
theorem toNat_leValue_byte {l : List Byte} (hl : l.length ≤ 4) {j : Nat} (hj : j < l.length) :
    (BitVec.ofNat 32 (leValue l)).toNat / 2 ^ (8 * j) % 2 ^ 8 = (l.getD j 0).toNat := by
  have hlt : leValue l < 2 ^ 32 :=
    (leValue_lt l).trans_le (Nat.pow_le_pow_right (by decide) (by omega))
  rw [BitVec.toNat_ofNat, Nat.mod_eq_of_lt hlt, leValue_byte l hj]

/-- A read inside IBUF answers its bytes, little-endian. -/
theorem readIbuf_inside {s : State} {k : Nat} {w : Width} (hk : k + bytesOf w ≤ s.cfg.bufBytes) :
    ∃ v, readIbuf k (bytesOf w) s = reply v s ∧
      ∀ j, j < bytesOf w → v.toNat / 2 ^ (8 * j) % 2 ^ 8 = (s.ibufByte (k + j)).toNat := by
  refine ⟨_, rfl, fun j hj => ?_⟩
  rw [toNat_leValue_byte (by simpa using bytesOf_le w) (by simpa using hj), ← ibufWindowByte_inside (by omega)]
  simp [List.getD, hj]

/-! ### What is frozen -/

/-- What a busy block holds fixed: the operand registers, IBUF with its power-on contents, and the latched clock. -/
def SameFrozen (s t : State) : Prop :=
  SameOperands s t ∧ t.ibuf = s.ibuf ∧ t.epoch = s.epoch ∧ t.clk = s.clk

theorem sameOperands_refl (s : State) : SameOperands s s := ⟨rfl, rfl, rfl, rfl, rfl, rfl, rfl, rfl⟩

theorem sameFrozen_refl (s : State) : SameFrozen s s := ⟨sameOperands_refl s, rfl, rfl, rfl⟩

/-- Nothing a command's engine step can do writes an operand, IBUF, the control bits or what no command touches. -/
theorem did_frame {i : Instr} {s t : State} (h : Did i s t) :
    SameOperands s t ∧ SameControl s t ∧ t.ibuf = s.ibuf ∧ SameRest s t := by
  cases h <;>
    exact ⟨⟨rfl, rfl, rfl, rfl, rfl, rfl, rfl, rfl⟩, ⟨rfl, rfl, rfl⟩, rfl, rfl, rfl, rfl, rfl, rfl⟩

theorem did_sameFrozen {i : Instr} {s t : State} (h : Did i s t) : SameFrozen s t := by
  obtain ⟨hop, _, hibuf, _, _, _, hepoch, hclk⟩ := did_frame h
  exact ⟨hop, hibuf, hepoch, hclk⟩

theorem engineTurn_sameFrozen {s t : State} (h : engineTurn s = .next t) : SameFrozen s t := by
  obtain ⟨rfl, _⟩ | ⟨w, _, rfl⟩ | ⟨i, _, hdid⟩ := engineTurn_cases h
  · exact sameFrozen_refl _
  · exact sameFrozen_refl _
  · exact did_sameFrozen hdid

theorem deliver_sameFrozen (k : Nat) (s : State) : SameFrozen s (deliver k s) := by
  obtain h | ⟨q, op, _, _, _, h⟩ := deliver_cases k s <;> rw [h]
  · exact sameFrozen_refl s
  · exact sameFrozen_refl s

/-- While busy, of the host's accesses only a soft reset touches what is frozen: the writes that could are discarded. -/
theorem hostDid_sameFrozen {a : Access} {s t : State} (hb : s.busy = true)
    (hr : ∀ v, a = .write (s.cfg.base + 0x004) .word v → v.getLsbD 0 = false) (h : HostDid a s t) :
    SameFrozen s t := by
  have idle_only : s.busy = false → SameFrozen s t := fun hidle => absurd (hb.symm.trans hidle) (by decide)
  cases h with
  | softReset v ha hv => exact absurd (hv.symm.trans (hr v ha)) (by decide)
  | operand _ _ _ hidle => exact idle_only hidle
  | cmd _ _ hidle => exact idle_only hidle
  | ibuf _ _ _ _ hidle => exact idle_only hidle
  | read | ignored | discarded | status | aborted | ctrl => exact sameFrozen_refl s

/-- A step of a busy block that is no reset keeps what is frozen, whichever agent moves. -/
theorem step_sameFrozen {s t : State} (hb : s.busy = true) (hr : ¬ IsReset s) (h : step s = .next t) :
    SameFrozen s t := by
  obtain ⟨rest, _, ⟨_, he⟩ | ⟨a, hs, hdid⟩ | ⟨k, _, rfl⟩ | ⟨hs, _⟩⟩ := step_cases h
  · exact engineTurn_sameFrozen (s := { s with schedule := rest }) he
  · refine hostDid_sameFrozen (s := { s with schedule := rest }) hb (fun v hv => ?_) hdid
    exact Bool.eq_false_iff.2 fun hsrst => hr (.inl ⟨v, rest, hv ▸ hs, hsrst⟩)
  · exact deliver_sameFrozen k { s with schedule := rest }
  · exact absurd (.inr ⟨rest, hs⟩) hr

end Sys2Proof.Machine

open Sys2Proof Sys2Proof.Machine

/-- Settles O41: the accesses through what a write or read of an operand register or of IBUF does while busy, and the
constancy through the inversion of `step`. -/
theorem writesWhileBusyAreDiscarded : Obligations.WritesWhileBusyAreDiscarded := by
  intro s rest hb
  refine ⟨fun off v hoff hs => ?_, fun k w v hk hwin hal hs => ?_, fun off r hoff hat hs => ?_,
    fun k w hk hwin hal hs => ?_, fun t ht hr => ?_⟩
  · obtain ⟨r, hmem, rfl⟩ := mem_operandOffsets.1 hoff
    exact (step_writeReg hs).trans (congrArg _ (writeReg_operand_busy hmem v hb))
  · exact (step_writeIbuf hwin hal hs).trans
      (congrArg _ (writeIbuf_busy (s := { s with schedule := rest }) hb hk (bytesOf w) v))
  · obtain ⟨r', hmem, rfl⟩ := mem_operandOffsets.1 hoff
    obtain rfl : r' = r := Option.some.inj ((regAt_offsetOf r').symm.trans hat)
    rw [step_readReg hs, readReg_operand hmem, regValue_schedule, reply]
  · obtain ⟨v, hv, hbytes⟩ := readIbuf_inside (s := { s with schedule := rest }) hk
    exact ⟨v, (step_readIbuf hwin hal hs).trans (congrArg _ hv), hbytes⟩
  · obtain ⟨hop, hibuf, hepoch, hclk⟩ := step_sameFrozen hb hr ht
    exact ⟨hop, ibufByte_congr hibuf hepoch, hclk⟩

end

section
/-! 30_encoding.md R95: which words decode, and how an accepted Illegal word ends. -/

namespace Sys2Proof

/-! ### The fields of a word -/

theorem toNat_opcodeField (w : Word) : (opcodeField w).toNat = w.toNat % 2 ^ 8 := by
  simp [opcodeField]

theorem rsvdField_eq_zero_iff {w : Word} : rsvdField w = 0 ↔ w.toNat / 2 ^ 8 = 0 := by
  have hw : w.toNat < 2 ^ 32 := w.isLt
  simp only [← BitVec.toNat_inj, rsvdField, BitVec.extractLsb'_toNat, Nat.shiftRight_eq_div_pow, BitVec.ofNat_eq_ofNat,
    BitVec.toNat_ofNat]
  omega

/-! ### The opcode map -/

theorem ofOpcode_opcode (i : Instr) : ofOpcode (opcode i).toNat = some i := by
  cases i <;> rfl

theorem ofOpcode_of_le {n : Nat} (h : 9 ≤ n) : ofOpcode n = none := by
  obtain ⟨k, rfl⟩ := Nat.exists_eq_add_of_le' h
  rfl

/-- Every opcode below 9 is some command's. -/
theorem exists_opcode_eq {n : Nat} (h : n < 9) : ∃ i, (opcode i).toNat = n := by
  interval_cases n
  exacts [⟨.nop, rfl⟩, ⟨.b32enc, rfl⟩, ⟨.b32dec, rfl⟩, ⟨.tstep, rfl⟩, ⟨.bdelay, rfl⟩, ⟨.trunc, rfl⟩, ⟨.hotp, rfl⟩,
    ⟨.totp, rfl⟩, ⟨.verify, rfl⟩]

/-! ### The decoder -/

theorem decode_of_rsvd_ne_zero {w : Word} (h : rsvdField w ≠ 0) : decode w = .error .reservedField :=
  if_neg h

theorem decode_of_ofOpcode_none {w : Word} (hr : rsvdField w = 0) (h : ofOpcode (opcodeField w).toNat = none) :
    decode w = .error .reservedOpcode := by
  rw [decode, if_pos hr, h]

theorem decode_of_ofOpcode_some {w : Word} {i : Instr} (hr : rsvdField w = 0)
    (h : ofOpcode (opcodeField w).toNat = some i) : decode w = .ok i := by
  rw [decode, if_pos hr, h]

/-- A word with a reserved field or a reserved opcode does not decode. -/
theorem decode_error_of_reserved {w : Word} (h : w.toNat / 2 ^ 8 ≠ 0 ∨ 9 ≤ w.toNat % 2 ^ 8) :
    ∃ e, decode w = .error e := by
  by_cases hr : rsvdField w = 0
  · have hop : 9 ≤ (opcodeField w).toNat :=
      (toNat_opcodeField w).symm ▸ h.resolve_left (not_not_intro (rsvdField_eq_zero_iff.1 hr))
    exact ⟨_, decode_of_ofOpcode_none hr (ofOpcode_of_le hop)⟩
  · exact ⟨_, decode_of_rsvd_ne_zero hr⟩

/-- A word with reserved field 0 and a command's opcode decodes as that command. -/
theorem decode_ok_of_opcode {w : Word} {i : Instr} (hr : w.toNat / 2 ^ 8 = 0)
    (hi : (opcode i).toNat = w.toNat % 2 ^ 8) : decode w = .ok i :=
  decode_of_ofOpcode_some (rsvdField_eq_zero_iff.2 hr) (by rw [toNat_opcodeField, ← hi, ofOpcode_opcode])

theorem decodeOp_of_ok {w : Word} {i : Instr} (h : decode w = .ok i) : decodeOp w = .command i := by
  rw [decodeOp, h]

theorem decodeOp_of_error {w : Word} {e : DecodeError} (h : decode w = .error e) : decodeOp w = .illegal w := by
  rw [decodeOp, h]

end Sys2Proof

namespace Sys2Proof.Machine

/-! ### The end of an Illegal word -/

theorem engineTurn_illegal {s : State} {w : Word} (h : s.phase = .running (.illegal w)) :
    engineTurn s = .next (raise .illegalCommand w s) := by
  rw [engineTurn, h]

/-- The error completion ends the command as seen from outside (40_command_lifecycle.md R117), from every state. -/
theorem endedError_raise (e : ErrCode) (info : Word) (s : State) : EndedError e info (raise e info s) :=
  ⟨rfl, rfl, rfl, rfl, rfl, rfl, rfl⟩

end Sys2Proof.Machine

open Sys2Proof Sys2Proof.Machine

/-- Settles O3: a word with a reserved field or opcode does not decode, so the engine's next move is its error completion;
every other word has the opcode of some command. -/
theorem decodingIsTotal : Obligations.DecodingIsTotal := by
  intro w
  refine ⟨fun hreserved => ?_, fun ⟨hrsvd, hlt⟩ => ?_⟩
  · obtain ⟨e, he⟩ := decode_error_of_reserved hreserved
    have hop : decodeOp w = .illegal w := decodeOp_of_error he
    refine ⟨hop, fun s _ => ⟨_, engineTurn_illegal ?_, endedError_raise _ w (accept w s)⟩⟩
    rw [accept_phase, hop]
  · obtain ⟨i, hi⟩ := exists_opcode_eq hlt
    exact ⟨i, decodeOp_of_ok (decode_ok_of_opcode hrsvd hi), hi⟩

end

section
/-! 40_command_lifecycle.md R113, R114, R115: a discarded CMD write, an Illegal word, and the operand checks. -/

namespace Sys2Proof.Machine

/-! ### CMD writes and Illegal words -/

theorem writeCmd_busy {s : State} (hb : s.busy = true) (w : Word) : writeCmd w s = setOvr s :=
  if_pos hb

/-- The engine moves where it is scheduled first, and where no agent is scheduled. -/
theorem step_engine_or_nil {s : State} {rest : List Event}
    (h : s.schedule = [] ∧ rest = [] ∨ s.schedule = .engine :: rest) :
    step s = engineTurn { s with schedule := rest } := by
  obtain ⟨hs, rfl⟩ | hs := h
  · have hsame : { s with schedule := [] } = s := by rw [← hs]
    rw [hsame, step, hs]
  · exact step_engine hs

/-! ### Each operand check, by when it fails -/

theorem ilenFits_eq_false {s : State} : ilenFits s = false ↔ s.cfg.bufBytes < s.ilen.toNat := by
  rw [ilenFits, Bool.eq_false_iff, ne_eq, Nat.ble_eq, Nat.not_le]

theorem encodingFits_eq_false {s : State} :
    Nat.ble ((8 * s.ilen.toNat + 4) / 5) s.cfg.bufBytes = false ↔ s.cfg.bufBytes < (8 * s.ilen.toNat + 5 - 1) / 5 := by
  rw [Bool.eq_false_iff, ne_eq, Nat.ble_eq, Nat.not_le, Nat.add_sub_assoc (by decide)]

theorem digitsLegal_eq_false {s : State} : digitsLegal s = false ↔ s.digits.toNat = 0 ∨ 10 < s.digits.toNat := by
  rw [digitsLegal, Bool.eq_false_iff, ne_eq, Bool.and_eq_true, Nat.ble_eq, Nat.ble_eq]
  omega

theorem intervalLegal_eq_false {s : State} : intervalLegal s = false ↔ s.interval = 0 := by
  rw [intervalLegal, bne_eq_false_iff_eq, ← BitVec.toNat_inj]
  rfl

theorem digestLength_eq_false {n : Nat} : digestLength n = false ↔ n ≠ 20 ∧ n ≠ 32 ∧ n ≠ 64 := by
  rw [Bool.eq_false_iff, ne_eq, digestLength_iff]
  omega

/-! ### The first failed check -/

theorem firstFailed_nil : firstFailed [] = none := rfl

theorem firstFailed_cons (ok : Bool) (off : Word) (cs : List (Bool × Word)) :
    firstFailed ((ok, off) :: cs) = if ok = false then some off else firstFailed cs := by
  cases ok <;> rfl

/-- The model's list of checks reports what the table of R115 does: the two differ only in B32ENC, where the list has two
checks for one offset. -/
theorem firstFailed_operandChecks (i : Instr) (s : State) :
    firstFailed (operandChecks i s) = checkReported i s := by
  cases i <;>
    simp only [operandChecks, checkReported, firstFailed_cons, firstFailed_nil, ilenFits_eq_false, encodingFits_eq_false,
      digitsLegal_eq_false, intervalLegal_eq_false, digestLength_eq_false]
  case b32enc => rw [ite_or]

/-- A failed check at a command's first engine step is all the step does. -/
theorem nextOf_checkFailed {i : Instr} {s : State} {off : Word} (hr : s.resp = none)
    (h : firstFailed (operandChecks i s) = some off) : nextOf i s = raise .invalidOperand off s := by
  cases i with
  | nop => cases h
  | b32enc | b32dec | trunc => exact withChecks_fail _ h
  | tstep => exact withChecks_fail (fun s => tstepRest (takeSample s)) h
  | bdelay => exact withChecks_fail (fun s => bdelayRest (takeSample s)) h
  | hotp | totp | verify => exact (suspended_none _ _ hr).trans (withChecks_fail _ h)

/-- InvalidOperand comes from the operand checks alone. -/
theorem check_failed_of_invalidOperand {i : Instr} {s t : State} (h : Did i s t) (hs : s.errcode = .none)
    (ht : t.errcode = .invalidOperand) : ∃ off, firstFailed (operandChecks i s) = some off := by
  cases h with
  | checkFailed off h => exact ⟨off, h⟩
  | badCharacter | underflow | badAnswer => cases ht
  | nop | encoded | decoded | tstep | bdelay | trunc | hotpEnds | totpEnds | verifyEnds => cases ht
  | hotpAsks | totpAsks | verifyAsks | verifyGoesOn => cases hs.symm.trans ht

end Sys2Proof.Machine

open Sys2Proof Sys2Proof.Machine

/-- Settles O7: the engine's move on a kept Illegal word is the error completion. -/
theorem illegalWordEndsAtOnce : Obligations.IllegalWordEndsAtOnce :=
  fun s _ => ⟨fun ⟨_, he⟩ => decodeOp_of_error he, fun hp rest hs =>
    (step_engine_or_nil hs).trans (engineTurn_illegal (s := { s with schedule := rest }) hp)⟩

/-- Settles O9: the model's list of checks reports what the table does; a failed check ends the first step, and nothing
else a command's step can do raises InvalidOperand. -/
theorem operandChecksComeFirstInOrder : Obligations.OperandChecksComeFirstInOrder := by
  refine ⟨fun i s hr => ?_, fun L => by omega⟩
  rw [← firstFailed_operandChecks]
  refine ⟨fun off hoff => ?_, fun hnone herr t ht hbad => ?_⟩
  · exact (exec_eq i s).trans (congrArg _ (nextOf_checkFailed hr hoff))
  · obtain ⟨off, hoff⟩ := check_failed_of_invalidOperand (exec_did ht) herr hbad
    exact absurd (hnone.symm.trans hoff) nofun

/-- Settles O6: CMD is a register whose write while busy only sets OVR. -/
theorem cmdWriteWhileBusyIsDiscarded : Obligations.CmdWriteWhileBusyIsDiscarded := fun s w rest hb hs =>
  (step_writeReg (r := .cmd) hs).trans (congrArg _ (writeCmd_busy (s := { s with schedule := rest }) hb w))

end

section
/-! 41_base32.md R134, R137, R138, R140: B32ENC and B32DEC over the laws of the codec, and the one undoing the other. -/

namespace Sys2Proof.Machine

/-! ### The byte-string operand -/

theorem input_getD {s : State} {k : Nat} (h : k < s.ilen.toNat) : s.input.getD k 0 = s.ibufByte k := by
  simp [State.input, List.getD, h]

/-- A byte string of ILEN bytes that IBUF shows byte for byte is the operand. -/
theorem input_eq_of_ibufByte {s : State} {out : List Byte} (hl : s.ilen.toNat = out.length)
    (hb : ∀ k, k < out.length → s.ibufByte k = out.getD k 0) : s.input = out := by
  refine List.ext_getElem (by simpa using hl) fun k _ hk => ?_
  simpa [State.input, hk] using hb k hk

/-! ### The two commands once their checks pass -/

/-- A byte string that fits a buffer is left whole, since BUF_BYTES is far below the range of OLEN. -/
theorem finishWith_leaves {out : List Byte} {s : State} (hw : s.cfg.wellFormed = true)
    (hl : out.length ≤ s.cfg.bufBytes) :
    EndedOk (finishWith out s) ∧ (finishWith out s).olen.toNat = out.length ∧
    ∀ k, k < out.length → (finishWith out s).obufByte k = out.getD k 0 := by
  obtain ⟨_, hmax, _⟩ := bufBytes_bounds hw
  obtain ⟨hend, holen, hbyte⟩ := finishWith_spec out s (by omega)
  exact ⟨hend, holen, fun k hk => (hbyte k).trans (if_pos hk)⟩

theorem exec_b32enc_of_fits {s : State} (hi : s.ilen.toNat ≤ s.cfg.bufBytes)
    (he : (8 * s.ilen.toNat + 4) / 5 ≤ s.cfg.bufBytes) :
    exec .b32enc s = .next (finishWith (base32Encode s.input) s) := by
  have hpass : firstFailed (operandChecks .b32enc s) = none := by
    rw [firstFailed_operandChecks]
    exact if_neg (by omega)
  exact (exec_eq .b32enc s).trans (congrArg _ (withChecks_pass b32encBody hpass))

theorem exec_b32dec_of_fits {s : State} (hi : s.ilen.toNat ≤ s.cfg.bufBytes) :
    exec .b32dec s = .next (b32decBody s) := by
  have hpass : firstFailed (operandChecks .b32dec s) = none := by
    rw [firstFailed_operandChecks]
    exact if_neg (by omega)
  exact (exec_eq .b32dec s).trans (congrArg _ (withChecks_pass b32decBody hpass))

theorem b32decBody_of_valid {s : State} (h : ∀ c, c ∈ s.input → val c ≠ none) :
    b32decBody s = finishWith (base32Decode s.input) s := by
  rw [b32decBody, firstInvalid_none.2 h]

theorem b32decBody_of_invalid {s : State} {k : Nat} {c : Byte} (h : firstInvalid 0 s.input = some (k, c)) :
    b32decBody s = raise .invalidCharacter (BitVec.ofNat 32 ((k <<< 8) ||| c.toNat)) s := by
  rw [b32decBody, h]

/-- ERRINFO of an invalid character keeps index and character apart. -/
theorem toNat_invalidCharacterInfo {k : Nat} (hk : k < 2 ^ 24) (c : Byte) :
    (BitVec.ofNat 32 ((k <<< 8) ||| c.toNat)).toNat = k * 2 ^ 8 + c.toNat := by
  have hc := c.isLt
  rw [← Nat.shiftLeft_add_eq_or_of_lt hc, Nat.shiftLeft_eq, BitVec.toNat_ofNat, Nat.mod_eq_of_lt (by omega)]

/-! ### Decoding undoes encoding -/

/-- Every symbol of an encoding has the value of its five stream bits. -/
theorem val_base32Encode_getD (bs : List Byte) {j : Nat} (h : j < (base32Encode bs).length) :
    val ((base32Encode bs).getD j 0) = some (bitsValue (streamBit bs) (5 * j) 5) := by
  rw [base32Encode_length] at h
  rw [base32Encode_getD bs h, val_alph (bitsValue_lt _ _ 5)]

theorem val_ne_none_of_mem_base32Encode {bs : List Byte} {c : Byte} (h : c ∈ base32Encode bs) : val c ≠ none := by
  obtain ⟨j, hj, rfl⟩ := List.getElem_of_mem h
  rw [← List.getD_eq_getElem _ 0 hj, val_base32Encode_getD bs hj]
  exact Option.some_ne_none _

/-- The text's values read as bits are the stream that was encoded. -/
theorem textBit_base32Encode (bs : List Byte) {p : Nat} (h : p < 5 * (base32Encode bs).length) :
    textBit (base32Encode bs) p = streamBit bs p := by
  have hbit := testBit_bitsValue (f := streamBit bs) (p := 5 * (p / 5)) (Nat.mod_lt p (by decide : 5 > 0))
  rw [Nat.div_add_mod] at hbit
  rw [textBit, val_base32Encode_getD bs (by omega)]
  exact hbit

/-- Eight stream bits from a byte boundary on are that byte. -/
theorem bitsValue_streamBit_byte (bs : List Byte) (k : Nat) :
    bitsValue (streamBit bs) (8 * k) 8 = (bs.getD k 0).toNat := by
  have hbit : ∀ q, 0 ≤ q → q < 0 + 8 → streamBit bs (8 * k + q) = numBit (bs.getD k 0).toNat 8 q := by
    intro q _ hq
    have hdiv : (8 * k + q) / 8 = k := by omega
    have hmod : (8 * k + q) % 8 = q := by omega
    rw [streamBit, hdiv, hmod, numBit, BitVec.testBit_toNat]
  calc bitsValue (streamBit bs) (8 * k) 8
      = bitsValue (fun q => streamBit bs (8 * k + q)) 0 8 := (bitsValue_shift _ 0 (8 * k) 8).symm
    _ = bitsValue (numBit (bs.getD k 0).toNat 8) 0 8 := bitsValue_congr hbit
    _ = (bs.getD k 0).toNat >>> 0 % 2 ^ 8 := bitsValue_numBit _ (by decide)
    _ = (bs.getD k 0).toNat := Nat.mod_eq_of_lt (bs.getD k 0).isLt

theorem base32Decode_base32Encode_length (bs : List Byte) :
    (base32Decode (base32Encode bs)).length = bs.length := by
  rw [base32Decode_length, base32Encode_length]
  omega

/-- The round trip of R140 on byte strings. -/
theorem base32Decode_base32Encode (bs : List Byte) : base32Decode (base32Encode bs) = bs := by
  refine List.ext_getElem (base32Decode_base32Encode_length bs) fun k hk hk' => ?_
  rw [base32Decode_length] at hk
  have hbits : bitsValue (textBit (base32Encode bs)) (8 * k) 8 = (bs.getD k 0).toNat :=
    (bitsValue_congr fun q _ hq => textBit_base32Encode bs (by omega)).trans (bitsValue_streamBit_byte bs k)
  rw [← List.getD_eq_getElem _ 0, ← List.getD_eq_getElem _ 0, base32Decode_getD _ hk, hbits, BitVec.ofNat_toNat,
    BitVec.setWidth_eq]

/-- B32DEC of the encoding of a byte string that fits leaves the byte string. -/
theorem exec_b32dec_of_input_encoded {u : State} {bs : List Byte} (hi : u.ilen.toNat ≤ u.cfg.bufBytes)
    (hin : u.input = base32Encode bs) : exec .b32dec u = .next (finishWith bs u) := by
  have hval : ∀ c, c ∈ u.input → val c ≠ none := fun c hc => val_ne_none_of_mem_base32Encode (hin ▸ hc)
  rw [exec_b32dec_of_fits hi, b32decBody_of_valid hval, hin, base32Decode_base32Encode]

end Sys2Proof.Machine

open Sys2Proof Sys2Proof.Machine

/-- Settles O13: the command leaves the codec's encoding, whose symbols `base32Encode_getD` gives. -/
theorem b32encLeavesTheEncoding : Obligations.B32encLeavesTheEncoding := by
  intro s hi he hw
  have hlen : (base32Encode s.input).length = (8 * s.ilen.toNat + 4) / 5 := by
    rw [base32Encode_length, input_length]
  obtain ⟨hend, holen, hbyte⟩ := finishWith_leaves (out := base32Encode s.input) hw (by omega)
  refine ⟨_, exec_b32enc_of_fits hi he, hend, holen.trans hlen, fun j hj => ?_⟩
  rw [hbyte j (by omega), base32Encode_getD _ (by rw [input_length]; omega)]

/-- Settles O14: the command leaves the codec's decoding, whose bytes `base32Decode_getD` gives. -/
theorem b32decLeavesTheDecoding : Obligations.B32decLeavesTheDecoding := by
  intro s hi hw hval
  have hlen : (base32Decode s.input).length = 5 * s.ilen.toNat / 8 := by
    rw [base32Decode_length, input_length]
  obtain ⟨hend, holen, hbyte⟩ := finishWith_leaves (out := base32Decode s.input) hw (by omega)
  refine ⟨finishWith (base32Decode s.input) s, ?_, hend, holen.trans hlen, fun k hk => ?_⟩
  · rw [exec_b32dec_of_fits hi, b32decBody_of_valid hval]
  · rw [hbyte k (by omega), base32Decode_getD _ (by rw [input_length]; omega)]

/-- Settles O15: the search for an invalid character finds the first one, and the error completion writes no output. -/
theorem b32decReportsTheFirstInvalidCharacter : Obligations.B32decReportsTheFirstInvalidCharacter := by
  intro s k c hi hw hk hc hv hbefore
  have hck : s.input.getD k 0 = c := (input_getD hk).trans hc.symm
  have hfirst : firstInvalid 0 s.input = some (k, c) := by
    rw [firstInvalid_some (j := k) (by simpa using hk) (by rw [hck, hv])
      fun j hj => by rw [input_getD (by omega)]; exact hbefore j hj, hck, Nat.zero_add]
  obtain ⟨_, hmax, _⟩ := bufBytes_bounds hw
  exact ⟨_, (exec_b32dec_of_fits hi).trans (congrArg _ (b32decBody_of_invalid hfirst)), endedError_raise _ _ s,
    toNat_invalidCharacterInfo (by omega) c, rfl⟩

/-- Settles O16: the copied text is the encoding of the original bytes, and decoding undoes encoding. -/
theorem decodeOfEncodeGivesTheBytesBack : Obligations.DecodeOfEncodeGivesTheBytesBack := by
  intro s t u hi he hw ht hcfg hilen hcopy
  have hlen : (base32Encode s.input).length = (8 * s.ilen.toNat + 4) / 5 := by
    rw [base32Encode_length, input_length]
  obtain rfl : finishWith (base32Encode s.input) s = t := by
    rw [exec_b32enc_of_fits hi he] at ht
    exact Host.Outcome.next.inj ht
  obtain ⟨_, holen, hbyte⟩ := finishWith_leaves (out := base32Encode s.input) hw (by omega)
  have hin : u.input = base32Encode s.input :=
    input_eq_of_ibufByte (by rw [hilen, holen]) fun k hk => (hcopy k (by omega)).trans (hbyte k hk)
  have hfits : u.ilen.toNat ≤ u.cfg.bufBytes := by rw [hilen, holen, hlen, hcfg]; exact he
  obtain ⟨hend, holen', hbyte'⟩ := finishWith_leaves (s := u) (out := s.input) (hcfg ▸ hw) (by simpa [hcfg] using hi)
  refine ⟨_, exec_b32dec_of_input_encoded hfits hin, hend, BitVec.eq_of_toNat_eq ?_, fun k hk => ?_⟩
  · rw [holen', input_length]
  · rw [hbyte' k (by simpa using hk), input_getD hk]

end

section
/-! 42_counter.md R155, R157: time steps follow the samples, and the delay to the next boundary. -/

namespace Sys2Proof.Machine

section
variable {s : State}

/-! ### TSTEP and BDELAY once their check passes -/

/-- INTERVAL is the one operand TSTEP and BDELAY check. -/
theorem firstFailed_of_interval_ne_zero {i : Instr} (hi : i = .tstep ∨ i = .bdelay) (h : s.interval ≠ 0) :
    firstFailed (operandChecks i s) = none := by
  rw [firstFailed_operandChecks]
  obtain rfl | rfl := hi
  · exact if_neg h
  · exact if_neg h

theorem exec_tstep_of_interval_ne_zero (h : s.interval ≠ 0) : exec .tstep s = .next (tstepRest (takeSample s)) :=
  (exec_eq .tstep s).trans (congrArg _
    (withChecks_pass (fun s => tstepRest (takeSample s)) (firstFailed_of_interval_ne_zero (.inl rfl) h)))

theorem exec_bdelay_of_interval_ne_zero (h : s.interval ≠ 0) : exec .bdelay s = .next (bdelayRest (takeSample s)) :=
  (exec_eq .bdelay s).trans (congrArg _
    (withChecks_pass (fun s => bdelayRest (takeSample s)) (firstFailed_of_interval_ne_zero (.inr rfl) h)))

/-! ### What they leave -/

@[simp] theorem tstepRest_rctr (s : State) : (tstepRest s).rctr = Pair.ofNat s.timeStep := rfl

@[simp] theorem bdelayRest_rdly (s : State) : (bdelayRest s).rdly = Pair.ofNat s.boundaryDelay := rfl

@[simp] theorem bdelayRest_rtime (s : State) : (bdelayRest s).rtime = s.rtime := rfl

theorem endedOk_bdelayRest (s : State) : EndedOk (bdelayRest s) := ⟨rfl, rfl, rfl⟩

/-- TSTEP leaves the step of its sample in RCTR, which is wide enough for it. -/
theorem exec_tstep_rctr {t : State} (h : s.interval ≠ 0) (ht : exec .tstep s = .next t) : t.rctr.val = s.sampleStep := by
  obtain rfl : tstepRest (takeSample s) = t :=
    Host.Outcome.next.inj ((exec_tstep_of_interval_ne_zero h).symm.trans ht)
  rw [tstepRest_rctr, takeSample_timeStep, sampleStep_pair]

@[simp] theorem takeSample_boundaryDelay (s : State) :
    (takeSample s).boundaryDelay = s.intervalMs - s.sample % s.intervalMs := by
  rw [State.boundaryDelay, takeSample_t, sampleValue_toNat]
  rfl

theorem bdelayRest_takeSample_rdly (s : State) :
    (bdelayRest (takeSample s)).rdly.val = s.intervalMs - s.sample % s.intervalMs := by
  rw [bdelayRest_rdly, boundaryDelay_pair, takeSample_boundaryDelay]

theorem bdelayRest_takeSample_rtime (s : State) : (bdelayRest (takeSample s)).rtime.val = s.sample := by
  rw [bdelayRest_rtime, takeSample_rtime, sampleValue_pair]

theorem intervalMs_pos (h : s.interval ≠ 0) : 0 < s.intervalMs := by
  have hpos : s.interval.toNat ≠ 0 := fun h0 => h (BitVec.eq_of_toNat_eq h0)
  unfold State.intervalMs
  omega

end

/-! ### The boundary after a sample -/

/-- What is left of the period that x lies in leads to the start of the next one. -/
theorem add_sub_mod_eq_next_multiple (x : Nat) {m : Nat} (hm : 0 < m) : x + (m - x % m) = (x / m + 1) * m := by
  have hlt : x % m < m := Nat.mod_lt x hm
  calc x + (m - x % m)
      = (x / m * m + x % m) + (m - x % m) := by rw [Nat.div_add_mod']
    _ = x / m * m + m := by omega
    _ = (x / m + 1) * m := (Nat.succ_mul _ _).symm

/-- No multiple of m lies above x and below the start of the next period. -/
theorem next_multiple_le {x m k : Nat} (hm : 0 < m) (h : x < k * m) : (x / m + 1) * m ≤ k * m :=
  Nat.mul_le_mul_right m ((Nat.div_lt_iff_lt_mul hm).2 h)

end Sys2Proof.Machine

open Sys2Proof Sys2Proof.Machine

/-- Settles O19: each RCTR holds its sample's step, and division by the one interval keeps the order of the samples. -/
theorem stepsFollowTheSamples : Obligations.StepsFollowTheSamples := by
  intro s s' t t' h hinterval hle ht ht'
  rw [exec_tstep_rctr h ht, exec_tstep_rctr (hinterval ▸ h) ht', State.sampleStep, State.sampleStep, hinterval]
  exact Nat.div_le_div_right hle

/-- Settles O20: RDLY holds what is left of the sample's period, which ends at the least multiple above the sample. -/
theorem bdelayLeavesTheBoundaryDelay : Obligations.BdelayLeavesTheBoundaryDelay := by
  intro s h
  have hpos : 0 < s.intervalMs := intervalMs_pos h
  have hmod : s.sample % s.intervalMs < s.intervalMs := Nat.mod_lt _ hpos
  have hnext : s.sample + (bdelayRest (takeSample s)).rdly.val = (s.sampleStep + 1) * s.intervalMs := by
    rw [bdelayRest_takeSample_rdly]
    exact add_sub_mod_eq_next_multiple s.sample hpos
  refine ⟨_, exec_bdelay_of_interval_ne_zero h, endedOk_bdelayRest _, bdelayRest_takeSample_rtime s, ?_, ?_,
    intervalMs_lt s, hnext, fun m hm => hnext.trans_le (next_multiple_le hpos hm)⟩
  · rw [bdelayRest_takeSample_rdly]
    omega
  · rw [bdelayRest_takeSample_rdly]
    exact Nat.sub_le _ _

end

section
/-! 43_hotp.md R167, R173, R174, R175: the answers a command admits, the codes TRUNC, HOTP and TOTP leave, and HOTP over its
whole run. -/

namespace Sys2Proof.Machine

section
variable {i : Instr} {s t u : State}

/-! ### Admitting an answer -/

theorem checkDigest_fail (st : BitVec 31) : checkDigest (.fail st) = .error (BitVec.ofNat 32 st.toNat) :=
  congrArg Except.error (BitVec.ofNat_toNat 32 st).symm

/-- The saturated length fits the 31 bits below the mark of a malformed digest, so the two only sit side by side. -/
theorem checkDigest_malformed {d : List Byte} (h : ¬ (d.length = 20 ∨ d.length = 32 ∨ d.length = 64)) :
    checkDigest (.ok d) = .error (BitVec.ofNat 32 (0x80000000 + min d.length 0x7FFFFFFF)) := by
  have hlt : min d.length 0x7FFFFFFF < 2 ^ 31 := (Nat.min_le_right _ _).trans_lt (by decide)
  have hor : 2 ^ 31 + min d.length 0x7FFFFFFF = 2 ^ 31 ||| min d.length 0x7FFFFFFF := Nat.two_pow_add_eq_or_of_lt hlt 1
  rw [checkDigest, if_neg (mt (digestLength_iff _).1 h)]
  exact congrArg (fun n => Except.error (BitVec.ofNat 32 n)) hor.symm

/-- An answer that is not admitted is all a command's engine step looks at. -/
theorem nextOf_badAnswer {r : HmacResponse} {info : Word} (ha : asks (.command i) = true) (hr : s.resp = some r)
    (hbad : checkDigest r = .error info) : nextOf i s = raise .providerFailure info { s with resp := none } := by
  have hanswer : ∀ rest, withAnswer r rest s = raise .providerFailure info { s with resp := none } := fun rest => by
    rw [withAnswer, hbad]
  cases i with
  | hotp | totp | verify => exact (suspended_some _ _ hr).trans (hanswer _)
  | nop | b32enc | b32dec | tstep | bdelay | trunc => cases ha

/-- A command that continues with an admitted digest raises no error: it ends successfully, or asks for its next counter. -/
theorem did_errcode_of_digest {d : List Byte} (h : Did i s t) (ha : asks (.command i) = true)
    (hr : s.resp = some (.ok d)) (hd : checkDigest (.ok d) = .ok d) (hs : s.errcode = .none) : t.errcode = .none := by
  have answered : s.resp ≠ none := by rw [hr]; nofun
  cases h with
  | checkFailed _ _ hn => exact absurd (hn ha) answered
  | underflow _ hn => exact absurd hn answered
  | badCharacter _ hi => subst hi; cases ha
  | badAnswer info r _ hr' hbad =>
    obtain rfl : r = .ok d := Option.some.inj (hr'.symm.trans hr)
    cases hbad.symm.trans hd
  | hotpAsks | totpAsks | verifyAsks | verifyGoesOn => exact hs
  | nop | encoded | decoded | tstep | bdelay | trunc | hotpEnds | totpEnds | verifyEnds => rfl

/-! ### The code of a successful end -/

/-- A successful TRUNC, HOTP or TOTP leaves the code of a digest; of the commands that ask, the answer's. -/
theorem did_leavesCode (hi : i = .trunc ∨ i = .hotp ∨ i = .totp) (h : Did i s t) (hok : EndedOk t) :
    ∃ d, (asks (.command i) = true → s.resp = some (.ok d)) ∧ LeavesCode d s t := by
  obtain ⟨hidle, _, herr⟩ := hok
  cases h with
  | trunc hi => exact ⟨s.input, by simp [hi, asks], leavesCode_of_emitCode (u := s) _ rfl rfl rfl rfl rfl⟩
  | hotpEnds d _ hr | totpEnds d _ hr =>
    exact ⟨d, fun _ => hr, leavesCode_of_emitCode (u := { s with resp := none }) d rfl rfl rfl rfl rfl⟩
  | checkFailed | badCharacter | underflow | badAnswer => cases herr
  | hotpAsks | totpAsks | verifyAsks | verifyGoesOn => cases hidle
  | nop hi' | encoded hi' | decoded hi' | tstep hi' | bdelay hi' | verifyEnds _ hi' => simp [hi'] at hi

/-- The code is read through the DIGITS the command leaves, which are those it was given. -/
theorem exec_leavesCode (hi : i = .trunc ∨ i = .hotp ∨ i = .totp) (h : exec i s = .next t) (hok : EndedOk t) :
    ∃ d, LeavesCode d t t := by
  obtain ⟨d, _, hcode⟩ := did_leavesCode hi (exec_did h) hok
  obtain ⟨⟨_, hdigits, _⟩, _⟩ := did_frame (exec_did h)
  rw [LeavesCode, ← hdigits] at hcode
  exact ⟨d, hcode⟩

/-- The digest and DIGITS fix the code. -/
theorem LeavesCode.unique {d : List Byte} {s' t' : State} (h : LeavesCode d s t) (h' : LeavesCode d s' t')
    (hdigits : s'.digits = s.digits) :
    t'.rtrunc = t.rtrunc ∧ t'.rmod = t.rmod ∧ t'.olen = t.olen ∧
    ∀ k, k < t.olen.toNat → t'.obufByte k = t.obufByte k := by
  obtain ⟨htrunc, hmod, holen, hbyte⟩ := h
  obtain ⟨htrunc', hmod', holen', hbyte'⟩ := h'
  rw [hdigits] at hmod' holen' hbyte'
  refine ⟨BitVec.eq_of_toNat_eq (htrunc'.trans htrunc.symm), BitVec.eq_of_toNat_eq (hmod'.trans hmod.symm),
    holen'.trans holen.symm, fun k hk => ?_⟩
  rw [holen] at hk
  exact (hbyte' k hk).trans (hbyte k hk).symm

/-! ### A run from a request to its answer -/

/-- The answer is the outstanding request's, and the command continues with it. -/
theorem run_answerAndGoOn_waiting {k : Nat} {q : HmacRequest} (hs : u.schedule = answerAndGoOn k)
    (hp : u.phase = .waiting (.command i)) (hq : u.pending = some q) (hk : k + 1 = u.portLog.length) :
    Host.Core.run Sys2Proof.core 2 u = .next (nextOf i { u with
      schedule := [], pending := none, phase := .running (.command i), resp := some (hmacOf u.cfg q) }) := by
  have hanswer : step u = .next { u with
      schedule := [.engine], pending := none, phase := .running (.command i), resp := some (hmacOf u.cfg q) } :=
    (step_answer hs).trans (congrArg _ (deliver_taken (s := { u with schedule := [.engine] }) hq hp hk))
  rw [run_step hanswer, run_step ((step_engine rfl).trans (engineTurn_command rfl)), run_zero]

theorem engineTurn_idle (h : s.phase = .idle) : engineTurn s = .next s := by
  rw [engineTurn, h]

/-- After a command's end no answer is taken and the engine does nothing. -/
theorem run_answerAndGoOn_idle {k : Nat} (hs : u.schedule = answerAndGoOn k) (hp : u.phase = .idle)
    (hq : u.pending = none) : Host.Core.run Sys2Proof.core 2 u = .next { u with schedule := [] } := by
  have hanswer : step u = .next { u with schedule := [.engine] } :=
    (step_answer hs).trans (congrArg _ (deliver_discarded (s := { u with schedule := [.engine] }) (.inl hq)))
  have hengine : step { u with schedule := [.engine] } = .next { u with schedule := [] } :=
    (step_engine rfl).trans (engineTurn_idle (s := { u with schedule := [] }) hp)
  rw [run_step hanswer, run_step hengine, run_zero]

theorem nextOf_hotp_of_checked (hr : s.resp = none) (hc : firstFailed (operandChecks .hotp s) = none) :
    nextOf .hotp s = request .hotp s.ctr.val { s with rctr := s.ctr } :=
  (suspended_none _ _ hr).trans (withChecks_pass hotpFirst hc)

/-- A HOTP that runs undisturbed to a successful end leaves the code of the collaborator's digest for KEYH and CTR. -/
theorem hotp_run_leavesCode (hat : AtStart .hotp s) (hs : s.schedule = .engine :: answerAndGoOn s.portLog.length)
    (hrun : Host.Core.run Sys2Proof.core 3 s = .next t) (hok : EndedOk t) :
    ∃ d, hmacOf s.cfg (requestFor s s.ctr.val) = .ok d ∧ LeavesCode d s t := by
  obtain ⟨hphase, hresp, _⟩ := hat
  rw [run_step ((step_engine hs).trans (engineTurn_command hphase))] at hrun
  cases hcheck : firstFailed (operandChecks .hotp s) with
  | some off =>
    rw [nextOf_checkFailed (s := { s with schedule := answerAndGoOn s.portLog.length }) hresp hcheck,
      run_answerAndGoOn_idle rfl rfl rfl] at hrun
    obtain rfl := Host.Outcome.next.inj hrun
    obtain ⟨_, _, herr⟩ := hok
    cases herr
  | none =>
    rw [nextOf_hotp_of_checked (s := { s with schedule := answerAndGoOn s.portLog.length }) hresp hcheck,
      run_answerAndGoOn_waiting rfl rfl rfl rfl] at hrun
    obtain rfl := Host.Outcome.next.inj hrun
    obtain ⟨d, hanswer, hcode⟩ := did_leavesCode (.inr (.inl rfl)) (nextOf_did _ _) hok
    refine ⟨d, ?_, hcode⟩
    rw [← requestFor_eq]
    exact Option.some.inj (hanswer rfl)

end

end Sys2Proof.Machine

open Sys2Proof Sys2Proof.Machine

/-- Settles O11: the step with an answer that `checkDigest` rejects is the error completion, and one with an admitted digest
raises nothing. -/
theorem badAnswersEndInProviderFailure : Obligations.BadAnswersEndInProviderFailure := by
  intro i s r ha hr hs
  refine ⟨nextOf i s, exec_eq i s, ?_⟩
  cases r with
  | fail st =>
    rw [nextOf_badAnswer ha hr (checkDigest_fail st)]
    exact endedError_raise _ _ _
  | ok d =>
    by_cases hlen : d.length = 20 ∨ d.length = 32 ∨ d.length = 64
    · simp only [hlen, if_true]
      have hd : checkDigest (.ok d) = .ok d := checkDigest_ok hlen
      exact ⟨hd, did_errcode_of_digest (nextOf_did i s) ha hr hd hs⟩
    · simp only [hlen, if_false]
      rw [nextOf_badAnswer ha hr (checkDigest_malformed hlen)]
      exact endedError_raise _ _ _

/-- Settles O29: OLEN is DIGITS and each byte of the code a digit's character. -/
theorem codesHaveFixedWidth : Obligations.CodesHaveFixedWidth := by
  intro i s t hi h hok
  obtain ⟨d, _, _, holen, hbyte⟩ := exec_leavesCode hi h hok
  refine ⟨holen, fun k hk => ?_⟩
  rw [hbyte k (holen ▸ hk)]
  exact digitByte_isDigit _ _ k

/-- Settles O30: RMOD is a remainder modulo 10^DIGITS of the truncated value, which lies below 2^31 and so below 10^10. -/
theorem codeRegistersStayInRange : Obligations.CodeRegistersStayInRange := by
  refine ⟨fun i s t hi h hok => ?_, by decide⟩
  obtain ⟨d, htrunc, hmod, _⟩ := exec_leavesCode hi h hok
  refine ⟨t.rtrunc.isLt, hmod.trans_lt (Nat.mod_lt _ (Nat.pow_pos (by decide))), fun hten => ?_⟩
  have hlt : truncated d < 10 ^ 10 := (truncated_lt d).trans (by decide)
  rw [hmod, hten, htrunc, Nat.mod_eq_of_lt hlt]

/-- Settles O32: the two runs ask the one function `Hmac` the same, so their codes are those of one digest. -/
theorem hotpIsDeterministic : Obligations.HotpIsDeterministic := by
  intro s s' t t' hat hat' hs hs' hcfg hkey hctr hdigits hrun hrun' hok hok'
  obtain ⟨d, hmac, hcode⟩ := hotp_run_leavesCode hat hs hrun hok
  obtain ⟨d', hmac', hcode'⟩ := hotp_run_leavesCode hat' hs' hrun' hok'
  rw [requestFor, hcfg, hkey, hctr] at hmac'
  obtain rfl : d = d' := HmacResponse.ok.inj (hmac.symm.trans hmac')
  exact hcode.unique hcode' hdigits

end

section
/-! 44_totp.md R187: a successful TOTP is TSTEP followed by HOTP at the same sample, with BDELAY's delay. -/

namespace Sys2Proof.Machine

section
variable {i : Instr} {s t u : State} {c : Nat} {d : List Byte}

/-! ### A run through one request -/

/-- The state a command continues in after its request for counter c, once the answer is taken and admitted. -/
def continued (i : Instr) (c : Nat) (u : State) : State :=
  { request i c u with schedule := [], pending := none, phase := .running (.command i), resp := none }

/-- A command that asks at its start continues with the collaborator's answer. -/
theorem run_asked (hp : s.phase = .running (.command i))
    (hs : s.schedule = .engine :: answerAndGoOn s.portLog.length) (hlog : u.portLog = s.portLog)
    (hask : nextOf i { s with schedule := answerAndGoOn s.portLog.length } =
      request i c { u with schedule := answerAndGoOn s.portLog.length }) :
    Host.Core.run Sys2Proof.core 3 s =
      .next (nextOf i { continued i c u with resp := some (hmacOf u.cfg (requestFor u c)) }) := by
  rw [run_step ((step_engine hs).trans (engineTurn_command hp)), hask,
    run_answerAndGoOn_waiting rfl rfl rfl (by rw [request_portLog, hlog]; rfl), ← requestFor_eq]
  rfl

/-- A command that ends successfully with an answer in hand had a digest of an admitted length. -/
theorem exists_digest_of_endedOk {r : HmacResponse} (ha : asks (.command i) = true) (hr : s.resp = some r)
    (hok : EndedOk (nextOf i s)) : ∃ d, r = .ok d ∧ (d.length = 20 ∨ d.length = 32 ∨ d.length = 64) := by
  obtain ⟨info, hbad⟩ | ⟨d, hd, hlen, _⟩ := checkDigest_cases r
  · obtain ⟨_, _, herr⟩ := hok
    rw [nextOf_badAnswer ha hr hbad] at herr
    cases herr
  · exact ⟨d, hd, (digestLength_iff _).1 hlen⟩

/-! ### HOTP and TOTP through their request -/

theorem nextOf_hotp_continued (hlen : d.length = 20 ∨ d.length = 32 ∨ d.length = 64) :
    nextOf .hotp { continued .hotp c u with resp := some (.ok d) } = hotpRest d (continued .hotp c u) :=
  suspended_digest (s := { continued .hotp c u with resp := some (.ok d) }) (withChecks .hotp hotpFirst) hotpRest
    rfl hlen

theorem nextOf_totp_continued (hlen : d.length = 20 ∨ d.length = 32 ∨ d.length = 64) :
    nextOf .totp { continued .totp c u with resp := some (.ok d) } = totpRest d (continued .totp c u) :=
  suspended_digest (s := { continued .totp c u with resp := some (.ok d) })
    (withChecks .totp fun s => totpFirst (takeSample s)) totpRest rfl hlen

theorem run_hotp_of_digest (hat : AtStart .hotp s) (hs : s.schedule = .engine :: answerAndGoOn s.portLog.length)
    (hc : firstFailed (operandChecks .hotp s) = none) (hmac : hmacOf s.cfg (requestFor s s.ctr.val) = .ok d)
    (hlen : d.length = 20 ∨ d.length = 32 ∨ d.length = 64) :
    Host.Core.run Sys2Proof.core 3 s =
      .next (hotpRest d (continued .hotp s.ctr.val { s with rctr := s.ctr })) := by
  obtain ⟨hphase, hresp, _⟩ := hat
  have hanswer : hmacOf s.cfg (requestFor { s with rctr := s.ctr } s.ctr.val) = .ok d := hmac
  rw [run_asked (u := { s with rctr := s.ctr }) hphase hs rfl
    (nextOf_hotp_of_checked (s := { s with schedule := answerAndGoOn s.portLog.length }) hresp hc), hanswer]
  exact congrArg _ (nextOf_hotp_continued hlen)

theorem nextOf_totp_of_checked (hr : s.resp = none) (hc : firstFailed (operandChecks .totp s) = none) :
    nextOf .totp s = totpFirst (takeSample s) :=
  (suspended_none _ _ hr).trans (withChecks_pass (fun s => totpFirst (takeSample s)) hc)

/-- A TOTP that runs undisturbed to a successful end passed its checks. -/
theorem totp_checked_of_run (hat : AtStart .totp s) (hs : s.schedule = .engine :: answerAndGoOn s.portLog.length)
    (hrun : Host.Core.run Sys2Proof.core 3 s = .next t) (hok : EndedOk t) :
    firstFailed (operandChecks .totp s) = none := by
  obtain ⟨hphase, hresp, _⟩ := hat
  refine Option.eq_none_iff_forall_ne_some.2 fun off hfail => ?_
  rw [run_step ((step_engine hs).trans (engineTurn_command hphase)),
    nextOf_checkFailed (s := { s with schedule := answerAndGoOn s.portLog.length }) hresp hfail,
    run_answerAndGoOn_idle rfl rfl rfl] at hrun
  obtain rfl := Host.Outcome.next.inj hrun
  obtain ⟨_, _, herr⟩ := hok
  cases herr

/-- A successful TOTP continued with an admitted digest for the step of its sample. -/
theorem totp_run_inv (hat : AtStart .totp s) (hs : s.schedule = .engine :: answerAndGoOn s.portLog.length)
    (hrun : Host.Core.run Sys2Proof.core 3 s = .next t) (hok : EndedOk t) :
    ∃ d, hmacOf s.cfg (requestFor s s.sampleStep) = .ok d ∧ (d.length = 20 ∨ d.length = 32 ∨ d.length = 64) ∧
      t = totpRest d (continued .totp s.sampleStep { takeSample s with rctr := Pair.ofNat s.sampleStep }) := by
  have hc := totp_checked_of_run hat hs hrun hok
  obtain ⟨hphase, hresp, _⟩ := hat
  have hask := nextOf_totp_of_checked (s := { s with schedule := answerAndGoOn s.portLog.length }) hresp hc
  rw [totpFirst, takeSample_timeStep] at hask
  rw [run_asked (u := { takeSample s with rctr := Pair.ofNat s.sampleStep }) hphase hs rfl hask] at hrun
  obtain rfl := Host.Outcome.next.inj hrun
  obtain ⟨d, hmac, hlen⟩ := exists_digest_of_endedOk rfl rfl hok
  refine ⟨d, hmac, hlen, ?_⟩
  rw [hmac]
  exact nextOf_totp_continued hlen

/-- TOTP checks what TSTEP, BDELAY and HOTP check. -/
theorem totp_checked_iff :
    firstFailed (operandChecks .totp s) = none ↔
      firstFailed (operandChecks .hotp s) = none ∧ s.interval ≠ 0 := by
  rw [firstFailed_operandChecks, firstFailed_operandChecks]
  by_cases hdigits : s.digits.toNat = 0 ∨ 10 < s.digits.toNat
  · simp [checkReported, hdigits]
  · simp [checkReported, hdigits]

end

end Sys2Proof.Machine

open Sys2Proof Sys2Proof.Machine

/-- Settles O33: TOTP and the HOTP of its step ask `Hmac` the same, so they continue with one digest; what each
then leaves is written by the same updates. -/
theorem totpIsTstepThenHotp : Obligations.TotpIsTstepThenHotp := by
  intro s t hat hs hrun hok
  obtain ⟨hhotp, hinterval⟩ := totp_checked_iff.1 (totp_checked_of_run hat hs hrun hok)
  obtain ⟨d, hmac, hlen, rfl⟩ := totp_run_inv hat hs hrun hok
  obtain ⟨_, hresp, hpending⟩ := hat
  have htstep := exec_tstep_of_interval_ne_zero hinterval
  rw [← exec_tstep_rctr hinterval htstep] at hmac
  refine ⟨_, _, _, htstep, exec_bdelay_of_interval_ne_zero hinterval,
    run_hotp_of_digest ⟨rfl, hresp, hpending⟩ hs hhotp hmac hlen,
    ⟨rfl, rfl, rfl⟩, endedOk_bdelayRest _, ⟨rfl, rfl, rfl⟩, rfl, ?_, rfl, rfl, rfl, rfl, obufByte_congr rfl rfl⟩
  rw [tstepRest_rctr, takeSample_timeStep]
  rfl

end

section
/-! 45_verify.md R198, R199, R200: the window that underflows, and the window checked whole. -/

namespace Sys2Proof.Machine

section
variable {i : Instr} {s u : State} {ds : Nat → List Byte} {rest : List Event} {k m j : Nat}

/-! ### The first engine step of VERIFY -/

theorem verify_checked (hilen : s.ilen.toNat ≤ s.cfg.bufBytes) (hpos : 1 ≤ s.digits.toNat)
    (hten : s.digits.toNat ≤ 10) (hinterval : s.interval ≠ 0) : firstFailed (operandChecks .verify s) = none := by
  rw [firstFailed_operandChecks, checkReported, if_neg (by omega), if_neg (by omega), if_neg hinterval]

theorem nextOf_verify_of_checked (hr : s.resp = none) (hc : firstFailed (operandChecks .verify s) = none) :
    nextOf .verify s = verifyFirst s :=
  (suspended_none _ _ hr).trans (withChecks_pass verifyFirst hc)

theorem verifyFirst_underflow (hb : s.sampleStep < s.bwd.toNat) :
    verifyFirst s = raise .counterUnderflow 0 { takeSample s with rctr := Pair.ofNat s.sampleStep } := by
  rw [verifyFirst_eq, if_pos hb]

/-! ### The window -/

/-- The first counter of the window (45_verify.md R196). -/
def State.windowStart (s : State) : Nat := s.sampleStep - s.bwd.toNat

/-- The number of counters of the window (R197). -/
def State.windowSize (s : State) : Nat := s.fwd.toNat + s.bwd.toNat + 1

/-- What the HMAC port has seen after the window's first n requests, newest first. -/
def windowLog (s : State) (n : Nat) : List HmacRequest :=
  ((List.range n).map fun j => requestFor s (s.windowStart + j)).reverse ++ s.portLog

theorem windowLog_succ (s : State) (n : Nat) :
    windowLog s (n + 1) = requestFor s (s.windowStart + n) :: windowLog s n := by
  simp [windowLog, List.range_succ]

theorem windowLog_length (s : State) (n : Nat) : (windowLog s n).length = s.portLog.length + n := by
  simp [windowLog, Nat.add_comm]

/-- Whether some code of the window's first n digests is the candidate (R199, R200). -/
def windowMatches (s : State) (ds : Nat → List Byte) (n : Nat) : Bool :=
  (List.range n).any fun j => codeOf (ds j) s.digits.toNat == s.input

theorem windowMatches_succ (s : State) (ds : Nat → List Byte) (n : Nat) :
    windowMatches s ds (n + 1) = (windowMatches s ds n || codeOf (ds n) s.digits.toNat == s.input) := by
  simp [windowMatches, List.range_succ]

theorem windowMatches_iff {n : Nat} :
    windowMatches s ds n = true ↔ ∃ j, j < n ∧ codeOf (ds j) s.digits.toNat = s.input := by
  simp [windowMatches]

/-- The VERIFY started in s with the codes of its first j digests compared and counter j to be asked for. -/
def inWindow (s : State) (ds : Nat → List Byte) (j : Nat) (rest : List Event) : State :=
  { takeSample s with
    rctr := Pair.ofNat s.sampleStep, start := s.windowStart, n := s.windowSize, i := j, hit := windowMatches s ds j
    portLog := windowLog s j, phase := .running (.command .verify), pending := none, resp := none, schedule := rest }

/-- VERIFY waits for the answer to counter j of its window. -/
def awaiting (s : State) (ds : Nat → List Byte) (j : Nat) (rest : List Event) : State :=
  request .verify (s.windowStart + j) (inWindow s ds j rest)

/-- VERIFY has the digest of counter j in hand. -/
def answered (s : State) (ds : Nat → List Byte) (j : Nat) (rest : List Event) : State :=
  { inWindow s ds j rest with portLog := windowLog s (j + 1), resp := some (.ok (ds j)) }

/-- The code of counter j is compared, and the window index still at j. -/
def compared (s : State) (ds : Nat → List Byte) (j : Nat) (rest : List Event) : State :=
  { inWindow s ds (j + 1) rest with i := j }

/-- VERIFY has ended with the whole window compared. -/
def verified (s : State) (ds : Nat → List Byte) : State :=
  complete { compared s ds (s.fwd.toNat + s.bwd.toNat) [] with matched := windowMatches s ds s.windowSize }

theorem awaiting_pending : (awaiting s ds j rest).pending = some (requestFor s (s.windowStart + j)) :=
  congrArg some (requestFor_eq s _)

theorem awaiting_portLog : (awaiting s ds j rest).portLog = windowLog s (j + 1) := by
  rw [windowLog_succ, ← requestFor_eq]
  rfl

/-- A window that does not underflow opens at its first counter. -/
theorem verifyFirst_opens (hr : s.resp = none) (hb : s.bwd.toNat ≤ s.sampleStep) :
    verifyFirst { s with schedule := rest } = awaiting s ds 0 rest := by
  have hsample : ¬ State.sampleStep { s with schedule := rest } < s.bwd.toNat := Nat.not_lt.2 hb
  rw [verifyFirst_eq, if_neg hsample, awaiting, inWindow, ← hr]
  rfl

theorem step_verify_opens (hat : AtStart .verify s) (hs : s.schedule = .engine :: rest)
    (hc : firstFailed (operandChecks .verify s) = none) (hb : s.bwd.toNat ≤ s.sampleStep) :
    step s = .next (awaiting s ds 0 rest) := by
  obtain ⟨hphase, hresp, _⟩ := hat
  calc step s = engineTurn { s with schedule := rest } := step_engine hs
    _ = .next (nextOf .verify { s with schedule := rest }) := engineTurn_command hphase
    _ = .next (verifyFirst { s with schedule := rest }) :=
        congrArg _ (nextOf_verify_of_checked (s := { s with schedule := rest }) hresp hc)
    _ = .next (awaiting s ds 0 rest) := congrArg _ (verifyFirst_opens hresp hb)

/-! ### One answer -/

/-- An answer to the outstanding request and the engine's step with it, whatever comes after them. -/
theorem run_answerAndGoOn_append {q : HmacRequest} (hs : u.schedule = answerAndGoOn k ++ rest)
    (hp : u.phase = .waiting (.command i)) (hq : u.pending = some q) (hk : k + 1 = u.portLog.length) :
    Host.Core.run Sys2Proof.core (m + 2) u = Host.Core.run Sys2Proof.core m (nextOf i { u with
      schedule := rest, pending := none, phase := .running (.command i), resp := some (hmacOf u.cfg q) }) := by
  have hanswer : step u = .next { u with
      schedule := .engine :: rest, pending := none, phase := .running (.command i), resp := some (hmacOf u.cfg q) } :=
    (step_answer hs).trans (congrArg _ (deliver_taken (s := { u with schedule := .engine :: rest }) hq hp hk))
  rw [run_step hanswer, run_step ((step_engine rfl).trans (engineTurn_command rfl))]

/-- With the digest of counter j in hand VERIFY compares its code. -/
theorem nextOf_verify_answered (hlen : (ds j).length = 20 ∨ (ds j).length = 32 ∨ (ds j).length = 64) :
    nextOf .verify (answered s ds j rest) = verifyNext (compared s ds j rest) := by
  have hinput : (inWindow s ds j rest).input = s.input := input_congr rfl rfl rfl
  have hhit : windowMatches s ds (j + 1) =
      (windowMatches s ds j || codeText (dynTrunc (ds j)) s.digits.toNat == (inWindow s ds j rest).input) := by
    rw [windowMatches_succ, codeText_eq, hinput]
  calc nextOf .verify (answered s ds j rest)
      = verifyRest (ds j) { answered s ds j rest with resp := none } :=
        suspended_digest (s := answered s ds j rest) (withChecks .verify verifyFirst) verifyRest rfl hlen
    _ = verifyNext (compared s ds j rest) := by
        rw [compared, inWindow, hhit]
        rfl

/-- The answer to counter j, taken and compared. -/
theorem run_awaiting (hmac : hmacOf s.cfg (requestFor s (s.windowStart + j)) = .ok (ds j))
    (hlen : (ds j).length = 20 ∨ (ds j).length = 32 ∨ (ds j).length = 64) :
    Host.Core.run Sys2Proof.core (m + 2) (awaiting s ds j (answerAndGoOn (s.portLog.length + j) ++ rest)) =
      Host.Core.run Sys2Proof.core m (verifyNext (compared s ds j rest)) := by
  rw [run_answerAndGoOn_append rfl rfl awaiting_pending (by rw [awaiting_portLog, windowLog_length]; rfl),
    ← nextOf_verify_answered hlen, answered, ← hmac, ← awaiting_portLog (ds := ds) (rest := rest)]
  rfl

/-- After a comparison the next counter of the window is asked for, whether it matched or not. -/
theorem verifyNext_compared (h : j + 1 < s.windowSize) :
    verifyNext (compared s ds j rest) = awaiting s ds (j + 1) rest :=
  if_pos h

/-- After the last comparison VERIFY ends. -/
theorem verifyNext_compared_last : verifyNext (compared s ds (s.fwd.toNat + s.bwd.toNat) []) = verified s ds :=
  if_neg (Nat.lt_irrefl s.windowSize)

/-! ### The whole window -/

/-- Every counter of the window is answered with an admitted digest. -/
def WindowAnswered (s : State) (ds : Nat → List Byte) : Prop :=
  ∀ j, j < s.windowSize → hmacOf s.cfg (requestFor s (s.windowStart + j)) = .ok (ds j) ∧
    ((ds j).length = 20 ∨ (ds j).length = 32 ∨ (ds j).length = 64)

/-- The agents of m counters of the window from counter j on. -/
def windowAgents (s : State) (j m : Nat) : List Event :=
  (List.range' j m).flatMap fun k => answerAndGoOn (s.portLog.length + k)

theorem windowAgents_succ (s : State) (j m : Nat) :
    windowAgents s j (m + 1) = answerAndGoOn (s.portLog.length + j) ++ windowAgents s (j + 1) m := by
  rw [windowAgents, List.range'_succ, List.flatMap_cons, windowAgents]

theorem run_awaiting_windowAgents (hanswers : WindowAnswered s ds) (hj : j < s.windowSize) :
    Host.Core.run Sys2Proof.core (2 * (m + 1)) (awaiting s ds j (windowAgents s j (m + 1))) =
      Host.Core.run Sys2Proof.core (2 * m) (verifyNext (compared s ds j (windowAgents s (j + 1) m))) := by
  obtain ⟨hmac, hlen⟩ := hanswers j hj
  rw [windowAgents_succ, Nat.mul_succ, run_awaiting hmac hlen]

/-- From the request of counter j the agents of the counters still to come lead to the end. -/
theorem run_window (hanswers : WindowAnswered s ds) (hj : j + (m + 1) = s.windowSize) :
    Host.Core.run Sys2Proof.core (2 * (m + 1)) (awaiting s ds j (windowAgents s j (m + 1))) =
      .next (verified s ds) := by
  rw [run_awaiting_windowAgents hanswers (by omega)]
  induction m generalizing j with
  | zero =>
    obtain rfl : j = s.fwd.toNat + s.bwd.toNat := Nat.succ.inj hj
    exact congrArg _ verifyNext_compared_last
  | succ m ih =>
    rw [verifyNext_compared (by omega), run_awaiting_windowAgents hanswers (by omega)]
    exact ih (by omega)

end

end Sys2Proof.Machine

open Sys2Proof Sys2Proof.Machine

/-- Settles O27: VERIFY's first step passes its checks, takes its sample and raises the underflow instead of opening the
window. -/
theorem verifyRejectsAnUnderflowingWindow : Obligations.VerifyRejectsAnUnderflowingWindow := by
  intro s hr hilen hpos hten hinterval hb
  have hfirst := (nextOf_verify_of_checked hr (verify_checked hilen hpos hten hinterval)).trans
    (verifyFirst_underflow hb)
  exact ⟨_, (exec_eq .verify s).trans (congrArg _ hfirst), endedError_raise _ _ _, sampleValue_pair s,
    sampleStep_pair s, rfl⟩

/-- Settles O34: the first step opens the window, and each answer, by induction over the counters still to come, leads
to the next counter's request or to the end. -/
theorem verifyChecksTheWholeWindow : Obligations.VerifyChecksTheWholeWindow := by
  intro s ds hat hilen hpos hten hinterval hb hanswers hs
  rw [List.range_eq_range'] at hs
  have hopens := step_verify_opens (ds := ds) hat hs (verify_checked hilen hpos hten hinterval) hb
  exact ⟨verified s ds, (run_step hopens).trans (run_window hanswers (Nat.zero_add _)), ⟨rfl, rfl, rfl⟩, rfl,
    windowMatches_iff, rfl, rfl, rfl, rfl, rfl, rfl⟩

end

section
/-! 30_encoding.md section 2: of all 2^32 words each command has exactly one. -/

namespace Sys2Proof

variable {w : Word} {i : Instr}

theorem opcode_of_ofOpcode {n : Nat} (h : ofOpcode n = some i) : n = (opcode i).toNat := by
  by_cases hn : n < 9
  · obtain ⟨j, rfl⟩ := exists_opcode_eq hn
    rw [ofOpcode_opcode, Option.some.injEq] at h
    rw [h]
  · rw [ofOpcode_of_le (Nat.le_of_not_lt hn)] at h
    cases h

/-- Only a word with reserved field 0 and the command's opcode decodes as the command. -/
theorem fields_of_decode_ok (h : decode w = .ok i) :
    w.toNat / 2 ^ 8 = 0 ∧ w.toNat % 2 ^ 8 = (opcode i).toNat := by
  by_cases hr : rsvdField w = 0
  · cases hop : ofOpcode (opcodeField w).toNat with
    | none => cases (decode_of_ofOpcode_none hr hop).symm.trans h
    | some j =>
      obtain rfl : j = i := Except.ok.inj ((decode_of_ofOpcode_some hr hop).symm.trans h)
      exact ⟨rsvdField_eq_zero_iff.1 hr, toNat_opcodeField w ▸ opcode_of_ofOpcode hop⟩
  · cases (decode_of_rsvd_ne_zero hr).symm.trans h

theorem toNat_encode (i : Instr) : (encode i).toNat = (opcode i).toNat := by
  cases i <;> rfl

theorem eq_encode_of_decode_ok (h : decode w = .ok i) : w = encode i := by
  obtain ⟨hrsvd, hop⟩ := fields_of_decode_ok h
  refine BitVec.eq_of_toNat_eq ?_
  rw [toNat_encode, ← hop]
  omega

theorem decode_encode (i : Instr) : decode (encode i) = .ok i := by
  have hlt : (opcode i).toNat < 2 ^ 8 := (opcode i).isLt
  refine decode_ok_of_opcode ?_ ?_ <;> rw [toNat_encode]
  · exact Nat.div_eq_of_lt hlt
  · exact (Nat.mod_eq_of_lt hlt).symm

theorem Instr.wellFormed_eq_true (i : Instr) : i.wellFormed = true := by
  cases i <;> rfl

end Sys2Proof

open Sys2Proof Sys2Proof.Machine

/-- Settles O1: each word is evaluated by the decoder. -/
theorem writtenWordsDecode : Obligations.WrittenWordsDecode :=
  ⟨rfl, rfl, rfl, rfl, rfl, rfl, rfl, rfl, rfl, rfl, rfl, rfl⟩

/-- Settles O2: the reserved field and the opcode fix all 32 bits of a word that decodes. -/
theorem everyCommandHasExactlyOneWord : Obligations.EveryCommandHasExactlyOneWord :=
  fun i => ⟨Instr.wellFormed_eq_true i, decode_encode i, fun _ => eq_encode_of_decode_ok⟩

end

section
/-! 40_command_lifecycle.md section 3 and 30_encoding.md section 1: how one engine step of a command ends, and what it
leaves unchanged. -/

namespace Sys2Proof.Machine

variable {i : Instr} {s t : State}

/-! ### The end or the request -/

/-- An engine step ends its command, or makes one request and waits for the answer. -/
theorem did_ends_or_asks (h : Did i s t) :
    (t.phase = .idle ∧ t.done = true ∧ t.portLog = s.portLog) ∨
    (asks (.command i) = true ∧ t.phase = .waiting (.command i) ∧ t.done = s.done ∧
      ∃ q, t.pending = some q ∧ t.portLog = q :: s.portLog ∧ q.wellFormed = true ∧ q.key = s.keyh) := by
  cases h with
  | checkFailed | badCharacter | underflow | badAnswer => exact .inl ⟨rfl, rfl, rfl⟩
  | nop | encoded | decoded | tstep | bdelay | trunc | hotpEnds | totpEnds | verifyEnds => exact .inl ⟨rfl, rfl, rfl⟩
  | hotpAsks hi | totpAsks hi | verifyAsks hi | verifyGoesOn _ hi =>
    subst hi
    refine .inr ⟨rfl, rfl, rfl, _, rfl, rfl, ?_, rfl⟩
    rw [requestFor_eq]
    exact requestFor_wellFormed _ _

/-- An error is the error completion; it leaves what it finds, but for the sample and step of a window that
underflows. -/
theorem did_failed (h : Did i s t) (hs : s.errcode = .none) (ht : t.errcode ≠ .none) :
    EndedError t.errcode t.errinfo t ∧ t.obuf = s.obuf ∧ t.rtrunc = s.rtrunc ∧ t.rmod = s.rmod ∧ t.rdly = s.rdly ∧
    (t.rtime = s.rtime ∨ (i = .verify ∧ s.resp = none ∧ t.rtime.val = s.sample)) ∧
    (t.rctr = s.rctr ∨ (i = .verify ∧ s.resp = none ∧ t.rctr.val = s.sampleStep)) := by
  cases h with
  | checkFailed | badCharacter | badAnswer =>
    exact ⟨endedError_raise _ _ _, rfl, rfl, rfl, rfl, .inl rfl, .inl rfl⟩
  | underflow hi hr =>
    exact ⟨endedError_raise _ _ _, rfl, rfl, rfl, rfl, .inr ⟨hi, hr, sampleValue_pair s⟩,
      .inr ⟨hi, hr, sampleStep_pair s⟩⟩
  | nop | encoded | decoded | tstep | bdelay | trunc | hotpEnds | totpEnds | verifyEnds => exact absurd rfl ht
  | hotpAsks | totpAsks | verifyAsks | verifyGoesOn => exact absurd hs ht

/-- ERRINFO changes only by an error, and MATCH of a command without an error only by VERIFY. -/
theorem did_noError (h : Did i s t) (ht : t.errcode = .none) :
    t.errinfo = s.errinfo ∧ (i ≠ .verify → t.matched = s.matched) := by
  cases h with
  | checkFailed | badCharacter | underflow | badAnswer => cases ht
  | verifyEnds _ hi => exact ⟨rfl, fun hne => absurd hi hne⟩
  | nop | encoded | decoded | tstep | bdelay | trunc | hotpEnds | totpEnds => exact ⟨rfl, fun _ => rfl⟩
  | hotpAsks | totpAsks | verifyAsks | verifyGoesOn => exact ⟨rfl, fun _ => rfl⟩

/-! ### The time sample -/

/-- The engine steps that take a time sample (42_counter.md R151). -/
def TakesSample (i : Instr) (s : State) : Prop :=
  (i = .tstep ∨ i = .bdelay ∨ ((i = .totp ∨ i = .verify) ∧ s.resp = none)) ∧ checkReported i s = none

theorem did_sample (h : Did i s t) :
    (TakesSample i s ∧ t.rtime.val = s.sample ∧ t.draws = if s.clk then s.draws else s.draws + 1) ∨
    (¬ TakesSample i s ∧ t.rtime = s.rtime ∧ t.draws = s.draws) := by
  cases h with
  | tstep hi hc => exact .inl ⟨⟨.inl hi, firstFailed_operandChecks i s ▸ hc⟩, sampleValue_pair s, rfl⟩
  | bdelay hi hc => exact .inl ⟨⟨.inr (.inl hi), firstFailed_operandChecks i s ▸ hc⟩, sampleValue_pair s, rfl⟩
  | totpAsks hi hr hc =>
    exact .inl ⟨⟨.inr (.inr ⟨.inl hi, hr⟩), firstFailed_operandChecks i s ▸ hc⟩, sampleValue_pair s, rfl⟩
  | underflow hi hr hc | verifyAsks hi hr hc =>
    exact .inl ⟨⟨.inr (.inr ⟨.inr hi, hr⟩), firstFailed_operandChecks i s ▸ hc⟩, sampleValue_pair s, rfl⟩
  | checkFailed off hc =>
    rw [firstFailed_operandChecks] at hc
    exact .inr ⟨fun ⟨_, hpass⟩ => absurd (hc.symm.trans hpass) nofun, rfl, rfl⟩
  | nop hi | encoded hi | decoded hi | trunc hi | badCharacter _ hi | hotpAsks hi | hotpEnds _ hi =>
    exact .inr ⟨fun ⟨hfirst, _⟩ => by simp [hi] at hfirst, rfl, rfl⟩
  | badAnswer _ _ hi hr =>
    refine .inr ⟨fun ⟨hfirst, _⟩ => ?_, rfl, rfl⟩
    obtain rfl | rfl | ⟨_, hnone⟩ := hfirst
    · cases hi
    · cases hi
    · cases hr.symm.trans hnone
  | totpEnds _ hi hr | verifyGoesOn _ hi hr | verifyEnds _ hi hr =>
    exact .inr ⟨fun ⟨hfirst, _⟩ => by simp [hi, hr] at hfirst, rfl, rfl⟩

/-! ### The result registers -/

/-- A step keeps the result registers outside its command's row of 30_encoding.md section 1. -/
theorem did_results (h : Did i s t) :
    (writesRtime (.command i) = false → t.rtime = s.rtime) ∧ (writesRctr (.command i) = false → t.rctr = s.rctr) ∧
    (writesRdly (.command i) = false → t.rdly = s.rdly) ∧
    (writesCode (.command i) = false → t.rtrunc = s.rtrunc ∧ t.rmod = s.rmod) := by
  cases h with
  | checkFailed | badCharacter | badAnswer => exact ⟨fun _ => rfl, fun _ => rfl, fun _ => rfl, fun _ => ⟨rfl, rfl⟩⟩
  | nop | encoded | decoded => exact ⟨fun _ => rfl, fun _ => rfl, fun _ => rfl, fun _ => ⟨rfl, rfl⟩⟩
  | tstep hi => subst hi; exact ⟨nofun, nofun, fun _ => rfl, fun _ => ⟨rfl, rfl⟩⟩
  | bdelay hi => subst hi; exact ⟨nofun, fun _ => rfl, nofun, fun _ => ⟨rfl, rfl⟩⟩
  | trunc hi | hotpEnds _ hi => subst hi; exact ⟨fun _ => rfl, fun _ => rfl, fun _ => rfl, nofun⟩
  | hotpAsks hi => subst hi; exact ⟨fun _ => rfl, nofun, fun _ => rfl, nofun⟩
  | totpAsks hi | totpEnds _ hi => subst hi; exact ⟨nofun, nofun, nofun, nofun⟩
  | underflow hi | verifyAsks hi | verifyGoesOn _ hi | verifyEnds _ hi =>
    subst hi
    exact ⟨nofun, nofun, fun _ => rfl, fun _ => ⟨rfl, rfl⟩⟩

/-! ### OBUF -/

theorem digits_le_of_checked (hi : i = .trunc ∨ i = .hotp ∨ i = .totp)
    (hc : firstFailed (operandChecks i s) = none) : s.digits.toNat ≤ 10 := by
  rw [firstFailed_operandChecks] at hc
  by_contra hten
  have hbad : s.digits.toNat = 0 ∨ 10 < s.digits.toNat := .inr (by omega)
  obtain rfl | rfl | rfl := hi <;> simp only [checkReported, if_pos hbad] at hc
  · split at hc <;> cases hc
  · cases hc
  · cases hc

theorem encoding_fits_of_checked (hc : firstFailed (operandChecks .b32enc s) = none) :
    (8 * s.ilen.toNat + 4) / 5 ≤ s.cfg.bufBytes := by
  rw [firstFailed_operandChecks] at hc
  by_contra hlong
  exact absurd (hc.symm.trans (if_pos (.inr (by omega)))) nofun

theorem text_fits_of_checked (hc : firstFailed (operandChecks .b32dec s) = none) : s.ilen.toNat ≤ s.cfg.bufBytes := by
  rw [firstFailed_operandChecks] at hc
  by_contra hlong
  exact absurd (hc.symm.trans (if_pos (by omega))) nofun

/-- The step ends its command with the byte string `out` stored in OBUF from index 0 on, and its length in OLEN. -/
def Stores (out : List Byte) (s t : State) : Prop :=
  (t.phase = .idle ∧ t.errcode = .none) ∧ t.obuf = s.obuf.writeList 0 out ∧ t.olen.toNat = out.length

theorem stores_finishWith {out : List Byte} (hw : s.cfg.wellFormed = true) (hl : out.length ≤ s.cfg.bufBytes) :
    Stores out s (finishWith out s) := by
  obtain ⟨_, holen, _⟩ := finishWith_leaves hw hl
  exact ⟨⟨rfl, rfl⟩, rfl, holen⟩

/-- A step stores to OBUF only at a successful end, and then no more than OBUF holds where the checks passed, which they
did at the latest when the command made its request. -/
theorem did_obuf (hw : s.cfg.wellFormed = true) (h : Did i s t) :
    t.obuf = s.obuf ∨
    ((s.resp = none → firstFailed (operandChecks i s) = none) ∧
      ∃ out, Stores out s t ∧ (firstFailed (operandChecks i s) = none → out.length ≤ s.cfg.bufBytes)) := by
  obtain ⟨hmin, _⟩ := bufBytes_bounds hw
  have code_fits (hi : i = .trunc ∨ i = .hotp ∨ i = .totp) (n : Nat)
      (hc : firstFailed (operandChecks i s) = none) : (codeText n s.digits.toNat).length ≤ s.cfg.bufBytes := by
    have := digits_le_of_checked hi hc
    rw [codeText_length]
    omega
  cases h with
  | checkFailed | badCharacter | underflow | badAnswer => exact .inl rfl
  | hotpAsks | totpAsks | verifyAsks | verifyGoesOn => exact .inl rfl
  | nop | bdelay | verifyEnds => exact .inl rfl
  | encoded hi hc =>
    subst hi
    have hl : (base32Encode s.input).length ≤ s.cfg.bufBytes := by
      rw [base32Encode_length, input_length]
      exact encoding_fits_of_checked hc
    exact .inr ⟨fun _ => hc, _, stores_finishWith hw hl, fun _ => hl⟩
  | decoded hi hc =>
    subst hi
    have hl : (base32Decode s.input).length ≤ s.cfg.bufBytes := by
      have := text_fits_of_checked hc
      rw [base32Decode_length, input_length]
      omega
    exact .inr ⟨fun _ => hc, _, stores_finishWith hw hl, fun _ => hl⟩
  | tstep _ hc => exact .inr ⟨fun _ => hc, be8 _, ⟨⟨rfl, rfl⟩, rfl, rfl⟩, fun _ => by rw [be8_length]; omega⟩
  | trunc hi hc =>
    exact .inr ⟨fun _ => hc, _, ⟨⟨rfl, rfl⟩, rfl, (codeText_length _ _).symm⟩, code_fits (.inl hi) _⟩
  | hotpEnds _ hi hr =>
    exact .inr ⟨fun hnone => absurd (hr.symm.trans hnone) nofun, _, ⟨⟨rfl, rfl⟩, rfl, (codeText_length _ _).symm⟩,
      code_fits (.inr (.inl hi)) _⟩
  | totpEnds _ hi hr =>
    exact .inr ⟨fun hnone => absurd (hr.symm.trans hnone) nofun, _, ⟨⟨rfl, rfl⟩, rfl, (codeText_length _ _).symm⟩,
      code_fits (.inr (.inr hi)) _⟩

theorem sameObufFrom_of_obuf (ho : t.obuf = s.obuf) (he : t.epoch = s.epoch) (len : Nat) : SameObufFrom len s t :=
  fun k _ => obufByte_congr ho he k

theorem sameObufFrom_of_writeList {out : List Byte} (ho : t.obuf = s.obuf.writeList 0 out) (he : t.epoch = s.epoch) :
    SameObufFrom out.length s t :=
  fun k hk => (obufByte_writeList ho he k).trans (if_neg (by omega))

/-- NOP, BDELAY and VERIFY store nothing to OBUF. -/
theorem did_storesNothing (hi : i = .nop ∨ i = .bdelay ∨ i = .verify) (h : Did i s t) :
    t.obuf = s.obuf ∧ (t.errcode = .none → t.olen = s.olen) := by
  cases h with
  | checkFailed | badCharacter | underflow | badAnswer => exact ⟨rfl, nofun⟩
  | nop | bdelay | verifyEnds | hotpAsks | totpAsks | verifyAsks | verifyGoesOn => exact ⟨rfl, fun _ => rfl⟩
  | encoded hi' | decoded hi' | tstep hi' | trunc hi' | hotpEnds _ hi' | totpEnds _ hi' => simp [hi'] at hi

end Sys2Proof.Machine

open Sys2Proof Sys2Proof.Machine

/-- Settles O8: by the inversion of exec, which always answers. -/
theorem everyEngineStepEndsOrAsksOnce : Obligations.EveryEngineStepEndsOrAsksOnce :=
  fun i s => ⟨nextOf i s, exec_eq i s, did_ends_or_asks (nextOf_did i s)⟩

/-- Settles O10: every error is the error completion, which writes no result of its own. -/
theorem failedCommandLeavesNoResult : Obligations.FailedCommandLeavesNoResult :=
  fun _ _ _ hs h ht => did_failed (exec_did h) hs ht

/-- Settles O12: NOP's meaning is the successful completion. -/
theorem nopOnlyCompletes : Obligations.NopOnlyCompletes := fun _ => rfl

/-- Settles O18: the step that takes the sample is the one that passes the checks of a time command. -/
theorem eachTimeCommandTakesOneSample : Obligations.EachTimeCommandTakesOneSample := by
  intro i s t h
  obtain ⟨htakes, hsample⟩ | ⟨hkeeps, hsame⟩ := did_sample (exec_did h)
  · exact (if_pos htakes).mpr hsample
  · exact (if_neg hkeeps).mpr hsame

/-- Settles O36: the frame of the inversion of exec. -/
theorem commandsKeepOperandsAndControl : Obligations.CommandsKeepOperandsAndControl := by
  intro i s t h
  have hdid := exec_did h
  obtain ⟨hop, hctrl, hibuf, hrest⟩ := did_frame hdid
  obtain ⟨_, _, hepoch, _⟩ := did_sameFrozen hdid
  exact ⟨hop, hctrl, ibufByte_congr hibuf hepoch, hrest, did_noError hdid⟩

/-- Settles O37: none of the three stores to OBUF, and the tables of the written registers give the rest. -/
theorem nopBdelayVerifyFrame : Obligations.NopBdelayVerifyFrame := by
  intro i s t hi _ h
  have hdid := exec_did h
  obtain ⟨hobuf, holen⟩ := did_storesNothing hi hdid
  obtain ⟨_, _, hepoch, _⟩ := did_sameFrozen hdid
  obtain ⟨hrtime, hrctr, hrdly, hcode⟩ := did_results hdid
  obtain ⟨hrtrunc, hrmod⟩ := hcode (by obtain rfl | rfl | rfl := hi <;> rfl)
  refine ⟨sameObufFrom_of_obuf hobuf hepoch 0, hrtrunc, hrmod, holen, ?_, ?_, ?_⟩
  · rintro rfl
    exact hrtime rfl
  · refine fun hne => hrctr ?_
    obtain rfl | rfl | rfl := hi <;> simp [writesRctr] at hne ⊢
  · refine fun hne => hrdly ?_
    obtain rfl | rfl | rfl := hi <;> simp [writesRdly] at hne ⊢

/-- Settles O38: a stored byte string ends at the OLEN it leaves, and the tables of the written registers give the
rest. -/
theorem obufCommandsFrame : Obligations.ObufCommandsFrame := by
  intro i s t hi hw _ h
  have hdid := exec_did h
  obtain ⟨_, _, hepoch, _⟩ := did_sameFrozen hdid
  obtain ⟨hrtime, hrctr, hrdly, hcode⟩ := did_results hdid
  refine ⟨fun hend => ?_, fun hnot => ?_, fun hne => hrtime ?_, fun hne => hrctr ?_, fun hne => hrdly ?_,
    fun hcodec => hcode ?_⟩
  · obtain hobuf | ⟨_, out, ⟨_, hobuf, holen⟩, _⟩ := did_obuf hw hdid
    · exact sameObufFrom_of_obuf hobuf hepoch _
    · exact holen ▸ sameObufFrom_of_writeList hobuf hepoch
  · obtain hobuf | ⟨_, out, ⟨hend, _⟩, _⟩ := did_obuf hw hdid
    · exact sameObufFrom_of_obuf hobuf hepoch _
    · exact absurd hend hnot
  · obtain rfl | rfl | rfl | rfl | rfl | rfl := hi <;> simp [writesRtime] at hne ⊢
  · obtain rfl | rfl | rfl | rfl | rfl | rfl := hi <;> simp [writesRctr] at hne ⊢
  · obtain rfl | rfl | rfl | rfl | rfl | rfl := hi <;> simp [writesRdly] at hne ⊢
  · obtain rfl | rfl | rfl := hcodec <;> rfl

end

section
/-! 40_command_lifecycle.md section 1 and 10_state.md section 1: how a command starts, and when the engine does
nothing. -/

namespace Sys2Proof.Machine

variable {s : State}

theorem writeCmd_idle (hb : s.busy = false) (w : Word) : writeCmd w s = accept w s :=
  if_neg (by rw [hb]; nofun)

/-- A CMD write while not busy is accepted. -/
theorem step_cmd_idle {w : Word} {rest : List Event} (hb : s.busy = false)
    (hs : s.schedule = .host (.write (s.cfg.base + 0x00C) .word w) :: rest) :
    step s = .next (accept w { s with schedule := rest }) :=
  (step_writeReg (r := .cmd) hs).trans (congrArg _ (writeCmd_idle (s := { s with schedule := rest }) hb w))

theorem engineTurn_waiting {op : Op} (h : s.phase = .waiting op) : engineTurn s = .next s := by
  rw [engineTurn, h]

theorem engineTurn_running {i : Instr} (h : s.phase = .running (.command i)) : engineTurn s = exec i s := by
  rw [engineTurn, h]

/-- The word that stands for a command is placed as it is: it has no more bits than the 32 of CMD. -/
theorem step_withFetchWord (w : Word) (s : State) :
    step (s.withFetchWord 32 w.toNat) = engineTurn (accept w { s with pending := none, resp := none }) := by
  rw [step_engine rfl, State.withFetchWord, Nat.mod_eq_of_lt w.isLt, BitVec.ofNat_toNat, BitVec.setWidth_eq]
  rfl

end Sys2Proof.Machine

open Sys2Proof Sys2Proof.Machine

/-- Settles O4: the engine's turn of a running command is `exec`, wherever the engine is the next to move. -/
theorem stepRunsTheDecodedCommand : Obligations.StepRunsTheDecodedCommand := by
  intro s i
  refine ⟨fun hp => ⟨fun hs => ?_, fun rest hs => ?_⟩, fun w hw => ?_⟩
  · rw [step, hs]
    exact engineTurn_running hp
  · exact (step_engine hs).trans (engineTurn_running (s := { s with schedule := rest }) hp)
  · have hphase : (accept w { s with pending := none, resp := none }).phase = .running (.command i) := by
      rw [accept_phase, decodeOp_of_ok hw]
    rw [step_withFetchWord, engineTurn_running hphase, accept, decodeOp_of_ok hw]

/-- Settles O5: CMD is a register whose write while not busy is the start of the decoded operation. -/
theorem cmdWriteWhenIdleStartsTheCommand : Obligations.CmdWriteWhenIdleStartsTheCommand :=
  fun _ _ _ hb hs => ⟨_, step_cmd_idle hb hs, rfl, rfl, rfl⟩

end

section
/-! 42_counter.md to 45_verify.md: what each engine step of the commands leaves, and a whole HOTP. -/

namespace Sys2Proof.Machine

variable {s : State} {d : List Byte}

/-! ### The checks, by the operands that pass them -/

theorem trunc_checked (hlen : s.ilen.toNat = 20 ∨ s.ilen.toNat = 32 ∨ s.ilen.toNat = 64) (hpos : 1 ≤ s.digits.toNat)
    (hten : s.digits.toNat ≤ 10) : firstFailed (operandChecks .trunc s) = none := by
  rw [firstFailed_operandChecks, checkReported, if_neg (by omega), if_neg (by omega)]

theorem hotp_checked (hpos : 1 ≤ s.digits.toNat) (hten : s.digits.toNat ≤ 10) :
    firstFailed (operandChecks .hotp s) = none := by
  rw [firstFailed_operandChecks, checkReported, if_neg (by omega)]

theorem totp_checked (hpos : 1 ≤ s.digits.toNat) (hten : s.digits.toNat ≤ 10) (hinterval : s.interval ≠ 0) :
    firstFailed (operandChecks .totp s) = none :=
  totp_checked_iff.2 ⟨hotp_checked hpos hten, hinterval⟩

/-! ### What an engine step answers -/

theorem exec_trunc_of_checked (hc : firstFailed (operandChecks .trunc s) = none) :
    exec .trunc s = .next (truncBody s) :=
  (exec_eq .trunc s).trans (congrArg _ (withChecks_pass truncBody hc))

theorem exec_hotp_of_digest (hr : s.resp = some (.ok d)) (hlen : d.length = 20 ∨ d.length = 32 ∨ d.length = 64) :
    exec .hotp s = .next (hotpRest d { s with resp := none }) :=
  (exec_eq .hotp s).trans (congrArg _ (suspended_digest (withChecks .hotp hotpFirst) hotpRest hr hlen))

theorem exec_totp_of_digest (hr : s.resp = some (.ok d)) (hlen : d.length = 20 ∨ d.length = 32 ∨ d.length = 64) :
    exec .totp s = .next (totpRest d { s with resp := none }) :=
  (exec_eq .totp s).trans (congrArg _
    (suspended_digest (withChecks .totp fun s => totpFirst (takeSample s)) totpRest hr hlen))

theorem exec_verify_of_digest (hr : s.resp = some (.ok d)) (hlen : d.length = 20 ∨ d.length = 32 ∨ d.length = 64) :
    exec .verify s = .next (verifyRest d { s with resp := none }) :=
  (exec_eq .verify s).trans (congrArg _ (suspended_digest (withChecks .verify verifyFirst) verifyRest hr hlen))

/-- VERIFY with its sample taken and its window open at the first counter (45_verify.md R196). -/
def windowOpened (s : State) : State :=
  { takeSample s with
    rctr := Pair.ofNat s.sampleStep, start := s.windowStart, n := s.windowSize, i := 0, hit := false }

theorem verifyFirst_of_le (hb : s.bwd.toNat ≤ s.sampleStep) :
    verifyFirst s = request .verify s.windowStart (windowOpened s) := by
  rw [verifyFirst_eq, if_neg (Nat.not_lt.2 hb)]
  rfl

/-! ### What the answers leave -/

theorem leavesCode_hotpRest (d : List Byte) (s : State) : LeavesCode d s (hotpRest d { s with resp := none }) :=
  leavesCode_of_emitCode (u := { s with resp := none }) d rfl rfl rfl rfl rfl

theorem leavesCode_totpRest (d : List Byte) (s : State) : LeavesCode d s (totpRest d { s with resp := none }) :=
  leavesCode_of_emitCode (u := { s with resp := none }) d rfl rfl rfl rfl rfl

theorem leavesCode_truncBody (s : State) : LeavesCode s.input s (truncBody s) :=
  leavesCode_of_emitCode (u := s) _ rfl rfl rfl rfl rfl

theorem tstepRest_obufByte (s : State) {k : Nat} (hk : k < 8) : (tstepRest s).obufByte k = be8Byte s.timeStep k := by
  have hstored := obufByte_writeList (s := s) (t := tstepRest s) (out := be8 s.timeStep) rfl rfl k
  rw [hstored, if_pos (by rwa [be8_length]), be8_getD _ hk]

/-- A request as the port sees it. -/
theorem request_spec (i : Instr) (c : Nat) (s : State) :
    (request i c s).pending = some (requestFor s c) ∧ (request i c s).portLog = requestFor s c :: s.portLog := by
  rw [← requestFor_eq]
  exact ⟨rfl, rfl⟩

/-- The accumulator after the code of digest d. -/
theorem hit_or_codeText (d : List Byte) (s : State) :
    (s.hit || codeText (dynTrunc d) s.digits.toNat == s.input) =
      (s.hit || decide (codeOf d s.digits.toNat = s.input)) := by
  rw [codeText_eq, Bool.beq_eq_decide_eq]

end Sys2Proof.Machine

open Sys2Proof Sys2Proof.Machine

/-- Settles O17: TSTEP writes its sample, the sample's step and the step's bytes; the step is below 2^64, so RCTR
holds it. -/
theorem tstepLeavesTheTimeStep : Obligations.TstepLeavesTheTimeStep := by
  intro s h
  refine ⟨_, exec_tstep_of_interval_ne_zero h, ⟨rfl, rfl, rfl⟩, sampleValue_pair s, ?_, sampleStep_le s, rfl,
    fun k hk => ?_⟩
  · rw [tstepRest_rctr, takeSample_timeStep, sampleStep_pair]
  · rw [tstepRest_obufByte _ hk, takeSample_timeStep]

/-- Settles O21: once its checks pass TRUNC emits the code of IBUF's digest. -/
theorem truncLeavesTheCodeOfTheDigest : Obligations.TruncLeavesTheCodeOfTheDigest :=
  fun s hlen hpos hten => ⟨_, exec_trunc_of_checked (trunc_checked hlen hpos hten), ⟨rfl, rfl, rfl⟩,
    leavesCode_truncBody s, rfl, rfl⟩

/-- Settles O22: once its check passes HOTP's first part is the request of its counter. -/
theorem hotpAsksForItsCounter : Obligations.HotpAsksForItsCounter := by
  intro s hr hpos hten
  rw [exec_eq, nextOf_hotp_of_checked hr (hotp_checked hpos hten), request, requestFor_eq]
  rfl

/-- Settles O23: with an admitted digest HOTP emits its code and ends. -/
theorem hotpLeavesTheCodeOfTheAnswer : Obligations.HotpLeavesTheCodeOfTheAnswer :=
  fun s d hr hlen => ⟨_, exec_hotp_of_digest hr hlen, ⟨rfl, rfl, rfl⟩, leavesCode_hotpRest d s, rfl, rfl, rfl, rfl⟩

/-- Settles O24: once its checks pass TOTP's first part is the sample and the request of the sample's step. -/
theorem totpAsksForItsTimeStep : Obligations.TotpAsksForItsTimeStep := by
  intro s hr hpos hten hinterval
  have hexec := (exec_eq .totp s).trans
    (congrArg _ (nextOf_totp_of_checked hr (totp_checked hpos hten hinterval)))
  rw [totpFirst, takeSample_timeStep] at hexec
  obtain ⟨hpending, hlog⟩ := request_spec .totp s.sampleStep { takeSample s with rctr := Pair.ofNat s.sampleStep }
  exact ⟨_, hexec, rfl, sampleValue_pair s, sampleValue_toNat s, sampleStep_pair s, hpending, hlog, rfl⟩

/-- Settles O25: with an admitted digest TOTP emits its code and the delay of the sample it kept; the delay is below
2^42, so RDLY holds it. -/
theorem totpLeavesTheCodeAndTheDelay : Obligations.TotpLeavesTheCodeAndTheDelay :=
  fun s d hr hlen _ => ⟨_, exec_totp_of_digest hr hlen, ⟨rfl, rfl, rfl⟩, leavesCode_totpRest d s, rfl, rfl, rfl,
    boundaryDelay_pair s⟩

/-- Settles O26: once its checks pass VERIFY opens the window, which the bound on a step keeps below 2^64. -/
theorem verifyOpensItsWindow : Obligations.VerifyOpensItsWindow := by
  intro s hr hilen hpos hten hinterval hb
  have hexec := (exec_eq .verify s).trans (congrArg _
    ((nextOf_verify_of_checked hr (verify_checked hilen hpos hten hinterval)).trans (verifyFirst_of_le hb)))
  have hstart : s.windowStart + s.bwd.toNat = s.sampleStep := Nat.sub_add_cancel hb
  have hstep := sampleStep_le s
  have hfwd := s.fwd.isLt
  have hbwd := s.bwd.isLt
  have hsize : s.windowSize = s.fwd.toNat + s.bwd.toNat + 1 := rfl
  obtain ⟨hpending, hlog⟩ := request_spec .verify s.windowStart (windowOpened s)
  refine ⟨_, hexec, rfl, sampleValue_pair s, sampleStep_pair s, hstart, hsize, ?_, rfl, rfl, ?_, by omega, hpending,
    hlog⟩
  · show s.windowSize ≤ 2 ^ 33 - 1
    omega
  · show s.windowStart + s.windowSize - 1 = s.sampleStep + s.fwd.toNat
    omega

/-- Settles O28: the comparison is accumulated first, and only the window index decides between the next request and the
end. -/
theorem verifyComparesOneCodeAndGoesOn : Obligations.VerifyComparesOneCodeAndGoesOn := by
  intro s d hr hlen
  have hexec := exec_verify_of_digest hr hlen
  have hhit := hit_or_codeText d s
  by_cases hn : s.i + 1 < s.n
  · rw [verifyRest, verifyNext, if_pos hn] at hexec
    obtain ⟨hpending, hlog⟩ := request_spec .verify (s.start + (s.i + 1)) s
    exact ⟨_, hexec, rfl, hhit, fun _ => ⟨rfl, rfl, rfl, hpending, hlog⟩, fun hle => absurd hn (Nat.not_lt.2 hle)⟩
  · rw [verifyRest, verifyNext, if_neg hn] at hexec
    exact ⟨_, hexec, rfl, hhit, fun hlt => absurd hlt hn, fun _ => ⟨⟨rfl, rfl, rfl⟩, rfl, rfl⟩⟩

/-- Settles O31: the CMD write leads to a HOTP at its start, which then runs through its one request. -/
theorem hotpRunsFromCmdWriteToCode : Obligations.HotpRunsFromCmdWriteToCode := by
  intro s d hb hpending hresp hs hpos hten hmac hlen
  have hrun := run_hotp_of_digest (s := accept 6 { s with schedule := .engine :: answerAndGoOn s.portLog.length })
    ⟨rfl, hresp, hpending⟩ rfl (hotp_checked hpos hten) hmac hlen
  obtain ⟨_, hlog⟩ := request_spec .hotp s.ctr.val s
  exact ⟨_, (run_step (step_cmd_idle hb hs)).trans hrun, ⟨rfl, rfl, rfl⟩, rfl,
    leavesCode_of_emitCode (u := s) d rfl rfl rfl rfl rfl, rfl, hlog, sameOperands_refl s, rfl⟩

/-- Settles O35: the engine's turn of a waiting command changes nothing, by induction on the number of turns. -/
theorem unansweredCommandsWaitForever : Obligations.UnansweredCommandsWaitForever := by
  intro s op k hp hs
  induction k generalizing s with
  | zero =>
    have hsame : { s with schedule := [] } = s := by rw [← show s.schedule = [] from hs]
    rw [hsame]
    exact run_zero s
  | succ k ih =>
    have hstep : step s = .next { s with schedule := List.replicate k .engine } :=
      (step_engine hs).trans (engineTurn_waiting (s := { s with schedule := List.replicate k .engine }) hp)
    rw [run_step hstep]
    exact ih _ hp rfl

end

section
/-! 10_state.md section 3 and 20_memory.md: what the host's accesses read and write. -/

namespace Sys2Proof.Machine

variable {s : State} {rest : List Event} {k : Nat} {w : Width} {v : Word}

/-! ### Registers -/

theorem step_readReserved {off : Nat} (h : 0x060 ≤ off) (hoff : off < 0x1000) (hal : off % 4 = 0)
    (hs : s.schedule = .host (.read (s.cfg.base + off) .word) :: rest) :
    step s = .next { s with schedule := rest, rdata := 0 } := by
  rw [step_host hs, hostAccess_of_locate (locate_regs hoff) (by simp [admitted, widthOf, hal]), perform, performRead,
    regAt_reserved h]
  rfl

theorem step_writeReserved {off : Nat} (h : 0x060 ≤ off) (hoff : off < 0x1000) (hal : off % 4 = 0)
    (hs : s.schedule = .host (.write (s.cfg.base + off) .word v) :: rest) :
    step s = .next { s with schedule := rest } := by
  rw [step_host hs, hostAccess_of_locate (locate_regs hoff) (by simp [admitted, widthOf, hal]), perform, performWrite,
    regAt_reserved h]

theorem readReg_of_stable {r : Reg} (h : volatileReg r = false ∨ s.busy = false) :
    readReg r s = reply (regValue r s) s := by
  have hstable : (s.busy && volatileReg r) = false := by
    rw [Bool.and_eq_false_iff]
    exact h.symm
  rw [readReg, hstable]
  rfl

/-- A register whose reads are specified reads as its stored value. -/
theorem readsAs_regValue (r : Reg) (h : volatileReg r = false ∨ s.busy = false) :
    ReadsAs s (offsetOf r) (regValue r s) := by
  intro rest hs
  rw [step_readReg hs, readReg_of_stable (s := { s with schedule := rest }) h, regValue_schedule]
  rfl

theorem ctrlWord_eq (s : State) : s.ctrlWord = BitVec.ofNat 32 (4 * s.irqen.toNat + 8 * s.clksel.toNat) := by
  cases hirqen : s.irqen <;> cases hclksel : s.clksel <;> rw [State.ctrlWord, hirqen, hclksel] <;> rfl

/-- The four flags of STATUS as a number. -/
theorem statusFlags_eq : ∀ busy done ovr matched : Bool,
    bitAt busy 0 ||| bitAt done 1 ||| bitAt ovr 2 ||| bitAt matched 3 =
      BitVec.ofNat 32 (busy.toNat + 2 * done.toNat + 4 * ovr.toNat + 8 * matched.toNat) := by
  decide

/-- The flags lie below the error code, so the two only sit side by side. -/
theorem statusWord_eq (s : State) :
    s.statusWord = BitVec.ofNat 32
      (s.busy.toNat + 2 * s.done.toNat + 4 * s.ovr.toNat + 8 * s.matched.toNat + 256 * s.errcode.code.toNat) := by
  have hbusy := s.busy.toNat_le
  have hdone := s.done.toNat_le
  have hovr := s.ovr.toNat_le
  have hmatched := s.matched.toNat_le
  have hcode := s.errcode.code.isLt
  rw [State.statusWord, statusFlags_eq]
  generalize hflags : s.busy.toNat + 2 * s.done.toNat + 4 * s.ovr.toNat + 8 * s.matched.toNat = flags
  have hlt : flags < 2 ^ 8 := by omega
  have hor : s.errcode.code.toNat <<< 8 + flags = s.errcode.code.toNat <<< 8 ||| flags :=
    Nat.shiftLeft_add_eq_or_of_lt hlt _
  apply BitVec.eq_of_toNat_eq
  rw [BitVec.toNat_or, BitVec.toNat_shiftLeft, BitVec.toNat_setWidth, BitVec.toNat_ofNat, BitVec.toNat_ofNat,
    Nat.mod_eq_of_lt (by omega : flags < 2 ^ 32), Nat.mod_eq_of_lt (by omega : s.errcode.code.toNat < 2 ^ 32),
    Nat.mod_eq_of_lt (by rw [Nat.shiftLeft_eq]; omega), Nat.lor_comm, ← hor, Nat.shiftLeft_eq]
  omega

theorem writeReg_operand_idle {r : Reg} (h : r ∈ operandRegs) (v : Word) (hb : s.busy = false) :
    writeReg r v s = setOperand r v s := by
  rw [writeReg_operand h, hb]
  rfl

/-- What an operand register's write does to each register of the map. -/
theorem regValue_setOperand {r : Reg} (h : r ∈ operandRegs) (r' : Reg) (v : Word) (s : State) :
    regValue r' (setOperand r v s) = if r' = r then v else regValue r' s := by
  fin_cases h <;> cases r' <;> rfl

/-- The write touches the operand registers alone. -/
theorem setOperand_frame (r : Reg) (v : Word) (s : State) :
    (setOperand r v s).schedule = s.schedule ∧ (setOperand r v s).phase = s.phase ∧
    (setOperand r v s).ibuf = s.ibuf ∧ (setOperand r v s).obuf = s.obuf ∧ (setOperand r v s).clk = s.clk := by
  cases r <;> exact ⟨rfl, rfl, rfl, rfl, rfl⟩

/-- The registers of 10_state.md section 3.3 and ID. -/
def readOnlyRegs : List Reg :=
  [.id, .errinfo, .olen, .rtimeLo, .rtimeHi, .rctrLo, .rctrHi, .rtrunc, .rmod, .rdlyLo, .rdlyHi]

theorem writeReg_readOnly {r : Reg} (h : r ∈ readOnlyRegs) (v : Word) (s : State) : writeReg r v s = s := by
  fin_cases h <;> rfl

/-! ### Buffers -/

theorem step_readObuf (hk : k < 0x1000) (hal : k % bytesOf w = 0)
    (hs : s.schedule = .host (.read (s.cfg.base + 0x2000 + k) w) :: rest) :
    step s = .next (readObuf k (bytesOf w) { s with schedule := rest }) :=
  (step_host hs).trans (hostAccess_obuf (s := { s with schedule := rest }) hk hal).1

theorem step_writeObufWindow (hk : k < 0x1000) (hal : k % bytesOf w = 0)
    (hs : s.schedule = .host (.write (s.cfg.base + 0x2000 + k) w v) :: rest) :
    step s = .next { s with schedule := rest } :=
  (step_host hs).trans ((hostAccess_obuf (s := { s with schedule := rest }) hk hal).2 v)

/-- The bus value of n bytes that a window shows at offset k. -/
def windowWord (byte : Nat → Byte) (k n : Nat) : Word :=
  BitVec.ofNat 32 (leValue ((List.range n).map fun j => byte (k + j)))

theorem windowWord_zero (n : Nat) {byte : Nat → Byte} (h : ∀ j, byte (k + j) = 0) : windowWord byte k n = 0 := by
  have hzero : ∀ l : List Nat, leValue (l.map fun j => byte (k + j)) = 0 := by
    intro l
    induction l with
    | nil => rfl
    | cons j l ih => rw [List.map_cons, leValue, h, ih]; rfl
  rw [windowWord, hzero]
  rfl

theorem windowWord_byte (byte : Nat → Byte) (k : Nat) {j : Nat} (hj : j < bytesOf w) :
    (windowWord byte k (bytesOf w)).toNat / 2 ^ (8 * j) % 2 ^ 8 = (byte (k + j)).toNat := by
  rw [windowWord, toNat_leValue_byte (by simpa using bytesOf_le w) (by simpa using hj)]
  simp [List.getD, hj]

theorem windowWord_lt (byte : Nat → Byte) (k : Nat) (w : Width) :
    (windowWord byte k (bytesOf w)).toNat < 2 ^ (8 * bytesOf w) := by
  have hlt := leValue_lt ((List.range (bytesOf w)).map fun j => byte (k + j))
  rw [List.length_map, List.length_range] at hlt
  rw [windowWord, BitVec.toNat_ofNat]
  exact (Nat.mod_le _ _).trans_lt hlt

theorem readIbuf_eq (k n : Nat) (s : State) : readIbuf k n s = reply (windowWord (ibufWindowByte s) k n) s := rfl

/-- OBUF is read as it is where no command runs, and beyond BUF_BYTES. -/
theorem readObuf_eq (n : Nat) (h : s.busy = false ∨ s.cfg.bufBytes ≤ k) :
    readObuf k n s = reply (windowWord (obufWindowByte s) k n) s := by
  have hstable : (s.busy && Nat.blt k s.cfg.bufBytes) = false := by
    rw [Bool.and_eq_false_iff, Bool.eq_false_iff (b := Nat.blt _ _), ne_eq, Nat.blt_eq]
    exact h.imp_right Nat.not_lt.2
  rw [readObuf, hstable]
  rfl

theorem ibufWindowByte_beyond (h : s.cfg.bufBytes ≤ k) (j : Nat) : ibufWindowByte s (k + j) = 0 :=
  if_neg (by omega)

theorem obufWindowByte_beyond (h : s.cfg.bufBytes ≤ k) (j : Nat) : obufWindowByte s (k + j) = 0 :=
  if_neg (by omega)

theorem obufWindowByte_inside (h : k < s.cfg.bufBytes) : obufWindowByte s k = s.obufByte k :=
  if_pos h

theorem writeIbuf_beyond (h : s.cfg.bufBytes ≤ k) (n : Nat) (v : Word) : writeIbuf k n v s = s :=
  if_pos (by rwa [Nat.ble_eq])

theorem writeIbuf_idle (hb : s.busy = false) (hk : k < s.cfg.bufBytes) (n : Nat) (v : Word) :
    writeIbuf k n v s = { s with ibuf := s.ibuf.writeList k (leBytes n v) } := by
  rw [writeIbuf, if_neg (by rw [Nat.ble_eq]; omega), hb]
  rfl

@[simp] theorem leBytes_length (n : Nat) (v : Word) : (leBytes n v).length = n := by simp [leBytes]

theorem leBytes_getD {n j : Nat} (hj : j < n) (v : Word) :
    ((leBytes n v).getD j 0).toNat = v.toNat / 2 ^ (8 * j) % 2 ^ 8 := by
  simp [leBytes, List.getD, hj, Nat.shiftRight_eq_div_pow]

/-- IBUF after a byte string was written to it. -/
theorem ibufByte_writeList {t : State} {a : Nat} {out : List Byte} (hi : t.ibuf = s.ibuf.writeList a out)
    (he : t.epoch = s.epoch) (k : Nat) :
    t.ibufByte k = if a ≤ k ∧ k < a + out.length then out.getD (k - a) 0 else s.ibufByte k := by
  simp only [State.ibufByte, State.unwritten, hi, he, Memory.read_writeList]
  split <;> rfl

/-! ### Reads while not busy -/

/-- What an admitted read answers where no command runs. -/
def readValue (r : Region) (off n : Nat) (s : State) : Word :=
  match r with
  | .regs => (regAt off).elim 0 fun r => regValue r s
  | .ibuf => windowWord (ibufWindowByte s) off n
  | .obuf => windowWord (obufWindowByte s) off n

theorem performRead_idle (hb : s.busy = false) (r : Region) (off n : Nat) :
    performRead r off n s = reply (readValue r off n s) s := by
  cases r with
  | regs =>
    rw [performRead, readValue]
    cases hr : regAt off with
    | none => rfl
    | some r => exact readReg_of_stable (.inr hb)
  | ibuf => rfl
  | obuf => exact readObuf_eq n (.inl hb)

/-- The value read does not depend on the schedule or on the last value read. -/
theorem readValue_congr (r : Region) (off n : Nat) (rest : List Event) (v : Word) (s : State) :
    readValue r off n { s with schedule := rest, rdata := v } = readValue r off n s := by
  cases r with
  | regs =>
    rw [readValue, readValue]
    cases regAt off with
    | none => rfl
    | some r => cases r <;> rfl
  | ibuf | obuf => rfl

/-- A read that is admitted is performed at the place of its address. -/
theorem step_read_performed {a : Nat} {t : State} (hs : s.schedule = .host (.read a w) :: rest)
    (h : step s = .next t) : ∃ r off, locate s.cfg a = some (r, off) ∧
      t = performRead r off (bytesOf w) { s with schedule := rest } := by
  rw [step_host hs] at h
  obtain ⟨_, he⟩ | ⟨_, _, _, _, he⟩ | ⟨r, off, hl, _, he⟩ :=
    hostAccess_cases (.read a w) { s with schedule := rest } <;> rw [he] at h
  · cases h
  · cases h
  · exact ⟨r, off, hl, (Host.Outcome.next.inj h).symm⟩

theorem step_read_idle {a : Nat} {t : State} (hb : s.busy = false) (hs : s.schedule = .host (.read a w) :: rest)
    (h : step s = .next t) : ∃ r off, locate s.cfg a = some (r, off) ∧
      t = { s with schedule := rest, rdata := readValue r off (bytesOf w) s } := by
  obtain ⟨r, off, hl, rfl⟩ := step_read_performed hs h
  refine ⟨r, off, hl, ?_⟩
  rw [performRead_idle (s := { s with schedule := rest }) hb]
  exact congrArg (reply · { s with schedule := rest }) (readValue_congr r off (bytesOf w) rest s.rdata s)

/-! ### Which accesses are admitted -/

theorem hostAccess_outside {a : Access} (h : addrOf a < s.cfg.base ∨ s.cfg.base + 0x3000 ≤ addrOf a) :
    hostAccess a s = .fault .outsideWindow := by
  rw [hostAccess, locate_none h]

/-- Inside the window an access is performed where its region admits it, and refused elsewhere. -/
theorem hostAccess_inside {a : Access} {r : Region} {off : Nat} (hl : locate s.cfg (addrOf a) = some (r, off)) :
    (admitted r off (widthOf a) = false → hostAccess a s = .refused .unadmittedAccess) ∧
    (admitted r off (widthOf a) = true → ∃ t, hostAccess a s = .next t) := by
  refine ⟨fun ha => ?_, fun ha => ⟨_, hostAccess_of_locate hl ha⟩⟩
  simp [hostAccess, hl, ha]

theorem admitted_regs {off : Nat} : admitted .regs off w = true ↔ w = .word ∧ off % 4 = 0 := by
  simp [admitted]

/-- The buffer windows start at multiples of every width, so alignment in the region is alignment in the window. -/
theorem locate_buffers {c : Config} {off : Nat} (hlo : 0x1000 ≤ off) (hhi : off < 0x3000) :
    ∃ r k, locate c (c.base + off) = some (r, k) ∧ ∀ w, admitted r k w = true ↔ off % bytesOf w = 0 := by
  have hmod : ∀ (w : Width) (k : Nat), (0x1000 + k) % bytesOf w = k % bytesOf w := fun w k => by
    cases w <;> simp only [bytesOf] <;> omega
  by_cases h : off < 0x2000
  · obtain ⟨k, rfl⟩ := Nat.exists_eq_add_of_le hlo
    refine ⟨.ibuf, k, ?_, fun w => ?_⟩
    · rw [← Nat.add_assoc]
      exact locate_ibuf (by omega)
    · rw [hmod]
      simp [admitted]
  · obtain ⟨k, rfl⟩ := Nat.exists_eq_add_of_le (Nat.not_lt.1 h)
    refine ⟨.obuf, k, ?_, fun w => ?_⟩
    · rw [← Nat.add_assoc]
      exact locate_obuf (by omega)
    · rw [show 0x2000 + k = 0x1000 + (0x1000 + k) by omega, hmod, hmod]
      simp [admitted]

end Sys2Proof.Machine

open Sys2Proof Sys2Proof.Machine

/-- Settles O47: each offset of the map is its register's, and the two words of flags are sums of their bits. -/
theorem registersReadAtTheirOffsets : Obligations.RegistersReadAtTheirOffsets := by
  intro s
  have stable (r : Reg) (h : volatileReg r = false) := readsAs_regValue (s := s) r (.inl h)
  refine ⟨⟨stable .id rfl, ctrlWord_eq s ▸ stable .ctrl rfl, statusWord_eq s ▸ stable .status rfl, stable .cmd rfl,
    stable .ilen rfl, stable .digits rfl, stable .interval rfl, stable .fwd rfl, stable .bwd rfl, stable .keyh rfl,
    stable .ctrLo rfl, stable .ctrHi rfl, stable .tovrLo rfl, stable .tovrHi rfl,
    fun off hlo hhi hal rest hs => step_readReserved hlo (by omega) hal hs⟩, fun hb => ?_⟩
  have idle (r : Reg) := readsAs_regValue (s := s) r (.inr hb)
  have rtrunc : ReadsAs s 0x050 (BitVec.ofNat 32 s.rtrunc.toNat) := by
    rw [BitVec.ofNat_toNat]
    exact idle .rtrunc
  exact ⟨idle .errinfo, idle .olen, idle .rtimeLo, idle .rtimeHi, idle .rctrLo, idle .rctrHi, rtrunc, idle .rmod,
    idle .rdlyLo, idle .rdlyHi⟩

/-- Settles O48: a read changes the value read and the draws alone, and while not busy answers a value that neither of
them is part of. -/
theorem readsHaveNoSideEffect : Obligations.ReadsHaveNoSideEffect := by
  intro s t a w rest hs h
  refine ⟨?_, fun hb => ?_⟩
  · obtain ⟨r, off, _, rfl⟩ := step_read_performed hs h
    obtain ⟨v, d, hv⟩ := performRead_spec r off (bytesOf w) { s with schedule := rest }
    rw [hv]
  · obtain ⟨r, off, hl, rfl⟩ := step_read_idle hb hs h
    refine ⟨rfl, fun u rest' hu => ?_⟩
    obtain ⟨r', off', hl', rfl⟩ := step_read_idle
      (s := { s with schedule := .host (.read a w) :: rest', rdata := readValue r off (bytesOf w) s }) hb rfl hu
    cases hl.symm.trans hl'
    exact readValue_congr r off (bytesOf w) _ _ s

/-- Settles O49: while not busy the write reaches its register and no other. -/
theorem operandWritesReadBack : Obligations.OperandWritesReadBack := by
  intro s off r v rest hb hoff hr hs
  obtain ⟨r', hmem, rfl⟩ := mem_operandOffsets.1 hoff
  obtain rfl : r' = r := Option.some.inj ((regAt_offsetOf r').symm.trans hr)
  have hstep : step s = .next (setOperand r' v { s with schedule := rest }) :=
    (step_writeReg hs).trans (congrArg _ (writeReg_operand_idle (s := { s with schedule := rest }) hmem v hb))
  obtain ⟨hsched, hphase, hibuf, hobuf, hclk⟩ := setOperand_frame r' v { s with schedule := rest }
  refine ⟨_, hstep, hsched, ?_, fun r hne => ?_, hphase, hibuf, hobuf, hclk⟩
  · rw [regValue_setOperand hmem, if_pos rfl]
  · rw [regValue_setOperand hmem, if_neg hne, regValue_schedule]

/-- Settles O50: the read-only registers and the reserved offsets ignore a write, and so does the OBUF window. -/
theorem readOnlyWritesAreIgnored : Obligations.ReadOnlyWritesAreIgnored := by
  refine fun s v rest => ⟨fun off hoff hs => ?_, fun k w hk hal hs => step_writeObufWindow hk hal hs⟩
  obtain hoff | ⟨hlo, hhi, hal⟩ := hoff
  · obtain ⟨r, hmem, rfl⟩ := List.mem_map (l := readOnlyRegs) (f := offsetOf) |>.1 hoff
    exact (step_writeReg hs).trans (congrArg _ (writeReg_readOnly hmem v _))
  · exact step_writeReserved hlo (by omega) hal hs

/-- Settles O51: the write of STATUS, by the bits it clears. -/
theorem statusWriteClearsDoneAndOvr : Obligations.StatusWriteClearsDoneAndOvr := by
  intro s v rest hs
  have cleared : ∀ flag bit : Bool, (flag && !bit) = if bit then false else flag := by decide
  rw [step_writeReg (r := .status) hs, writeReg, writeStatus, cleared, cleared]

/-- Settles O52: without SRST, and with an ABORT that has nothing to end, only the two bits of CTRL are written. -/
theorem ctrlWriteSetsEnableAndClock : Obligations.CtrlWriteSetsEnableAndClock := by
  intro s v rest hs hsrst habort
  rw [step_writeReg (r := .ctrl) hs, writeReg, writeCtrl, if_neg (by rw [hsrst]; nofun)]
  obtain hclear | hb := habort
  · rw [hclear]
    rfl
  · rw [abort_idle (s := { s with schedule := rest }) hb, ite_self]

/-- Settles O56: a narrow register access is not admitted; a write to IBUF stores the bytes of the bus word, and a
read answers those of the window. -/
theorem bufferAccessesAreLittleEndian : Obligations.BufferAccessesAreLittleEndian := by
  refine ⟨fun s a rest hs hlo hhi hw => ?_,
    fun s k w rest hk hwin hal => ⟨fun v hb hs => ?_, fun hs => ?_, fun hb hs => ?_⟩⟩
  · obtain ⟨off, hoff⟩ := Nat.exists_eq_add_of_le hlo
    have hl : locate s.cfg (addrOf a) = some (.regs, off) := by
      rw [hoff]
      exact locate_regs (by omega)
    exact (step_host hs).trans ((hostAccess_inside (s := { s with schedule := rest }) hl).1
      (Bool.eq_false_iff.2 fun ha => hw (admitted_regs.1 ha).1))
  · have hpos : 0 < bytesOf w := by cases w <;> decide
    have hstep := (step_writeIbuf hwin hal hs).trans
      (congrArg _ (writeIbuf_idle (s := { s with schedule := rest }) hb (by omega : k < s.cfg.bufBytes) (bytesOf w) v))
    have hbyte (j : Nat) := ibufByte_writeList (s := s)
      (t := { s with schedule := rest, ibuf := s.ibuf.writeList k (leBytes (bytesOf w) v) }) rfl rfl j
    refine ⟨_, hstep, rfl, fun j hj => ?_, fun j hj => ?_⟩
    · rw [hbyte, leBytes_length, if_pos (by omega), Nat.add_sub_cancel_left, leBytes_getD hj]
    · rw [hbyte, leBytes_length, if_neg (by omega)]
  · refine ⟨_, step_readIbuf hwin hal hs, fun j hj => ?_, windowWord_lt _ k w⟩
    have hin : k + j < s.cfg.bufBytes := by omega
    rw [readIbuf_eq, reply_rdata, windowWord_byte _ _ hj, ibufWindowByte_inside (s := { s with schedule := rest }) hin]
    rfl
  · refine ⟨_, (step_readObuf hwin hal hs).trans (congrArg _ (readObuf_eq _ (.inl hb))), fun j hj => ?_,
      windowWord_lt _ k w⟩
    have hin : k + j < s.cfg.bufBytes := by omega
    rw [reply_rdata, windowWord_byte _ _ hj, obufWindowByte_inside (s := { s with schedule := rest }) hin]
    rfl

/-- Settles O57: the window shows 0 beyond BUF_BYTES, and a write there is ignored before BUSY is looked at. -/
theorem bytesBeyondTheBuffersReadZero : Obligations.BytesBeyondTheBuffersReadZero := by
  intro s k w rest hk hwin hal
  refine ⟨fun hs => ?_, fun hs => ?_, fun v hs => ?_⟩
  · rw [step_readIbuf hwin hal hs, readIbuf_eq,
      windowWord_zero _ (ibufWindowByte_beyond (s := { s with schedule := rest }) hk)]
    rfl
  · rw [step_readObuf hwin hal hs, readObuf_eq (s := { s with schedule := rest }) _ (.inr hk),
      windowWord_zero _ (obufWindowByte_beyond (s := { s with schedule := rest }) hk)]
    rfl
  · rw [step_writeIbuf hwin hal hs, writeIbuf_beyond (s := { s with schedule := rest }) hk]

/-- Settles O58: the map locates every address of the window, and each region says what it admits. -/
theorem accessesAreRefusedExactlyWhereNotAdmitted : Obligations.AccessesAreRefusedExactlyWhereNotAdmitted := by
  intro s a rest hs
  rw [step_host hs]
  refine ⟨fun hout => hostAccess_outside (s := { s with schedule := rest }) hout, fun off hoff hlt => ?_,
    fun off hoff hlo hhi => ?_⟩
  · have hl : locate s.cfg (addrOf a) = some (.regs, off) := hoff ▸ locate_regs hlt
    obtain ⟨hrefused, hnext⟩ := hostAccess_inside (s := { s with schedule := rest }) hl
    refine ⟨fun hbad => hrefused (Bool.eq_false_iff.2 fun ha => ?_), fun hgood => hnext (admitted_regs.2 hgood)⟩
    obtain ⟨hw, hal⟩ := admitted_regs.1 ha
    exact hbad.elim (· hw) (· hal)
  · obtain ⟨r, k, hloc, hadm⟩ := locate_buffers (c := s.cfg) hlo hhi
    obtain ⟨hrefused, hnext⟩ := hostAccess_inside (s := { s with schedule := rest }) (hoff ▸ hloc)
    exact ⟨fun hbad => hrefused (Bool.eq_false_iff.2 fun ha => hbad ((hadm _).1 ha)), fun hal => hnext ((hadm _).2 hal)⟩

end

section
/-! 60_exceptions.md section 6 and 70_reset_and_hazards.md section 1: ABORT, SRST and power-on. -/

namespace Sys2Proof.Machine

variable {s t : State} {op : Op}

/-! ### What an ended command could have written -/

theorem sameObufFrom_looseObuf (op : Op) (s : State) (ho : t.obuf = (looseObuf op s).obuf) (he : t.epoch = s.epoch) :
    SameObufFrom (couldWrite op s) s t := by
  have hsame := sameObufFrom_of_writeList ho he
  rwa [List.length_map, List.length_range] at hsame

theorem loosePair_kept {could : Bool} (h : could = false) (offset draw : Nat) (p : Pair) :
    loosePair could offset draw p = p := by
  rw [loosePair, h]
  rfl

/-- The result registers that the ended command could not write keep their values. -/
theorem looseRegs_kept (op : Op) (s : State) :
    (writesRtime op = false → (looseRegs op s).rtime = s.rtime) ∧
    (writesRctr op = false → (looseRegs op s).rctr = s.rctr) ∧
    (writesCode op = false → (looseRegs op s).rtrunc = s.rtrunc ∧ (looseRegs op s).rmod = s.rmod) ∧
    (writesRdly op = false → (looseRegs op s).rdly = s.rdly) :=
  ⟨fun h => loosePair_kept h _ _ _, fun h => loosePair_kept h _ _ _,
    fun h => ⟨if_neg (Bool.not_eq_true _ ▸ h), if_neg (Bool.not_eq_true _ ▸ h)⟩, fun h => loosePair_kept h _ _ _⟩

/-! ### Writes to CTRL -/

theorem writeCtrl_srst {v : Word} (hsrst : v.getLsbD 0 = true) : writeCtrl v s = softReset s :=
  if_pos hsrst

theorem writeCtrl_abort {v : Word} (hsrst : v.getLsbD 0 = false) (habort : v.getLsbD 1 = true)
    (hop : s.current = some op) :
    writeCtrl v s = { endAborted op s with irqen := v.getLsbD 2, clksel := v.getLsbD 3 } := by
  rw [writeCtrl, hsrst, habort, ← abort_busy hop]
  rfl

/-! ### Reset values -/

/-- A reset leaves the engine Idle, the flags and the record clear and no request; the port's log stays. -/
def AfterReset (s t : State) : Prop :=
  t.phase = .idle ∧ t.done = false ∧ t.matched = false ∧ t.errcode = .none ∧ t.pending = none ∧
  t.portLog = s.portLog ∧ t.ovr = false

theorem afterReset_softReset (s : State) : AfterReset s (softReset s) := by
  obtain ⟨_, h⟩ | ⟨_, _, h⟩ := softReset_cases s <;> rw [h] <;> exact ⟨rfl, rfl, rfl, rfl, rfl, rfl, rfl⟩

theorem Pair.val_zero : Pair.val ⟨0, 0⟩ = 0 := by decide

theorem ctrlWord_reset : State.reset.ctrlWord = 0 := by decide

theorem statusWord_reset : State.reset.statusWord = 0 := by decide

theorem atResetValues_resetRegs (s : State) : AtResetValues (resetRegs s) :=
  ⟨rfl, ctrlWord_reset, statusWord_reset, rfl, rfl, rfl, rfl, rfl, rfl, rfl, rfl, Pair.val_zero, Pair.val_zero,
    Pair.val_zero, Pair.val_zero, rfl, rfl, Pair.val_zero, rfl, rfl, rfl⟩

/-- A soft reset keeps IBUF and what is scheduled, and OBUF but for what a running command could write. -/
theorem softReset_spec (s : State) :
    AtResetValues (softReset s) ∧ (softReset s).ibuf = s.ibuf ∧ (softReset s).schedule = s.schedule ∧
    (s.busy = false → (softReset s).obuf = s.obuf) ∧
    ∀ op, s.current = some op → SameObufFrom (couldWrite op s) s (softReset s) := by
  obtain ⟨hb, h⟩ | ⟨op, hop, h⟩ := softReset_cases s <;> rw [h] <;>
    refine ⟨atResetValues_resetRegs _, rfl, rfl, fun hidle => ?_, fun op' hop' => ?_⟩
  · rfl
  · exact absurd (((current_none s).2 hb).symm.trans hop') nofun
  · exact absurd (((current_none s).2 hidle).symm.trans hop) nofun
  · obtain rfl : op = op' := Option.some.inj (hop.symm.trans hop')
    exact sameObufFrom_looseObuf op s rfl rfl

/-- With no request outstanding an answer is discarded. -/
theorem step_answer_late {k : Nat} {rest : List Event} (hp : s.pending = none) :
    step { s with schedule := .answer k :: rest } = .next { s with schedule := rest } :=
  (step_answer rfl).trans (congrArg _ (deliver_discarded (s := { s with schedule := rest }) (.inl hp)))

end Sys2Proof.Machine

open Sys2Proof Sys2Proof.Machine

/-- Settles O53: the end by ABORT touches OBUF and the result registers through `looseObuf` and `looseRegs` alone. -/
theorem abortEndsTheRunningCommand : Obligations.AbortEndsTheRunningCommand := by
  intro s op v rest hop hs hsrst habort
  have hstep := (step_writeReg (r := .ctrl) hs).trans
    (congrArg _ (writeCtrl_abort (s := { s with schedule := rest }) hsrst habort hop))
  obtain ⟨hrtime, hrctr, hcode, hrdly⟩ := looseRegs_kept op s
  exact ⟨_, hstep, ⟨rfl, rfl, rfl, rfl, rfl, rfl, rfl⟩, rfl, sameOperands_refl s, ibufByte_congr rfl rfl, rfl, rfl, rfl,
    sameObufFrom_looseObuf op s rfl rfl, hrtime, hrctr, hcode, hrdly⟩

/-- Settles O54: SRST is the soft reset whatever the other bits are, and leaves no request for a late answer. -/
theorem softResetKeepsOnlyTheBuffers : Obligations.SoftResetKeepsOnlyTheBuffers := by
  intro s v rest hs hsrst
  have hstep := (step_writeReg (r := .ctrl) hs).trans
    (congrArg _ (writeCtrl_srst (s := { s with schedule := rest }) hsrst))
  obtain ⟨hreset, hibuf, hsched, hobuf, hloose⟩ := softReset_spec { s with schedule := rest }
  obtain ⟨_, _, _, _, hpending, _⟩ := afterReset_softReset { s with schedule := rest }
  exact ⟨_, hstep, hreset, hibuf, hsched, hobuf, hloose, fun k rest' => step_answer_late hpending⟩

/-- Settles O55: power-on is the reset of the registers with nothing listed in the buffers. -/
theorem powerOnPutsResetValues : Obligations.PowerOnPutsResetValues :=
  ⟨atResetValues_resetRegs State.reset, fun _ => ⟨rfl, rfl⟩, rfl, fun s _ hs =>
    ⟨_, step_powerOn hs, atResetValues_resetRegs s, fun _ => ⟨rfl, rfl⟩, rfl, rfl⟩⟩

end

section
/-! 10_state.md sections 3.1 and 4, 60_exceptions.md sections 4 and 5: the rules of the flags, the buffers and the HMAC
port that hold of every step. -/

namespace Sys2Proof.Machine

variable {i : Instr} {s t : State} {rest : List Event}

/-! ### What a step can do to the engine -/

/-- The engine, its flags and its port are as before; DONE may have been cleared. -/
def SameEngine (s t : State) : Prop :=
  t.phase = s.phase ∧ t.pending = s.pending ∧ t.portLog = s.portLog ∧ t.matched = s.matched ∧ t.obuf = s.obuf ∧
  (t.done = true → s.done = true)

theorem sameEngine_refl (s : State) : SameEngine s s := ⟨rfl, rfl, rfl, rfl, rfl, id⟩

/-- What one step can do to the engine, whichever agent moves. -/
inductive StepDid (s : State) : State → Prop where
  /-- Nothing: a read, a write to another part of the state, a discarded answer, or an engine with nothing to do. -/
  | quiet {t : State} (h : SameEngine s t) : StepDid s t
  /-- The end of an Illegal word. -/
  | illegal (rest : List Event) (w : Word) (hs : s.schedule = [] ∨ s.schedule = .engine :: rest)
      (hp : s.phase = .running (.illegal w)) : StepDid s (raise .illegalCommand w { s with schedule := rest })
  /-- An engine step of a command. -/
  | command {t : State} (rest : List Event) (i : Instr) (hs : s.schedule = [] ∨ s.schedule = .engine :: rest)
      (hp : s.phase = .running (.command i)) (h : Did i { s with schedule := rest } t) : StepDid s t
  /-- The outstanding request's answer. -/
  | answered (rest : List Event) (q : HmacRequest) (op : Op) (hq : s.pending = some q) (hp : s.phase = .waiting op) :
      StepDid s { s with
        schedule := rest, pending := none, phase := .running op, resp := some (hmacOf s.cfg q) }
  /-- A CTRL write with SRST. -/
  | softReset (rest : List Event) (v : Word)
      (hs : s.schedule = .host (.write (s.cfg.base + 0x004) .word v) :: rest) (hv : v.getLsbD 0 = true) :
      StepDid s (softReset { s with schedule := rest })
  /-- A power-on. -/
  | powerOn (rest : List Event) (hs : s.schedule = .powerOn :: rest) : StepDid s (powerOn { s with schedule := rest })
  /-- A CTRL write with ABORT, and without SRST, while busy. -/
  | aborted (rest : List Event) (v : Word) (op : Op)
      (hs : s.schedule = .host (.write (s.cfg.base + 0x004) .word v) :: rest) (hv : v.getLsbD 0 = false)
      (ho : s.current = some op) :
      StepDid s { endAborted op { s with schedule := rest } with irqen := v.getLsbD 2, clksel := v.getLsbD 3 }
  /-- A CMD write while not busy. -/
  | accepted (rest : List Event) (w : Word)
      (hs : s.schedule = .host (.write (s.cfg.base + 0x00C) .word w) :: rest) (hb : s.busy = false) :
      StepDid s (accept w { s with schedule := rest })

theorem sameEngine_setOperand (r : Reg) (v : Word) (s : State) : SameEngine s (setOperand r v s) := by
  cases r <;> exact sameEngine_refl s

theorem stepDid_of_hostDid {a : Access} (hs : s.schedule = .host a :: rest)
    (h : HostDid a { s with schedule := rest } t) : StepDid s t := by
  cases h with
  | read | ignored | discarded | ctrl | ibuf => exact .quiet (sameEngine_refl s)
  | operand r v => exact .quiet (sameEngine_setOperand r v { s with schedule := rest })
  | status v => exact .quiet ⟨rfl, rfl, rfl, rfl, rfl, fun h => (Bool.and_eq_true_iff.1 h).1⟩
  | softReset v ha hv => exact .softReset rest v (ha ▸ hs) hv
  | aborted v op ha hv _ ho => exact .aborted rest v op (ha ▸ hs) hv ho
  | cmd w ha hb => exact .accepted rest w (ha ▸ hs) hb

/-- The inversion of step, on the engine's side. -/
theorem step_did (h : step s = .next t) : StepDid s t := by
  obtain ⟨rest, _, ⟨hs, he⟩ | ⟨a, hs, hdid⟩ | ⟨k, _, rfl⟩ | ⟨hs, rfl⟩⟩ := step_cases h
  · obtain ⟨rfl, _⟩ | ⟨w, hp, rfl⟩ | ⟨i, hp, hdid⟩ := engineTurn_cases he
    · exact .quiet (sameEngine_refl s)
    · exact .illegal rest w hs hp
    · exact .command rest i hs hp hdid
  · exact stepDid_of_hostDid hs hdid
  · obtain he | ⟨q, op, hq, hp, _, he⟩ := deliver_cases k { s with schedule := rest } <;> rw [he]
    · exact .quiet (sameEngine_refl s)
    · exact .answered rest q op hq hp
  · exact .powerOn rest hs

/-! ### BUSY and resets -/

theorem busy_congr (h : t.phase = s.phase) : t.busy = s.busy := by
  unfold State.busy
  rw [h]

theorem busy_of_current {op : Op} (h : s.current = some op) : s.busy = true := by
  by_contra hb
  exact absurd (((current_none s).2 (Bool.eq_false_iff.2 hb)).symm.trans h) nofun

theorem not_isReset_of_engine (hs : s.schedule = [] ∨ s.schedule = .engine :: rest) : ¬ IsReset s := by
  rintro (⟨v, rest', h, _⟩ | ⟨rest', h⟩) <;> obtain hs | hs := hs <;> cases hs.symm.trans h

theorem not_isReset_of_write {v : Word} (hs : s.schedule = .host (.write (s.cfg.base + 0x004) .word v) :: rest)
    (hv : v.getLsbD 0 = false) : ¬ IsReset s := by
  rintro (⟨v', rest', h, hv'⟩ | ⟨rest', h⟩)
  · injection hs.symm.trans h with hhost
    injection hhost with hwrite
    injection hwrite with _ _ hword
    subst hword
    cases hv.symm.trans hv'
  · cases hs.symm.trans h

/-! ### DONE and BUSY -/

theorem done_rises (h : StepDid s t) (hs : s.done = false) (ht : t.done = true) : s.busy = true ∧ t.busy = false := by
  have unchanged : (t.done = true → s.done = true) → s.busy = true ∧ t.busy = false :=
    fun hkept => absurd (hs.symm.trans (hkept ht)) nofun
  cases h with
  | quiet h =>
    obtain ⟨_, _, _, _, _, hdone⟩ := h
    exact unchanged hdone
  | answered => exact unchanged id
  | illegal _ _ _ hp => exact ⟨busy_of_running hp, rfl⟩
  | command _ _ _ hp h =>
    obtain ⟨hidle, _⟩ | ⟨_, _, hdone, _⟩ := did_ends_or_asks h
    · exact ⟨busy_of_running hp, (busy_false t).2 hidle⟩
    · exact unchanged hdone.symm.trans
  | aborted _ _ _ _ _ ho => exact ⟨busy_of_current ho, rfl⟩
  | softReset =>
    obtain ⟨_, hdone, _⟩ := afterReset_softReset { s with schedule := _ }
    cases hdone.symm.trans ht
  | powerOn => cases ht
  | accepted => cases ht

theorem busy_rises (h : StepDid s t) (hs : s.busy = false) (ht : t.busy = true) :
    ∃ w rest, s.schedule = .host (.write (s.cfg.base + 0x00C) .word w) :: rest ∧ t.phase = .running (decodeOp w) := by
  have was_idle {P : Prop} (hb : s.busy = true) : P := absurd (hs.symm.trans hb) nofun
  cases h with
  | quiet h =>
    obtain ⟨hphase, _⟩ := h
    exact was_idle ((busy_congr hphase).symm.trans ht)
  | illegal _ _ _ hp => exact was_idle (busy_of_running hp)
  | command _ _ _ hp => exact was_idle (busy_of_running hp)
  | answered _ _ _ _ hp => exact was_idle (busy_of_waiting hp)
  | aborted _ _ _ _ _ ho => exact was_idle (busy_of_current ho)
  | softReset =>
    obtain ⟨hidle, _⟩ := afterReset_softReset { s with schedule := _ }
    cases ((busy_false _).2 hidle).symm.trans ht
  | powerOn => cases ht
  | accepted rest w hs' => exact ⟨w, rest, hs', rfl⟩

theorem busy_falls (h : StepDid s t) (hs : s.busy = true) (ht : t.busy = false) :
    (¬ IsReset s → t.done = true) ∧ (IsReset s → t.done = false ∧ t.errcode = .none) := by
  have stays_busy {P : Prop} (hb : t.busy = true) : P := absurd (ht.symm.trans hb) nofun
  cases h with
  | quiet h =>
    obtain ⟨hphase, _⟩ := h
    exact stays_busy ((busy_congr hphase).trans hs)
  | illegal _ _ hs' => exact ⟨fun _ => rfl, fun hr => absurd hr (not_isReset_of_engine hs')⟩
  | command _ _ hs' _ h =>
    obtain ⟨_, hdone, _⟩ | ⟨_, hphase, _⟩ := did_ends_or_asks h
    · exact ⟨fun _ => hdone, fun hr => absurd hr (not_isReset_of_engine hs')⟩
    · exact stays_busy (busy_of_waiting hphase)
  | answered => exact stays_busy rfl
  | aborted _ _ _ hs' hv => exact ⟨fun _ => rfl, fun hr => absurd hr (not_isReset_of_write hs' hv)⟩
  | softReset rest v hs' hv =>
    obtain ⟨_, hdone, _, herr, _⟩ := afterReset_softReset { s with schedule := rest }
    exact ⟨fun hnot => absurd (.inl ⟨v, rest, hs', hv⟩) hnot, fun _ => ⟨hdone, herr⟩⟩
  | powerOn rest hs' => exact ⟨fun hnot => absurd (.inr ⟨rest, hs'⟩) hnot, fun _ => ⟨rfl, rfl⟩⟩
  | accepted _ _ _ hb => exact absurd (hs.symm.trans hb) nofun

/-! ### MATCH -/

/-- Of the engine's steps only the end of a VERIFY sets MATCH. -/
theorem did_sets_matched (h : Did i s t) (hs : s.matched = false) (ht : t.matched = true) :
    i = .verify ∧ t.phase = .idle ∧ t.errcode = .none := by
  cases h with
  | verifyEnds _ hi => exact ⟨hi, rfl, rfl⟩
  | checkFailed | badCharacter | underflow | badAnswer => cases ht
  | nop | encoded | decoded | tstep | bdelay | trunc | hotpEnds | totpEnds => cases hs.symm.trans ht
  | hotpAsks | totpAsks | verifyAsks | verifyGoesOn => cases hs.symm.trans ht

theorem matched_changes (hclean : s.busy = true → s.matched = false) (h : StepDid s t) (hne : t.matched ≠ s.matched) :
    (t.matched = true ∧ s.phase = .running (.command .verify) ∧ t.busy = false ∧ t.errcode = .none) ∨
    (t.matched = false ∧ (IsReset s ∨
      ∃ w rest, s.busy = false ∧ s.schedule = .host (.write (s.cfg.base + 0x00C) .word w) :: rest)) := by
  cases h with
  | quiet h =>
    obtain ⟨_, _, _, hmatched, _⟩ := h
    exact absurd hmatched hne
  | answered => exact absurd rfl hne
  | illegal _ _ _ hp => exact absurd (hclean (busy_of_running hp)).symm hne
  | aborted _ _ _ _ _ ho => exact absurd (hclean (busy_of_current ho)).symm hne
  | command _ i _ hp h =>
    have hs := hclean (busy_of_running hp)
    have ht : t.matched = true := by rwa [hs, ne_eq, Bool.not_eq_false] at hne
    obtain ⟨rfl, hidle, herr⟩ := did_sets_matched h hs ht
    exact .inl ⟨ht, hp, (busy_false t).2 hidle, herr⟩
  | softReset rest v hs hv =>
    obtain ⟨_, _, hmatched, _⟩ := afterReset_softReset { s with schedule := rest }
    exact .inr ⟨hmatched, .inl (.inl ⟨v, rest, hs, hv⟩)⟩
  | powerOn rest hs => exact .inr ⟨rfl, .inl (.inr ⟨rest, hs⟩)⟩
  | accepted rest w hs hb => exact .inr ⟨rfl, .inr ⟨w, rest, hb, hs⟩⟩

/-! ### OVR -/

theorem setOperand_ovr (r : Reg) (v : Word) (s : State) : (setOperand r v s).ovr = s.ovr := by
  cases r <;> rfl

theorem engineTurn_ovr (h : engineTurn s = .next t) : t.ovr = s.ovr := by
  obtain ⟨rfl, _⟩ | ⟨_, _, rfl⟩ | ⟨i, _, hdid⟩ := engineTurn_cases h
  · rfl
  · rfl
  · obtain ⟨_, ⟨_, _, hovr⟩, _⟩ := did_frame hdid
    exact hovr

theorem deliver_ovr (k : Nat) (s : State) : (deliver k s).ovr = s.ovr := by
  obtain h | ⟨_, _, _, _, _, h⟩ := deliver_cases k s <;> rw [h]

theorem hostDid_ovr {a : Access} (h : HostDid a s t) :
    t.ovr = s.ovr ∨
    (t.ovr = true ∧ s.busy = true ∧ ∃ addr w v, a = .write addr w v) ∨
    (t.ovr = false ∧ ∃ v, (a = .write (s.cfg.base + 0x004) .word v ∧ v.getLsbD 0 = true) ∨
      (a = .write (s.cfg.base + 0x008) .word v ∧ v.getLsbD 2 = true)) := by
  cases h with
  | read | ignored | aborted | ctrl | cmd | ibuf => exact .inl rfl
  | operand r v => exact .inl (setOperand_ovr r v s)
  | discarded addr w v ha hb => exact .inr (.inl ⟨rfl, hb, addr, w, v, ha⟩)
  | softReset v ha hv =>
    obtain ⟨_, _, _, _, _, _, hovr⟩ := afterReset_softReset s
    exact .inr (.inr ⟨hovr, v, .inl ⟨ha, hv⟩⟩)
  | status v ha =>
    cases hv : v.getLsbD 2 with
    | false => exact .inl (by rw [writeStatus_ovr, hv, Bool.not_false, Bool.and_true])
    | true => exact .inr (.inr ⟨by rw [writeStatus_ovr, hv, Bool.not_true, Bool.and_false], v, .inr ⟨ha, hv⟩⟩)

/-! ### The buffers -/

theorem hostDid_ibuf {a : Access} (h : HostDid a s t) (hne : t.ibuf ≠ s.ibuf) :
    s.busy = false ∧ ∃ k w v, k < s.cfg.bufBytes ∧ a = .write (s.cfg.base + 0x1000 + k) w v := by
  cases h with
  | read | ignored | discarded | status | aborted | ctrl | cmd => exact absurd rfl hne
  | operand r v =>
    obtain ⟨_, _, hibuf, _⟩ := setOperand_frame r v s
    exact absurd hibuf hne
  | softReset =>
    obtain ⟨_, hibuf, _⟩ := softReset_spec s
    exact absurd hibuf hne
  | ibuf k w v ha hb hk => exact ⟨hb, k, w, v, hk, ha⟩

theorem obuf_changes (h : StepDid s t) (hne : t.obuf ≠ s.obuf) :
    (∃ rest, s.schedule = .powerOn :: rest) ∨ s.busy = true := by
  cases h with
  | quiet h =>
    obtain ⟨_, _, _, _, hobuf, _⟩ := h
    exact absurd hobuf hne
  | accepted => exact absurd rfl hne
  | illegal _ _ _ hp => exact .inr (busy_of_running hp)
  | command _ _ _ hp => exact .inr (busy_of_running hp)
  | answered _ _ _ _ hp => exact .inr (busy_of_waiting hp)
  | aborted _ _ _ _ _ ho => exact .inr (busy_of_current ho)
  | softReset rest =>
    obtain ⟨_, _, _, hobuf, _⟩ := softReset_spec { s with schedule := rest }
    refine .inr ?_
    by_contra hb
    exact hne (hobuf (Bool.eq_false_iff.2 hb))
  | powerOn rest hs => exact .inl ⟨rest, hs⟩

/-! ### The HMAC port -/

/-- The end of a command leaves no request that was not there. -/
theorem did_pending_of_idle (h : Did i s t) (hidle : t.phase = .idle) : t.pending = none ∨ t.pending = s.pending := by
  cases h with
  | checkFailed | badCharacter | underflow | badAnswer => exact .inl rfl
  | nop | encoded | decoded | tstep | bdelay | trunc | hotpEnds | totpEnds | verifyEnds => exact .inr rfl
  | hotpAsks | totpAsks | verifyAsks | verifyGoesOn => cases hidle

/-- A step leaves the port as it is, cancels or answers the outstanding request, or is an engine step that makes a new
one. -/
theorem port_cases (h : StepDid s t) :
    (t.portLog = s.portLog ∧ (t.pending = none ∨ t.pending = s.pending)) ∨
    ((∃ op, s.phase = .running op) ∧
      ∃ q, t.portLog = q :: s.portLog ∧ t.pending = some q ∧ q.key = s.keyh ∧ q.wellFormed = true) := by
  cases h with
  | quiet h =>
    obtain ⟨_, hpending, hlog, _⟩ := h
    exact .inl ⟨hlog, .inr hpending⟩
  | illegal | answered | aborted | powerOn => exact .inl ⟨rfl, .inl rfl⟩
  | accepted => exact .inl ⟨rfl, .inr rfl⟩
  | softReset rest =>
    obtain ⟨_, _, _, _, hpending, hlog, _⟩ := afterReset_softReset { s with schedule := rest }
    exact .inl ⟨hlog, .inl hpending⟩
  | command rest i _ hp h =>
    obtain ⟨hidle, _, hlog⟩ | ⟨_, _, _, q, hq, hlog, hwf, hkey⟩ := did_ends_or_asks h
    · exact .inl ⟨hlog, did_pending_of_idle (s := { s with schedule := rest }) h hidle⟩
    · exact .inr ⟨⟨_, hp⟩, q, hlog, hq, hkey, hwf⟩

/-- A CTRL write with SRST or ABORT while busy cancels the request. -/
theorem writeCtrl_cancels {v : Word} (hv : v.getLsbD 0 = true ∨ v.getLsbD 1 = true) (hb : s.busy = true) :
    (writeCtrl v s).pending = none ∧ (writeCtrl v s).portLog = s.portLog := by
  cases hsrst : v.getLsbD 0 with
  | true =>
    obtain ⟨_, _, _, _, hpending, hlog, _⟩ := afterReset_softReset s
    rw [writeCtrl_srst hsrst]
    exact ⟨hpending, hlog⟩
  | false =>
    have habort : v.getLsbD 1 = true := hv.resolve_left (by rw [hsrst]; nofun)
    cases hop : s.current with
    | none => exact absurd (((current_none s).1 hop).symm.trans hb) nofun
    | some op =>
      rw [writeCtrl_abort hsrst habort hop]
      exact ⟨rfl, rfl⟩

end Sys2Proof.Machine

open Sys2Proof Sys2Proof.Machine

/-- Settles O39: of what a step can do only the end of a command raises DONE. -/
theorem doneRisesOnlyWhenACommandEnds : Obligations.DoneRisesOnlyWhenACommandEnds := by
  intro s t h hs ht
  obtain ⟨hbusy, hidle⟩ := done_rises (step_did h) hs ht
  exact ⟨hbusy, hidle, by rw [State.irq, ht, Bool.true_and]⟩

/-- Settles O40: by what a step can do, with the resets told apart by the schedule's first entry. -/
theorem busyRisesByCmdAndFallsWithDoneOrReset : Obligations.BusyRisesByCmdAndFallsWithDoneOrReset :=
  fun _ _ h => ⟨busy_rises (step_did h), busy_falls (step_did h)⟩

/-- Settles O42: the invariant keeps MATCH 0 while busy, so an end that sets it is VERIFY's. -/
theorem matchHoldsUntilTheNextCommand : Obligations.MatchHoldsUntilTheNextCommand := by
  intro s t hinv h
  have hclean : s.busy = true → s.matched = false := fun hb => by
    obtain ⟨_, hmatched, _⟩ := hinv.clean hb
    exact hmatched
  exact ⟨hclean, matched_changes hclean (step_did h)⟩

/-- Settles O43: no agent but the host writes OVR, short of a power-on. -/
theorem ovrIsSticky : Obligations.OvrIsSticky := by
  intro s t h
  have kept (heq : t.ovr = s.ovr) {P Q : Prop} :
      (s.ovr = false → t.ovr = true → P) ∧ (s.ovr = true → t.ovr = false → Q) :=
    ⟨fun hs ht => absurd (hs.symm.trans (heq.symm.trans ht)) nofun,
      fun hs ht => absurd (hs.symm.trans (heq.symm.trans ht)) nofun⟩
  obtain ⟨rest, _, ⟨_, he⟩ | ⟨a, hs, hdid⟩ | ⟨k, _, rfl⟩ | ⟨hs, rfl⟩⟩ := step_cases h
  · exact kept (engineTurn_ovr (s := { s with schedule := rest }) he)
  · obtain heq | ⟨hset, hb, addr, w, v, rfl⟩ | ⟨hclear, v, hwrite⟩ := hostDid_ovr hdid
    · exact kept heq
    · exact ⟨fun _ _ => ⟨hb, addr, w, v, rest, hs⟩, fun _ ht => absurd (ht.symm.trans hset) nofun⟩
    · refine ⟨fun _ ht => absurd (hclear.symm.trans ht) nofun, fun _ _ => ?_⟩
      obtain ⟨rfl, hv⟩ | ⟨rfl, hv⟩ := hwrite
      · exact .inl (.inl ⟨v, rest, hs, hv⟩)
      · exact .inr ⟨v, rest, hs, hv⟩
  · exact kept (deliver_ovr k { s with schedule := rest })
  · exact ⟨fun _ ht => (by cases ht), fun _ _ => .inl (.inr ⟨rest, hs⟩)⟩

/-- Settles O44: IBUF by the host's accesses, which alone write it short of a power-on, and OBUF by what a step
can do. -/
theorem buffersAreWrittenOnlyByTheirWriters : Obligations.BuffersAreWrittenOnlyByTheirWriters := by
  refine fun s t h => ⟨fun hne => ?_, obuf_changes (step_did h)⟩
  obtain ⟨rest, _, ⟨_, he⟩ | ⟨a, hs, hdid⟩ | ⟨k, _, rfl⟩ | ⟨hs, _⟩⟩ := step_cases h
  · obtain ⟨_, hibuf, _⟩ := engineTurn_sameFrozen he
    exact absurd hibuf hne
  · obtain ⟨hb, k, w, v, hk, rfl⟩ := hostDid_ibuf hdid hne
    exact .inr ⟨hb, k, w, v, rest, hk, hs⟩
  · obtain ⟨_, hibuf, _⟩ := deliver_sameFrozen k { s with schedule := rest }
    exact absurd hibuf hne
  · exact .inl ⟨rest, hs⟩

/-- Settles O45: only a running command makes a request, and the invariant leaves it none outstanding. -/
theorem oneRequestAtATime : Obligations.OneRequestAtATime := by
  intro s t hinv h
  obtain ⟨hlog, _⟩ | ⟨⟨op, hp⟩, hrequest⟩ := port_cases (step_did h)
  · exact .inl hlog
  · obtain ⟨hpending, _⟩ := hinv.running op hp
    exact .inr ⟨hpending, hrequest⟩

/-- Settles O46: the port takes an answer by its request's number, and a later request has a higher one. -/
theorem cancelledAnswersAreDiscarded : Obligations.CancelledAnswersAreDiscarded := by
  refine ⟨fun s k rest hs => ⟨fun op q hp hq hk => ?_, fun hdiscard => ?_⟩, fun s t v rest hv hb hs h => ?_,
    fun s t h => ?_⟩
  · exact (step_answer hs).trans (congrArg _ (deliver_taken (s := { s with schedule := rest }) hq hp hk))
  · exact (step_answer hs).trans (congrArg _ (deliver_discarded (s := { s with schedule := rest }) hdiscard))
  · obtain rfl := Host.Outcome.next.inj ((step_writeReg (r := .ctrl) hs).symm.trans h)
    exact writeCtrl_cancels (s := { s with schedule := rest }) hv hb
  · obtain ⟨hlog, hpending⟩ | ⟨_, q, hlog, _⟩ := port_cases (step_did h) <;> rw [hlog]
    · refine ⟨le_rfl, fun hsome hnone => ?_⟩
      exact absurd (hpending.elim id (·.trans hnone)) hsome
    · exact ⟨Nat.le_succ _, fun _ _ => Nat.lt_succ_self _⟩

end

section
/-! 10_state.md section 5, 40_command_lifecycle.md and 60_exceptions.md section 5: every agent's step keeps `Inv`. -/

namespace Sys2Proof.Machine

variable {i : Instr} {s t u : State}

/-! ### What the engine's phase says -/

/-- The parameters are legal and both buffers in canonical form: the part of `Inv` that holds whatever the engine
does. -/
def Canonical (s : State) : Prop :=
  s.cfg.wellFormed = true ∧ Memory.wf s.cfg.bufBytes s.ibuf = true ∧ Memory.wf s.cfg.bufBytes s.obuf = true

theorem Inv.canonical (h : Inv s) : Canonical s := ⟨h.cfg, h.ibuf, h.obuf⟩

theorem not_inFlight_of_idle (h : t.phase = .idle) : ¬ InFlight i t := by
  rintro (hw | ⟨hr, _⟩)
  · cases h.symm.trans hw
  · cases h.symm.trans hr

/-- A command at its start is not yet in flight. -/
theorem not_inFlight_of_start {op : Op} (h : t.phase = .running op) (hresp : t.resp = none) : ¬ InFlight i t := by
  rintro (hw | ⟨_, hr⟩)
  · cases h.symm.trans hw
  · exact hr hresp

theorem inFlight_of_waiting {j : Instr} (h : t.phase = .waiting (.command i)) (hj : InFlight j t) : j = i := by
  obtain hw | ⟨hr, _⟩ := hj
  · injection h.symm.trans hw with hop
    injection hop with hop
    exact hop.symm
  · cases h.symm.trans hr

/-- With no command in the engine, only the buffers and the record of the last command count. -/
theorem inv_of_idle (hcan : Canonical t) (hphase : t.phase = .idle) (hpending : t.pending = none)
    (hresp : t.resp = none) (hno : t.errcode = .none → t.errinfo = 0)
    (hafter : t.errcode ≠ .none → t.matched = false ∧ t.olen = 0) : Inv t := by
  obtain ⟨hcfg, hibuf, hobuf⟩ := hcan
  exact {
    cfg := hcfg, ibuf := hibuf, obuf := hobuf, noError := hno, afterError := hafter
    idle := fun _ => ⟨hpending, hresp⟩
    running := fun _ h => absurd (hphase.symm.trans h) nofun
    waiting := fun _ h => absurd (hphase.symm.trans h) nofun
    clean := fun h => absurd (((busy_false t).2 hphase).symm.trans h) nofun
    illegal := fun _ h => absurd (hphase.symm.trans h) nofun
    checked := fun _ h => absurd h (not_inFlight_of_idle hphase)
    counted := fun h => h.elim (absurd · (not_inFlight_of_idle hphase)) (absurd · (not_inFlight_of_idle hphase))
    window := fun h => absurd h (not_inFlight_of_idle hphase) }

theorem inv_raise {e : ErrCode} (info : Word) (he : e ≠ .none) (hcan : Canonical s) (hresp : s.resp = none) :
    Inv (raise e info s) :=
  inv_of_idle hcan rfl rfl hresp (fun h => absurd h he) (fun _ => ⟨rfl, rfl⟩)

theorem inv_of_endedOk (hcan : Canonical t) (hphase : t.phase = .idle) (hpending : t.pending = none)
    (hresp : t.resp = none) (herr : t.errcode = .none) (hinfo : t.errinfo = 0) : Inv t :=
  inv_of_idle hcan hphase hpending hresp (fun _ => hinfo) (fun h => absurd herr h)

/-- A request leaves the invariant where the command's counter, step and window are those of its operands. -/
theorem inv_request {c : Nat} (hcan : Canonical u) (ha : asks (.command i) = true) (hresp : u.resp = none)
    (hclean : u.done = false ∧ u.matched = false ∧ u.errcode = .none ∧ u.errinfo = 0)
    (hc : firstFailed (operandChecks i u) = none) (hcounter : flightCounter i (request i c u) = c)
    (hcounted : i = .totp ∨ i = .verify → u.rtime.val = u.t.toNat ∧ u.rctr.val = u.timeStep)
    (hwindow : i = .verify → u.bwd.toNat ≤ u.timeStep ∧ u.start + u.bwd.toNat = u.timeStep ∧
      u.n = u.fwd.toNat + u.bwd.toNat + 1 ∧ u.i < u.n) : Inv (request i c u) := by
  obtain ⟨hcfg, hibuf, hobuf⟩ := hcan
  have ⟨_, _, herr, hinfo⟩ := hclean
  have hphase : (request i c u).phase = .waiting (.command i) := rfl
  exact {
    cfg := hcfg, ibuf := hibuf, obuf := hobuf
    idle := nofun
    running := nofun
    waiting := fun op h => by
      injection h with h
      subst h
      refine ⟨i, rfl, ha, hresp, ?_, rfl⟩
      rw [hcounter, ← requestFor_eq]
      rfl
    clean := fun _ => hclean
    noError := fun _ => hinfo
    afterError := fun h => absurd herr h
    illegal := nofun
    checked := fun j hj => by
      obtain rfl := inFlight_of_waiting hphase hj
      exact hc
    counted := fun h => hcounted (h.imp (fun h => (inFlight_of_waiting hphase h).symm)
      fun h => (inFlight_of_waiting hphase h).symm)
    window := fun h => hwindow (inFlight_of_waiting hphase h).symm }

/-! ### The engine's step -/

section
variable (hinv : Inv s) (hp : s.phase = .running (.command i))
include hinv hp

theorem Inv.checked_of_answer (hr : s.resp ≠ none) : firstFailed (operandChecks i s) = none :=
  hinv.checked i (.inr ⟨hp, hr⟩)

theorem Inv.resp_eq_none (ha : asks (.command i) = false) : s.resp = none := by
  obtain ⟨_, hasks⟩ := hinv.running _ hp
  by_contra hr
  exact absurd (ha.symm.trans (hasks hr)) nofun

/-- What a command's step stores fits OBUF, since its checks passed. -/
theorem Inv.canonical_of_did (h : Did i s t) : Canonical t := by
  obtain ⟨_, _, hibuf, hcfg, _⟩ := did_frame h
  refine ⟨hcfg ▸ hinv.cfg, by rw [hcfg, hibuf]; exact hinv.ibuf, ?_⟩
  rw [hcfg]
  obtain hobuf | ⟨hstart, out, ⟨_, hobuf, _⟩, hfits⟩ := did_obuf hinv.cfg h
  · exact hobuf ▸ hinv.obuf
  · have hchecked : firstFailed (operandChecks i s) = none := by
      by_cases hr : s.resp = none
      · exact hstart hr
      · exact hinv.checked_of_answer hp hr
    have hlen := hfits hchecked
    rw [hobuf]
    exact Memory.wf_writeList (by omega) hinv.obuf

end

/-- An engine step of a running command keeps the invariant. -/
theorem inv_of_did (hinv : Inv s) (hp : s.phase = .running (.command i)) (h : Did i s t) : Inv t := by
  have hcan := hinv.canonical
  have hcan' : Canonical t := hinv.canonical_of_did hp h
  have hclean := hinv.clean (busy_of_running hp)
  have ⟨_, _, _, hinfo⟩ := hclean
  obtain ⟨hpending, _⟩ := hinv.running _ hp
  have hstep : (takeSample s).timeStep = s.sampleStep := takeSample_timeStep s
  cases h with
  | checkFailed off _ hr =>
    refine inv_raise off nofun hcan ?_
    cases ha : asks (.command i) with
    | true => exact hr ha
    | false => exact hinv.resp_eq_none hp ha
  | badCharacter info hi => exact inv_raise info nofun hcan (hinv.resp_eq_none hp (hi ▸ rfl))
  | underflow _ hr => exact inv_raise 0 nofun hcan hr
  | badAnswer info => exact inv_raise info nofun hcan rfl
  | nop hi | encoded hi | decoded hi | tstep hi | bdelay hi | trunc hi =>
    exact inv_of_endedOk hcan' rfl hpending (hinv.resp_eq_none hp (hi ▸ rfl)) rfl hinfo
  | hotpEnds | totpEnds | verifyEnds => exact inv_of_endedOk hcan' rfl hpending rfl rfl hinfo
  | hotpAsks hi hr hc =>
    subst hi
    exact inv_request (u := { s with rctr := s.ctr }) hcan rfl hr hclean hc rfl nofun nofun
  | totpAsks hi hr hc =>
    subst hi
    exact inv_request (u := { takeSample s with rctr := Pair.ofNat s.sampleStep }) hcan rfl hr hclean hc hstep
      (fun _ => ⟨Pair.val_ofNat (sampleValue s).isLt, (sampleStep_pair s).trans hstep.symm⟩) nofun
  | verifyAsks hi hr hc hb =>
    subst hi
    exact inv_request hcan rfl hr hclean hc rfl
      (fun _ => ⟨Pair.val_ofNat (sampleValue s).isLt, (sampleStep_pair s).trans hstep.symm⟩)
      (fun _ => ⟨hb.trans_eq hstep.symm, (Nat.sub_add_cancel hb).trans hstep.symm, rfl, Nat.succ_pos _⟩)
  | verifyGoesOn d hi hr _ hn =>
    subst hi
    have hflight : InFlight .verify s := .inr ⟨hp, by rw [hr]; nofun⟩
    obtain ⟨hbwd, hstart, hsize, _⟩ := hinv.window hflight
    exact inv_request hcan rfl rfl hclean (hinv.checked _ hflight) rfl (fun _ => hinv.counted (.inr hflight))
      (fun _ => ⟨hbwd, hstart, hsize, hn⟩)

theorem inv_of_engineTurn (hinv : Inv s) (h : engineTurn s = .next t) : Inv t := by
  obtain ⟨rfl, _⟩ | ⟨w, hp, rfl⟩ | ⟨i, hp, hdid⟩ := engineTurn_cases h
  · exact hinv
  · obtain ⟨_, hasks⟩ := hinv.running _ hp
    have hresp : s.resp = none := by
      by_contra hr
      exact absurd (hasks hr) nofun
    exact inv_raise w nofun hinv.canonical hresp
  · exact inv_of_did hinv hp hdid

/-! ### The collaborator's answer -/

/-- An answer that is taken leaves its command in flight, with the answer in hand instead of the request outstanding. -/
theorem inv_deliver (hinv : Inv s) (k : Nat) : Inv (deliver k s) := by
  obtain h | ⟨q, op, _, hp, _, h⟩ := deliver_cases k s <;> rw [h]
  · exact hinv
  obtain ⟨i, rfl, ha, _⟩ := hinv.waiting op hp
  have flight : ∀ {j : Instr}, InFlight j
      { s with pending := none, phase := .running (.command i), resp := some (hmacOf s.cfg q) } → InFlight j s := by
    rintro j (hw | ⟨hr, _⟩)
    · cases hw
    · injection hr with hr
      exact .inl (hr ▸ hp)
  exact {
    cfg := hinv.cfg, ibuf := hinv.ibuf, obuf := hinv.obuf, noError := hinv.noError, afterError := hinv.afterError
    idle := nofun
    running := fun op h => by
      injection h with h
      exact ⟨rfl, fun _ => h ▸ ha⟩
    waiting := nofun
    clean := fun _ => hinv.clean (busy_of_waiting hp)
    illegal := nofun
    checked := fun j hj => hinv.checked j (flight hj)
    counted := fun h => hinv.counted (h.imp flight flight)
    window := fun h => hinv.window (flight h) }

/-! ### Host accesses and resets -/

/-- The invariant does not speak of what only the host and the schedule see, nor of DONE's being cleared. -/
theorem Inv.hostSide (hinv : Inv s) (irqen clksel ovr done : Bool) (hdone : done = true → s.done = true)
    (schedule : List Event) (rdata : Word) (draws : Nat) :
    Inv { s with irqen := irqen, clksel := clksel, ovr := ovr, done := done, schedule := schedule, rdata := rdata,
                 draws := draws } :=
  { cfg := hinv.cfg, ibuf := hinv.ibuf, obuf := hinv.obuf, idle := hinv.idle, running := hinv.running
    waiting := hinv.waiting, noError := hinv.noError, afterError := hinv.afterError, illegal := hinv.illegal
    checked := hinv.checked, counted := hinv.counted, window := hinv.window
    clean := fun hb => by
      obtain ⟨hd, hclean⟩ := hinv.clean hb
      exact ⟨Bool.eq_false_iff.2 fun h => absurd (hd.symm.trans (hdone h)) nofun, hclean⟩ }

theorem couldWrite_le (hw : s.cfg.wellFormed = true) (op : Op) : couldWrite op s ≤ s.cfg.bufBytes := by
  obtain ⟨hmin, _⟩ := bufBytes_bounds hw
  cases op with
  | illegal => exact Nat.zero_le _
  | command i => cases i <;> simp only [couldWrite] <;> omega

/-- The bytes an ended command could have written lie within OBUF. -/
theorem canonical_looseObuf (hcan : Canonical s) (op : Op) : Canonical (looseObuf op s) := by
  obtain ⟨hcfg, hibuf, hobuf⟩ := hcan
  refine ⟨hcfg, hibuf, Memory.wf_writeList ?_ hobuf⟩
  rw [Nat.zero_add, List.length_map, List.length_range]
  exact couldWrite_le hcfg op

theorem inv_resetRegs (hcan : Canonical s) : Inv (resetRegs s) :=
  inv_of_endedOk hcan rfl rfl rfl rfl rfl

theorem inv_softReset (hcan : Canonical s) : Inv (softReset s) := by
  obtain ⟨_, h⟩ | ⟨op, _, h⟩ := softReset_cases s <;> rw [h]
  · exact inv_resetRegs hcan
  · exact inv_resetRegs (canonical_looseObuf hcan op)

theorem inv_powerOn (hcan : Canonical s) : Inv (powerOn s) := by
  obtain ⟨hcfg, _⟩ := hcan
  exact inv_of_endedOk ⟨hcfg, Memory.wf_nil _, Memory.wf_nil _⟩ rfl rfl rfl rfl rfl

theorem inv_endAborted (hcan : Canonical s) (op : Op) : Inv (endAborted op s) :=
  inv_of_idle (canonical_looseObuf hcan op) rfl rfl rfl nofun (fun _ => ⟨rfl, rfl⟩)

/-- Only a word that does not decode is kept as Illegal. -/
theorem decode_of_decodeOp_illegal {w v : Word} (h : decodeOp w = .illegal v) : ∃ e, decode v = .error e := by
  unfold decodeOp at h
  cases hd : decode w with
  | ok i => rw [hd] at h; cases h
  | error e =>
    rw [hd] at h
    injection h with h
    exact ⟨e, h ▸ hd⟩

theorem inv_accept (hinv : Inv s) (hb : s.busy = false) (w : Word) : Inv (accept w s) := by
  obtain ⟨hpending, hresp⟩ := hinv.idle ((busy_false s).1 hb)
  have hstart : ∀ j, ¬ InFlight j (accept w s) := fun j => not_inFlight_of_start (accept_phase w s) hresp
  exact {
    cfg := hinv.cfg, ibuf := hinv.ibuf, obuf := hinv.obuf
    idle := nofun
    running := fun _ _ => ⟨hpending, fun h => absurd hresp h⟩
    waiting := nofun
    clean := fun _ => ⟨rfl, rfl, rfl, rfl⟩
    noError := fun _ => rfl
    afterError := fun h => absurd rfl h
    illegal := fun v h => by
      injection h with h
      exact decode_of_decodeOp_illegal h
    checked := fun j h => absurd h (hstart j)
    counted := fun h => h.elim (absurd · (hstart _)) (absurd · (hstart _))
    window := fun h => absurd h (hstart _) }

theorem inv_setOperand (hinv : Inv s) (hb : s.busy = false) (r : Reg) (v : Word) : Inv (setOperand r v s) := by
  have hidle := (busy_false s).1 hb
  obtain ⟨hpending, hresp⟩ := hinv.idle hidle
  cases r <;> exact inv_of_idle hinv.canonical hidle hpending hresp hinv.noError hinv.afterError

/-- An aligned access that begins inside a buffer ends inside it, since BUF_BYTES is a multiple of 4. -/
theorem access_fits (hw : s.cfg.wellFormed = true) {k : Nat} {w : Width} (hk : k < s.cfg.bufBytes)
    (hal : k % bytesOf w = 0) : k + bytesOf w ≤ s.cfg.bufBytes := by
  obtain ⟨_, _, hmul⟩ := bufBytes_bounds hw
  cases w <;> simp only [bytesOf] at hal ⊢ <;> omega

theorem inv_of_hostDid {a : Access} (hinv : Inv s) (h : HostDid a s t) : Inv t := by
  cases h with
  | read _ _ v d => exact hinv.hostSide s.irqen s.clksel s.ovr s.done id s.schedule v d
  | ignored => exact hinv
  | discarded => exact hinv.hostSide s.irqen s.clksel true s.done id s.schedule s.rdata s.draws
  | operand r v _ hb => exact inv_setOperand hinv hb r v
  | status v =>
    have hdone : (s.done && !v.getLsbD 1) = true → s.done = true := fun h => (Bool.and_eq_true_iff.1 h).1
    exact hinv.hostSide s.irqen s.clksel _ _ hdone s.schedule s.rdata s.draws
  | softReset => exact inv_softReset hinv.canonical
  | aborted v op =>
    have hended := inv_endAborted hinv.canonical op
    exact hended.hostSide _ _ s.ovr true (fun _ => rfl) s.schedule s.rdata (s.draws + 1)
  | ctrl v => exact hinv.hostSide _ _ s.ovr s.done id s.schedule s.rdata s.draws
  | cmd w _ hb => exact inv_accept hinv hb w
  | ibuf k w v _ hb hk hal =>
    have hidle := (busy_false s).1 hb
    obtain ⟨hpending, hresp⟩ := hinv.idle hidle
    have hibuf : Memory.wf s.cfg.bufBytes (s.ibuf.writeList k (leBytes (bytesOf w) v)) = true :=
      Memory.wf_writeList (by simpa using access_fits hinv.cfg hk hal) hinv.ibuf
    exact inv_of_idle ⟨hinv.cfg, hibuf, hinv.obuf⟩ hidle hpending hresp hinv.noError hinv.afterError

end Sys2Proof.Machine

open Sys2Proof Sys2Proof.Machine

/-- Settles O59: an idle state with empty buffers and the default parameters. -/
theorem resetSatisfiesTheInvariant : Obligations.ResetSatisfiesTheInvariant :=
  inv_of_endedOk ⟨rfl, rfl, rfl⟩ rfl rfl rfl rfl rfl

/-- Settles O60: by the inversion of `step`, agent by agent; the schedule itself is no part of the invariant. -/
theorem everyStepKeepsTheInvariant : Obligations.EveryStepKeepsTheInvariant := by
  intro s t hs h
  obtain ⟨rest, _, hmove⟩ := step_cases h
  have hinv : Inv { s with schedule := rest } := hs.hostSide s.irqen s.clksel s.ovr s.done id rest s.rdata s.draws
  obtain ⟨_, he⟩ | ⟨a, _, hdid⟩ | ⟨k, _, rfl⟩ | ⟨_, rfl⟩ := hmove
  · exact inv_of_engineTurn hinv he
  · exact inv_of_hostDid hinv hdid
  · exact inv_deliver hinv k
  · exact inv_powerOn hinv.canonical

end
